-- ==== Sys2Proof/Word.lean ====
section
/-! DEFINITION. The word types of base32_codec (00_scope.md R8, R9; 10_state.md R21, R23) and the signed reading of a word. -/

namespace Sys2Proof

/-- A byte of memory, a character or a data byte (R62). -/
abbrev Byte := BitVec 8

/-- A host-visible register or a command word: `REG_W` = 32 bits (R8). -/
abbrev Word := BitVec 32

/-- An address on the memory master port: `ADDR_W` = 32 bits (R8). -/
abbrev Addr := BitVec 32

/-- The bit accumulator: `ACC_W` = 13 bits (R8, R21). -/
abbrev Acc := BitVec 13

/-- The count of valid accumulator bits: `BITS_W` = 4 bits (R8, R23). -/
abbrev BitCount := BitVec 4

/-- A 5-bit alphabet index (R80). -/
abbrev Symbol := BitVec 5

/-- `s32(v)`, the two's complement reading of a 32-bit value (R9). -/
def s32 (v : Word) : Int := v.toInt

end Sys2Proof
end

