-- ==== Sys2Proof/Syntax.lean ====
section
/-! DEFINITION. The instructions of base32_codec, one constructor per row of the opcode table (30_encoding.md R90), and the
fields of a command word (R87). -/

namespace Sys2Proof

/-- The four commands. None has an operand field (R91): the operands are the argument registers. -/
inductive Instr where
  | clr
  | enc
  | encPad
  | dec
  deriving DecidableEq, Repr

/-- A command word by its fields (R31, R87): `OP` = bits [1:0], `PAD` = bit [2], `RSV` = bits [31:3]. -/
structure CommandFields where
  op  : BitVec 2
  pad : BitVec 1
  rsv : BitVec 29
  deriving DecidableEq, Repr

end Sys2Proof
end

