-- ==== Sys2Proof/WellFormed.lean ====
section
/-! DEFINITION. Which command words are legal (30_encoding.md R87 to R90), each refusal by name. -/

namespace Sys2Proof

/-- Why a command word is illegal (R90). -/
inductive DecodeError where
  /-- RSV is not 0 (R87). -/
  | reservedBits
  /-- OP = 0b11 (R88). -/
  | reservedOp
  /-- PAD = 1 with OP other than ENCODE (R89). -/
  | padWithoutEncode
  deriving DecidableEq, Repr

/-- The first of R90's conditions that makes the word illegal, if any. -/
def CommandFields.fault (f : CommandFields) : Option DecodeError :=
  if f.rsv ≠ 0#29 then some .reservedBits
  else if f.op = 0b11#2 then some .reservedOp
  else if f.pad = 1#1 ∧ f.op ≠ 0b01#2 then some .padWithoutEncode
  else none

/-- The fields make a legal command word (R90). -/
def CommandFields.wellFormed (f : CommandFields) : Bool := f.fault.isNone

/-- The fields of each instruction's command word (R87, R88, R89; opcode_table.json). -/
def Instr.fields : Instr → CommandFields
  | .clr    => ⟨0b00#2, 0#1, 0#29⟩
  | .enc    => ⟨0b01#2, 0#1, 0#29⟩
  | .encPad => ⟨0b01#2, 1#1, 0#29⟩
  | .dec    => ⟨0b10#2, 0#1, 0#29⟩

/-- An instruction is well formed if its command word's fields are (R90). No instruction has an operand that could be out of range. -/
def Instr.wellFormed (i : Instr) : Bool := i.fields.wellFormed

end Sys2Proof
end

