-- ==== Sys2Proof/Decode.lean ====
section
/-! DEFINITION. The decoder of command words, total on every 32-bit word (30_encoding.md R87 to R90), and the encoder. -/

namespace Sys2Proof

/-- The fields of a command word (R87). -/
def CommandFields.ofWord (w : Word) : CommandFields :=
  ⟨w.extractLsb' 0 2, w.extractLsb' 2 1, w.extractLsb' 3 29⟩

/-- The command word with given fields (R87). -/
def CommandFields.toWord (f : CommandFields) : Word := f.rsv ++ f.pad ++ f.op

/-- The command of legal fields (R88, R89). OP = 0b11 has none. -/
def CommandFields.instr (f : CommandFields) : Except DecodeError Instr :=
  if f.op = 0b00#2 then .ok .clr
  else if f.op = 0b01#2 then .ok (if f.pad = 1#1 then .encPad else .enc)
  else if f.op = 0b10#2 then .ok .dec
  else .error .reservedOp

/-- The command a 32-bit word stands for, or why it is illegal (R90). -/
def decode (w : Word) : Except DecodeError Instr :=
  match (CommandFields.ofWord w).fault with
  | some e => .error e
  | none   => (CommandFields.ofWord w).instr

/-- The command word of an instruction (R90). -/
def encode (i : Instr) : Word := i.fields.toWord

/-- The instruction this decoder reads from the low `nbits` bits of `w`, bits numbered as opcode_table.json numbers them.
A command is always one 32-bit word (R87), so bits above it must be 0. -/
def decodeTableWord (nbits w : Nat) : Option Instr :=
  if w % 2 ^ nbits < 2 ^ 32 then (decode (BitVec.ofNat 32 (w % 2 ^ nbits))).toOption else none

end Sys2Proof
end

