-- ==== Sys2Proof/Machine/Codec.lean ====
section
/-! DEFINITION. The constant tables (10_state.md R44; 30_encoding.md R80 to R86): ALPHABET, LOOKUP, TYPO and the byte classes. -/

namespace Sys2Proof.Machine

/-- `ALPHABET[i]` (R81): `A`..`Z`, then `2`..`7`. -/
def alphabet (i : Symbol) : Byte :=
  if i.toNat ≤ 25 then BitVec.ofNat 8 (0x41 + i.toNat) else BitVec.ofNat 8 (0x32 + (i.toNat - 26))

/-- The padding marker `=` (R83). -/
def padByte : Byte := 0x3D#8

/-- The sentinel (R83). -/
def nul : Byte := 0x00#8

/-- The separators: space, tab, CR, LF and `-` (R83, R108). -/
def isSeparator (c : Byte) : Bool :=
  c == 0x20#8 || c == 0x09#8 || c == 0x0D#8 || c == 0x0A#8 || c == 0x2D#8

/-- `LOOKUP(c)` (R84); `none` is INVALID. -/
def lookup (c : Byte) : Option Symbol :=
  if 0x41 ≤ c.toNat ∧ c.toNat ≤ 0x5A then some (BitVec.ofNat 5 (c.toNat - 0x41))
  else if 0x61 ≤ c.toNat ∧ c.toNat ≤ 0x7A then some (BitVec.ofNat 5 (c.toNat - 0x61))
  else if 0x32 ≤ c.toNat ∧ c.toNat ≤ 0x37 then some (BitVec.ofNat 5 (c.toNat - 0x32 + 26))
  else none

/-- `TYPO(c)` (R85): `0` to `O`, `1` to `L`, `8` to `B`, every other byte unchanged. -/
def typo (c : Byte) : Byte :=
  if c = 0x30#8 then 0x4F#8 else if c = 0x31#8 then 0x4C#8 else if c = 0x38#8 then 0x42#8 else c

/-- The decoder's byte classes (R86). -/
inductive ByteClass where
  | pad
  | sep
  | sym (v : Symbol)
  | bad
  deriving DecidableEq, Repr

/-- The class of a byte, tested in R86's order. -/
def classify (c : Byte) : ByteClass :=
  if c = padByte then .pad
  else if isSeparator c then .sep
  else match lookup (typo c) with
    | some v => .sym v
    | none   => .bad

end Sys2Proof.Machine
end

