-- ==== Sys2Proof/Config.lean ====
section
/-! DEFINITION. What is fixed for the machine (00_scope.md R8), and the values the spec leaves open (R74, I4, I5, I16). -/

namespace Sys2Proof.Config

/-- `ENC_LEN_LIMIT`, the exclusive upper bound on the encoder input length (R8). -/
def encLenLimit : Nat := 2 ^ 28

/-- The bytes of the register window (R30). -/
def windowBytes : Nat := 64

/-- DESIGN CHOICE, unsafe (log 4): what a byte of memory that nothing has written reads as. The spec gives memory no
reset contents (R210 "Reset does not touch memory"). -/
def unlistedByte : Byte := 0x00#8

/-- `REG_BASE` (R8, R70, I16): the host address of the register window, an open parameter of the platform. No rule depends on it:
the host operations carry the offset in the window (R92). Log 13. -/
opaque regBase : Nat

/-- `INSTANCES` less one (R8, R198, I16): how many other copies of the block the platform has, an open parameter. They
act as part of the host (R199). Log 13. -/
opaque otherCopies : Nat

/-- Which of the values R74 allows a racing access returns: the n-th draw's number, taken modulo how many
values there are. Free: nothing constrains it. Log 7, log 9, log 11. -/
opaque raceChoice : Nat → Nat

/-- A byte the spec leaves unspecified (R74 third bullet, R212, I5): the n-th draw. Free: nothing constrains it. Log 8, log 10, log 11. -/
opaque freeByte : Nat → Byte

end Sys2Proof.Config
end

