-- ==== Sys2Proof/Machine/State.lean ====
section
/-! DEFINITION. The state of base32_codec: the block's registers (10_state.md), the memory (20_memory.md), and the
interleaving with the host and the platform (70_reset_and_hazards.md R214). -/

namespace Sys2Proof.Machine

/-- The block's sequencing state (R22). -/
inductive Fsm where
  | idle
  | encInit
  | encData
  | encPad
  | encFin
  | decScan
  | decFin
  deriving DecidableEq, Repr

/-- The error codes 1 to 5 (60_exceptions.md R180). Code 0 is no error, and 6 to 15 are never produced. -/
inductive ErrorCode where
  | invalidCharacter
  | invalidLength
  | invalidCapacity
  | bufferTooSmall
  | illegalCommand
  deriving DecidableEq, Repr

/-- The working registers (R20 to R28), which the host cannot read (R45). -/
structure Work where
  fsm      : Fsm
  acc      : Acc
  bits     : BitCount
  cnt      : Word
  cur      : Word
  padStart : Bool
  padReq   : Bool
  wIn      : Addr
  wLen     : Word
  wOut     : Addr
  wCap     : Word
  deriving DecidableEq, Repr

/-- The argument registers of the window (R33 to R36). -/
structure Args where
  inAddr  : Addr
  inLen   : Word
  outAddr : Addr
  outCap  : Word
  deriving DecidableEq, Repr

/-- The result registers: STATUS.DONE, STATUS.ERR, STATUS.ERRCODE and COUNT (R32, R37). STATUS.BUSY is a view of FSM (R40). -/
structure Result where
  done    : Bool
  err     : Bool
  errCode : Option ErrorCode
  count   : Word
  deriving DecidableEq, Repr

/-- The width of a host access to the register window (R67). -/
inductive AccessSize where
  | byte
  | half
  | word
  deriving DecidableEq, Repr

/-- The two operations of the memory master port (R60). -/
inductive AccessKind where
  | read
  | write
  deriving DecidableEq, Repr

/-- The host-visible registers by name (R30); `reserved` is any offset 0x1C to 0x3C (R38). -/
inductive HostReg where
  | cmd
  | status
  | inAddr
  | inLen
  | outAddr
  | outCap
  | count
  | reserved
  deriving DecidableEq, Repr

/-- `size` consecutive addresses from `base` on, modulo 2^32 (R64). -/
structure Region where
  base : Addr
  size : Nat
  deriving DecidableEq, Repr

/-- A region where the platform does not admit one kind of the block's accesses (R69). -/
structure Hole where
  region : Region
  kind   : AccessKind
  deriving DecidableEq, Repr

/-- A value that a host read may still see (R73, R74): one byte, or any byte at all (R212, I5). -/
inductive StaleValue where
  | value (b : Byte)
  | any
  deriving DecidableEq, Repr

/-- What the races of R74, the completion point of R73 and an abandoned command (R212) leave open. -/
structure Visibility where
  /-- Values a block read may return for an input byte the host wrote during the command (R74 first bullet). -/
  racing    : List (Addr × Byte)
  /-- Output bytes the host wrote during the command (R74 third bullet). -/
  clobbered : List Addr
  /-- Values a byte held during the running or last command, which a host read may return until the completion point
  (R73, R74 second bullet). -/
  stale     : List (Addr × StaleValue)
  /-- The same of earlier commands: a host read may still return them (R73), but not in the output region of a running command,
  where it returns a value of that command (R74 second bullet; log 9). -/
  older     : List (Addr × StaleValue)
  /-- Output regions of commands abandoned by a reset (R212, I5). -/
  abandoned : List Region
  /-- How many free values have been drawn: the model's own counter (log 11). -/
  draws     : Nat
  deriving DecidableEq, Repr

/-- One atomic step of an agent (R12, R214). -/
inductive Event where
  /-- The block's turn. -/
  | block
  /-- The host writes a register of the window: `W <offset> <imm32>` (R92). -/
  | regWrite (off : Nat) (size : AccessSize) (v : Word)
  /-- The host reads a register of the window: `R <offset>` (R92). -/
  | regRead (off : Nat) (size : AccessSize)
  /-- The host's polling loop (R93). -/
  | wait
  /-- The host, or another copy of the block (R199), writes a byte of memory. -/
  | memWrite (a : Addr) (v : Byte)
  /-- The host reads a byte of memory. -/
  | memRead (a : Addr)
  /-- The platform's reset (R210). -/
  | reset
  deriving DecidableEq, Repr

/-- What a host read returned: the model's own record (R39; log 15). -/
inductive Reply where
  | reg (off : Nat) (v : Word)
  | mem (a : Addr) (v : Byte)
  deriving DecidableEq, Repr

/-- The whole state: the block, the memory, the platform's admission, the interleaving. -/
structure State where
  work     : Work
  args     : Args
  result   : Result
  /-- Memory as (address, byte) cells in canonical form (`Memory.wf`). -/
  mem      : List Host.Cell
  /-- The block accesses the platform does not admit (R69). -/
  denied   : List Hole
  /-- The block is stuck on an access the platform did not admit (R69). Only reset ends that (R166, R225). -/
  stuck    : Bool
  /-- Races and host visibility (R73, R74, R212). -/
  vis      : Visibility
  /-- The agents' moves still to come, next first (R214). With none left the block moves. -/
  schedule : List Event
  /-- What host reads returned, newest first. -/
  replies  : List Reply
  deriving DecidableEq, Repr

/-- Why the machine stops with a fault. The block's own errors are no faults: they are recorded in STATUS (R186). -/
inductive Fault where
  /-- Raised by a DEC_SCAN step with CUR > W_LEN, a state for which R103 and R104 give no step and which no run
  reaches (R41). Safe (log 14). -/
  | scanPastEnd
  deriving DecidableEq, Repr

/-- Why the machine refuses to go on. -/
inductive Refusal where
  /-- Raised by `exec` for an instruction that has no meaning yet. Safe. -/
  | notModelled (mnemonic : String)
  /-- Raised by a host access that is not a 32-bit access at a word-aligned offset inside the window, which "has no meaning
  in this spec, and a model refuses it" (R38, R67, I7). Safe (log 12). -/
  | registerAccess (off : Nat) (size : AccessSize)
  deriving DecidableEq, Repr

/-- The working registers at reset (R210). -/
def Work.reset : Work where
  fsm      := .idle
  acc      := 0
  bits     := 0
  cnt      := 0
  cur      := 0
  padStart := false
  padReq   := false
  wIn      := 0
  wLen     := 0
  wOut     := 0
  wCap     := 0

/-- The argument registers at reset (R210). -/
def Args.reset : Args := ⟨0, 0, 0, 0⟩

/-- The result registers at reset and after CLEAR (R210, R161): STATUS and COUNT read 0. -/
def Result.cleared : Result := ⟨false, false, none, 0⟩

/-- No race, nothing stale, nothing drawn: DESIGN CHOICE (logs 7 to 11). -/
def Visibility.quiet : Visibility := ⟨[], [], [], [], [], 0⟩

/-- The machine right after reset (R210): every register at its reset value. The block is not stuck (R225). No memory is listed, the platform
admits everything, and no event is to come: DESIGN CHOICE (logs 1, 4, 5, 15). -/
def State.reset : State where
  work     := Work.reset
  args     := Args.reset
  result   := Result.cleared
  mem      := []
  denied   := []
  stuck    := false
  vis      := Visibility.quiet
  schedule := []
  replies  := []

end Sys2Proof.Machine
end

