-- ==== Sys2Proof/Machine/Operands.lean ====
section
/-! DEFINITION. The operand forms: the registers a host access names (10_state.md R30, R38), the latched arguments
(R28, 30_encoding.md R91), the effective addresses (20_memory.md R64) and the two buffers as regions (R74). -/

namespace Sys2Proof.Machine

/-- The register at a word-aligned offset of the window (R30, R38). -/
def regAt (off : Nat) : HostReg :=
  if off = 0x00 then .cmd
  else if off = 0x04 then .status
  else if off = 0x08 then .inAddr
  else if off = 0x0C then .inLen
  else if off = 0x10 then .outAddr
  else if off = 0x14 then .outCap
  else if off = 0x18 then .count
  else .reserved

/-- The register a host access reaches, if the access is one the spec gives a meaning: 32 bits wide, at a word-aligned
offset inside the window (R38, R67). -/
def accessedReg (off : Nat) (size : AccessSize) : Option HostReg :=
  if size = .word ∧ off % 4 = 0 ∧ off < Config.windowBytes then some (regAt off) else none

/-- The offset in this copy's window of a host address, if the window holds it (R30, R8 `REG_BASE`). -/
def windowOffset (hostAddr : Nat) : Option Nat :=
  if Config.regBase ≤ hostAddr ∧ hostAddr < Config.regBase + Config.windowBytes then some (hostAddr - Config.regBase) else none

/-- The address lies in the region, modulo 2^32 (R64). -/
def Region.contains (r : Region) (a : Addr) : Bool := decide ((a - r.base).toNat < r.size)

/-- The region less one address: what lies before it and what lies after it. An address space has 2^32 addresses (R64). -/
def Region.without (r : Region) (a : Addr) : List Region :=
  if r.contains a then
    [⟨r.base, (a - r.base).toNat⟩, ⟨a + 1#32, min r.size (2 ^ 32) - (a - r.base).toNat - 1⟩]
  else [r]

/-- The address of input byte `i` of the running command (R64). -/
def Work.inByte (w : Work) (i : Word) : Addr := w.wIn + i

/-- The address of output slot `j` of the running command (R64). -/
def Work.outSlot (w : Work) (j : Word) : Addr := w.wOut + j

/-- The input region `[W_IN, W_IN + W_LEN)` (R74). -/
def Work.inputRegion (w : Work) : Region := ⟨w.wIn, w.wLen.toNat⟩

/-- The output region `[W_OUT, W_OUT + W_CAP)` (R65, R74). -/
def Work.outputRegion (w : Work) : Region := ⟨w.wOut, w.wCap.toNat⟩

/-- The effective capacity of a DECODE: a non-positive `s32(OUT_CAP)` acts as 0 (R36, R101). -/
def decodeCapacity (cap : Word) : Word := if s32 cap ≤ 0 then 0#32 else cap

/-- The arguments latched, with the given effective capacity (R28). -/
def Work.latch (w : Work) (a : Args) (cap : Word) : Work :=
  { w with wIn := a.inAddr, wLen := a.inLen, wOut := a.outAddr, wCap := cap }

/-- The per-command registers initialised: ACC, BITS, CNT, CUR and PADSTART to 0 (R101, R131). -/
def Work.start (w : Work) : Work :=
  { w with acc := 0#13, bits := 0#4, cnt := 0#32, cur := 0#32, padStart := false }

/-- The top 5 of the valid bits of ACC, as an alphabet index (R139). -/
def Work.topSymbol (w : Work) : Symbol := (w.acc >>> (w.bits.toNat - 5)).setWidth 5

/-- The top 8 of the valid bits of ACC, as a data byte (R113). -/
def Work.topByte (w : Work) : Byte := (w.acc >>> (w.bits.toNat - 8)).setWidth 8

/-- A data byte shifted into ACC at the low end (R137): 8 more valid bits. -/
def Work.shiftInByte (w : Work) (c : Byte) : Work :=
  { w with acc := (w.acc <<< 8) ||| c.setWidth 13, bits := w.bits + 8#4 }

/-- An index shifted into ACC at the low end (R112): 5 more valid bits. -/
def Work.shiftInSymbol (w : Work) (v : Symbol) : Work :=
  { w with acc := (w.acc <<< 5) ||| v.setWidth 13, bits := w.bits + 5#4 }

/-- The final partial group filled with zero bits to 5 (R138). -/
def Work.zeroFill (w : Work) : Work :=
  { w with acc := w.acc <<< (5 - w.bits.toNat), bits := 5#4 }

end Sys2Proof.Machine
end

