-- ==== Sys2Proof/Machine/Flags.lean ====
section
/-! DEFINITION. The flags and conditions: STATUS (10_state.md R32, R40), the acceptance checks (41_encode.md R131), the
loop conditions and the completeness test (R136, R141, R142), and the padding counter (40_decode.md R106). -/

namespace Sys2Proof.Machine

/-- STATUS.BUSY, a view of FSM (R40). -/
def State.busy (s : State) : Bool := s.work.fsm != .idle

/-- The number of an error code (R180). -/
def ErrorCode.number : ErrorCode → BitVec 4
  | .invalidCharacter => 1#4
  | .invalidLength    => 2#4
  | .invalidCapacity  => 3#4
  | .bufferTooSmall   => 4#4
  | .illegalCommand   => 5#4

/-- The field STATUS.ERRCODE (R32, R180): 0 if there is no error. -/
def Result.errField (r : Result) : BitVec 4 :=
  match r.errCode with
  | none   => 0#4
  | some e => e.number

/-- The STATUS register as the host reads it (R32): bits [31:8] and [3] are hardwired 0. -/
def State.statusWord (s : State) : Word :=
  0#24 ++ s.result.errField ++ 0#1 ++ BitVec.ofBool s.result.err ++ BitVec.ofBool s.result.done ++ BitVec.ofBool s.busy

/-- The length ENCODE refuses: unsigned, at or above 2^28 (R131). -/
def lengthTooLong (len : Word) : Bool := decide (Config.encLenLimit ≤ len.toNat)

/-- The capacity ENCODE refuses: `s32(v) <= 0` (R131). -/
def capacityNotPositive (cap : Word) : Bool := decide (s32 cap ≤ 0)

/-- Unread input remains: `CUR < W_LEN`. -/
def Work.moreInput (w : Work) : Bool := decide (w.cur < w.wLen)

/-- Output capacity remains: `CNT < W_CAP`. -/
def Work.roomLeft (w : Work) : Bool := decide (w.cnt < w.wCap)

/-- The condition of the encoder's data loop (R136). -/
def Work.dataLoop (w : Work) : Bool := w.roomLeft && (decide (0#4 < w.bits) || w.moreInput)

/-- The text is a whole number of 8-character groups: `CNT mod 8 = 0`. -/
def Work.wholeGroup (w : Work) : Bool := decide (w.cnt.toNat % 8 = 0)

/-- The condition of the encoder's padding loop (R141). -/
def Work.padLoop (w : Work) : Bool := w.padReq && !w.wholeGroup && w.roomLeft

/-- The encoder's completeness test (R142). -/
def Work.complete (w : Work) : Bool := decide (w.bits = 0#4) && !w.moreInput && (!w.padReq || w.wholeGroup)

/-- 8 taken off BITS if it has reached 8 (R106, R114). -/
def dropByte (b : BitCount) : BitCount := if 8#4 ≤ b then b - 8#4 else b

/-- The `=` bookkeeping of the decoder (R106): BITS advances by 5 modulo 8, and PADSTART is set until BITS returns to 0. -/
def Work.padStep (w : Work) : Work :=
  { w with bits := dropByte (w.bits + 5#4), padStart := decide (dropByte (w.bits + 5#4) ≠ 0#4) }

end Sys2Proof.Machine
end

