-- ==== Sys2Proof/Machine/Ops.lean ====
section
/-! DEFINITION. The shared operations over memory and registers: the canonical memory, the master port (20_memory.md R60 to R69),
the host's memory accesses and their races (R73, R74), completion and error entry (60_exceptions.md R185, R186), and
reset (70_reset_and_hazards.md R210, R212). -/

namespace Sys2Proof.Machine

/-! ### Memory as a canonical list of cells -/

/-- The byte at an address: an unlisted one reads as `Config.unlistedByte` (log 4). -/
def Memory.read : List Host.Cell → Nat → Byte
  | [], _ => Config.unlistedByte
  | (k, v) :: rest, a => if a = k then v else Memory.read rest a

/-- A cell put before memory whose cells lie above it, left out if an unlisted address reads as the same byte. -/
def Memory.cons (a : Nat) (v : Byte) (rest : List Host.Cell) : List Host.Cell :=
  if v = Config.unlistedByte then rest else (a, v) :: rest

/-- One byte written, the canonical form kept. -/
def Memory.write : List Host.Cell → Nat → Byte → List Host.Cell
  | [], a, v => Memory.cons a v []
  | (k, w) :: rest, a, v =>
    if a < k then Memory.cons a v ((k, w) :: rest)
    else if a = k then Memory.cons a v rest
    else (k, w) :: Memory.write rest a v

/-- Every listed address is at least `lo`, addresses strictly rise and stay below 2^32, and no cell holds the unlisted byte. -/
def Memory.wfFrom : Nat → List Host.Cell → Bool
  | _, [] => true
  | lo, (k, v) :: rest => decide (lo ≤ k) && decide (k < 2 ^ 32) && decide (v ≠ Config.unlistedByte) && Memory.wfFrom (k + 1) rest

/-- The canonical form: equal memories are equal lists. -/
def Memory.wf (m : List Host.Cell) : Bool := Memory.wfFrom 0 m

/-- The byte memory holds at an address. -/
def State.byteAt (s : State) (a : Addr) : Byte := Memory.read s.mem a.toNat

/-- Memory with one byte changed. -/
def State.putByte (s : State) (a : Addr) (v : Byte) : State := { s with mem := Memory.write s.mem a.toNat v }

/-! ### Free values -/

/-- The values kept for one address. -/
def valuesAt {α : Type} (l : List (Addr × α)) (a : Addr) : List α :=
  (l.filter fun p => p.1 == a).map fun p => p.2

/-- What is kept for every other address. -/
def forget {α : Type} (l : List (Addr × α)) (a : Addr) : List (Addr × α) := l.filter fun p => p.1 != a

/-- One of several values, by the free choice `n` (R74). -/
def choose {α : Type} (first : α) (others : List α) (n : Nat) : α :=
  ((first :: others)[Config.raceChoice n % (others.length + 1)]?).getD first

/-- One more free value drawn (log 11). -/
def Visibility.drawn (v : Visibility) : Visibility := { v with draws := v.draws + 1 }

/-! ### The block's master port -/

/-- The platform admits the access (R69). -/
def State.admits (s : State) (k : AccessKind) (a : Addr) : Bool :=
  !(s.denied.any fun h => decide (h.kind = k) && h.region.contains a)

/-- `MemRead(a, 1)` by the block, if the platform admits it (R10, R69). A byte that the host wrote last, during the command,
reads as one of the racing values (R74 first bullet); any other as memory holds it (R72). DESIGN CHOICE, unsafe (log 22): memory is
passive, and the read changes no byte of it; R68 allows a read at an input address a side effect, and leaves that to the platform. -/
def State.blockRead (s : State) (a : Addr) : Option (Byte × State) :=
  if s.admits .read a then
    match valuesAt s.vis.racing a with
    | []      => some (s.byteAt a, s)
    | v :: vs => some (choose v vs s.vis.draws, { s with vis := s.vis.drawn })
  else none

/-- The abandoned regions less one address, which has been written since. -/
def dropAbandoned (l : List Region) (a : Addr) : List Region := l.flatMap fun r => r.without a

/-- What a block write leaves of the races: it is the latest write at the address (R72), and until the completion point a
host read may still see what it could see before (R73). -/
def Visibility.blockWrote (v : Visibility) (a : Addr) (old : StaleValue) : Visibility :=
  { v with racing := forget v.racing a, stale := (a, old) :: v.stale, abandoned := dropAbandoned v.abandoned a }

/-- The byte a host read may see at an address, before any newer write: any byte in an abandoned output region (R212, I5),
else what memory holds. -/
def State.seenAt (s : State) (a : Addr) : StaleValue :=
  if s.vis.abandoned.any fun r => r.contains a then .any else .value (s.byteAt a)

/-- The block's write of one byte. -/
def State.blockPut (s : State) (a : Addr) (v : Byte) : State :=
  { s.putByte a v with vis := s.vis.blockWrote a (s.seenAt a) }

/-- `MemWrite(a, 1, v)` by the block, if the platform admits it (R10, R69). -/
def State.blockWrite (s : State) (a : Addr) (v : Byte) : Option State :=
  if s.admits .write a then some (s.blockPut a v) else none

/-! ### The host's memory accesses -/

/-- A host write (R61, R74). During a command it races with the block's reads if it falls in the input region, and
leaves the byte unspecified after completion if it falls in the output region; there a host read may still see the byte before it. -/
def State.hostWrite (s : State) (a : Addr) (v : Byte) : State :=
  let inInput  := s.busy && s.work.inputRegion.contains a
  let inOutput := s.busy && s.work.outputRegion.contains a
  { s.putByte a v with
    vis := { s.vis with
      racing    := if inInput then (a, v) :: (a, s.byteAt a) :: s.vis.racing else s.vis.racing
      clobbered := if inOutput then a :: s.vis.clobbered else s.vis.clobbered
      stale     := if inOutput then (a, s.seenAt a) :: s.vis.stale else forget s.vis.stale a
      older     := if inOutput then s.vis.older else forget s.vis.older a
      abandoned := dropAbandoned s.vis.abandoned a } }

/-- The byte a stale value stands for: any byte is a fresh free value. -/
def StaleValue.byte : StaleValue → Nat → Byte
  | .value b, _ => b
  | .any, n     => Config.freeByte n

/-- What a host read may return beside what it may see now. Of an output byte during a command: the values the byte held earlier
in that command (R74 second bullet). Of any other byte, until the completion point: those of earlier commands too (R73). -/
def State.olderAt (s : State) (a : Addr) : List StaleValue :=
  if s.busy && s.work.outputRegion.contains a then valuesAt s.vis.stale a
  else valuesAt s.vis.stale a ++ valuesAt s.vis.older a

/-- What a host read of memory returns, and whether it drew a free value (R73, R74 second bullet, R212): what the host may see now, or
an older value it may still see. -/
def State.hostSees (s : State) (a : Addr) : Byte × Visibility :=
  match s.seenAt a, s.olderAt a with
  | .value b, [] => (b, s.vis)
  | now, older   => ((choose now older s.vis.draws).byte (s.vis.draws + 1), s.vis.drawn.drawn)

/-- A host read of one byte of memory, which changes no byte of it (log 22). -/
def State.hostRead (s : State) (a : Addr) : State :=
  { s with vis := (s.hostSees a).2, replies := .mem a (s.hostSees a).1 :: s.replies }

/-! ### Registers -/

/-- The value a host read of a register returns (R30 to R38). -/
def State.readReg (s : State) : HostReg → Word
  | .cmd      => 0#32
  | .status   => s.statusWord
  | .inAddr   => s.args.inAddr
  | .inLen    => s.args.inLen
  | .outAddr  => s.args.outAddr
  | .outCap   => s.args.outCap
  | .count    => s.result.count
  | .reserved => 0#32

/-- A host write to a register other than CMD (R163): an argument register takes the value; STATUS, COUNT and the reserved
offsets ignore it (R32, R37, R38). -/
def State.writeReg (s : State) : HostReg → Word → State
  | .cmd, _      => s
  | .status, _   => s
  | .inAddr, v   => { s with args := { s.args with inAddr := v } }
  | .inLen, v    => { s with args := { s.args with inLen := v } }
  | .outAddr, v  => { s with args := { s.args with outAddr := v } }
  | .outCap, v   => { s with args := { s.args with outCap := v } }
  | .count, _    => s
  | .reserved, _ => s

/-- The host has seen the completion: a STATUS read with BUSY = 0 and DONE = 1 makes the block's writes visible (R73, R219). -/
def State.seenDone (s : State) : State :=
  if !s.busy && s.result.done then { s with vis := { s.vis with stale := [], older := [] } } else s

/-- A host read of a register (R39). -/
def State.hostReadReg (s : State) (off : Nat) (r : HostReg) : State :=
  let t := if r = .status then s.seenDone else s
  { t with replies := .reg off (s.readReg r) :: t.replies }

/-! ### Sequencing, completion and error entry -/

/-- FSM moved. -/
def State.goto (s : State) (f : Fsm) : State := { s with work := { s.work with fsm := f } }

/-- The block becomes stuck: its next step needs an access the platform does not admit, and does not happen (R69; log 6). -/
def State.getStuck (s : State) : State := { s with stuck := true }

/-- `finish(count)` (R185). -/
def State.finish (s : State) (count : Word) : State :=
  { s with result := ⟨true, false, none, count⟩, work := { s.work with fsm := .idle } }

/-- `raise Error(code)` (R186): the one way an error ends a command. COUNT is CNT, but 0 for ILLEGAL_COMMAND (C10). -/
def State.raiseError (s : State) (code : ErrorCode) : State :=
  { s with
    result := ⟨true, true, some code, if code = .illegalCommand then 0#32 else s.work.cnt⟩
    work := { s.work with fsm := .idle } }

/-- STATUS.DONE, ERR, ERRCODE and COUNT cleared (R101, R131, R161). -/
def State.clearResult (s : State) : State := { s with result := Result.cleared }

/-- A new command starts with no race, and no byte has held a value during it but the one it holds (R74 speaks of one command): what
the host may still see of earlier commands is kept apart. -/
def State.clearRaces (s : State) : State :=
  { s with vis := { s.vis with racing := [], clobbered := [], stale := [], older := s.vis.stale ++ s.vis.older } }

/-- The bytes the host clobbered become unspecified (R74 third bullet): each a fresh free byte. -/
def clobber (m : List Host.Cell) : List Addr → Nat → List Host.Cell
  | [], _        => m
  | a :: rest, n => clobber (Memory.write m a.toNat (Config.freeByte n)) rest (n + 1)

/-- What the end of a command leaves of its races (R74). -/
def State.settleRaces (s : State) : State :=
  { s with
    mem := clobber s.mem s.vis.clobbered s.vis.draws
    vis := { s.vis with racing := [], clobbered := [], draws := s.vis.draws + s.vis.clobbered.length } }

/-- A command that may start only while idle; a CMD write while busy is ignored (R160, R164). -/
def whenIdle (f : State → State) (s : State) : Host.Outcome State Fault Refusal :=
  .next (if s.busy then s else f s)

/-! ### Reset -/

/-- The platform's reset (R210): every register of the block at its reset value, memory untouched. A running command
is abandoned, and its output region is unspecified for the host (R212). A stuck block recovers (R225). -/
def State.platformReset (s : State) : State :=
  { s with
    work := Work.reset
    args := Args.reset
    result := Result.cleared
    stuck := false
    vis := { s.vis with
      racing := []
      clobbered := []
      abandoned := if s.busy then s.work.outputRegion :: s.vis.abandoned else s.vis.abandoned } }

end Sys2Proof.Machine
end

