-- ==== Sys2Proof/Machine/Decoder.lean ====
section
/-! DEFINITION. DECODE (40_decode.md): acceptance (R101) and the steps DEC_SCAN and DEC_FIN (R103 to R115). A step is `none` if the
platform does not admit one of its accesses (R69). -/

namespace Sys2Proof.Machine

/-- DECODE acceptance (R101). -/
def State.acceptDecode (s : State) : State :=
  { s.clearResult.clearRaces with
    work := { (s.work.latch s.args (decodeCapacity s.args.outCap)).start with fsm := .decScan } }

/-- `dec` (R102), ignored while busy (R164). The block's steps follow (R103 to R115). -/
def execDec (s : State) : Host.Outcome State Fault Refusal := whenIdle State.acceptDecode s

/-- A data byte emitted if 8 bits are there and capacity remains (R113), and its bits consumed whether or not it was (R114). -/
def decEmit (s : State) : Option State :=
  if 8#4 ≤ s.work.bits then
    if s.work.roomLeft then
      (s.blockWrite (s.work.outSlot s.work.cnt) s.work.topByte).map fun t =>
        { t with work := { t.work with cnt := t.work.cnt + 1#32, bits := t.work.bits - 8#4 } }
    else some { s with work := { s.work with bits := s.work.bits - 8#4 } }
  else some s

/-- A byte that is no `=` and no separator, outside a padding run (R109 to R114). -/
def decSymbol (s : State) (c : Byte) : Option State :=
  match lookup (typo c) with
  | none   => some (s.raiseError .invalidCharacter)
  | some v => decEmit { s with work := s.work.shiftInSymbol v }

/-- The byte just read, in the fixed dispatch order of R105 (R106, R107, R108, R109). -/
def decByte (s : State) (c : Byte) : Option State :=
  if c = padByte then some { s with work := s.work.padStep }
  else if s.work.padStart then some (s.raiseError .invalidCharacter)
  else if isSeparator c then some s
  else decSymbol s c

/-- DEC_SCAN (R103, R104). -/
def decScan (s : State) : Option State :=
  if s.work.moreInput then
    (s.blockRead (s.work.inByte s.work.cur)).bind fun (c, t) =>
      decByte { t with work := { t.work with cur := t.work.cur + 1#32 } } c
  else some (s.goto .decFin)

/-- DEC_FIN (R115). -/
def decFin (s : State) : Option State :=
  if s.work.roomLeft then
    (s.blockWrite (s.work.outSlot s.work.cnt) nul).map fun t => t.finish t.work.cnt
  else some (s.finish s.work.cnt)

end Sys2Proof.Machine
end

