-- ==== Sys2Proof/Machine/Encoder.lean ====
section
/-! DEFINITION. ENCODE (41_encode.md): acceptance (R131) and the steps ENC_INIT, ENC_DATA, ENC_PAD and ENC_FIN (R134 to R142). A step
is `none` if the platform does not admit one of its accesses (R69). -/

namespace Sys2Proof.Machine

/-- The registers at ENCODE acceptance, before the checks (R131). -/
def State.encodeLatch (pad : Bool) (s : State) : State :=
  { s.clearResult.clearRaces with work := { (s.work.latch s.args s.args.outCap).start with padReq := pad } }

/-- The acceptance checks in order, then the first state (R131). -/
def State.encodeStart (s : State) : State :=
  if lengthTooLong s.work.wLen then s.raiseError .invalidLength
  else if capacityNotPositive s.work.wCap then s.raiseError .invalidCapacity
  else s.goto (if s.work.wLen = 0#32 then .encData else .encInit)

/-- ENCODE acceptance (R131). -/
def State.acceptEncode (pad : Bool) (s : State) : State := (s.encodeLatch pad).encodeStart

/-- `enc` (R132), ignored while busy (R164). The block's steps follow (R134 to R142). -/
def execEnc (s : State) : Host.Outcome State Fault Refusal := whenIdle (State.acceptEncode false) s

/-- `enc.pad` (R133), ignored while busy (R164). The block's steps follow (R134 to R142). -/
def execEncPad (s : State) : Host.Outcome State Fault Refusal := whenIdle (State.acceptEncode true) s

/-- ENC_INIT (R134). -/
def encInit (s : State) : Option State :=
  (s.blockRead (s.work.inByte 0#32)).map fun (c, t) =>
    { t with work := { t.work with acc := c.setWidth 13, bits := 8#4, cur := 1#32, fsm := .encData } }

/-- At least 5 valid bits for the next character: a refill (R137), the zero-fill of the final group (R138), or nothing. -/
def encRefill (s : State) : Option State :=
  if 5#4 ≤ s.work.bits then some s
  else if s.work.moreInput then
    (s.blockRead (s.work.inByte s.work.cur)).map fun (c, t) =>
      { t with work := { t.work.shiftInByte c with cur := t.work.cur + 1#32 } }
  else some { s with work := s.work.zeroFill }

/-- One character emitted (R139, R140). -/
def encEmit (s : State) : Option State :=
  (s.blockWrite (s.work.outSlot s.work.cnt) (alphabet s.work.topSymbol)).map fun t =>
    { t with work := { t.work with cnt := t.work.cnt + 1#32, bits := t.work.bits - 5#4 } }

/-- ENC_DATA (R136): one iteration of the data loop, or the step that leaves it. -/
def encData (s : State) : Option State :=
  if s.work.dataLoop then (encRefill s).bind encEmit else some (s.goto .encPad)

/-- ENC_PAD (R141). -/
def encPad (s : State) : Option State :=
  if s.work.padLoop then
    (s.blockWrite (s.work.outSlot s.work.cnt) padByte).map fun t =>
      { t with work := { t.work with cnt := t.work.cnt + 1#32 } }
  else some (s.goto .encFin)

/-- ENC_FIN (R142). -/
def encFin (s : State) : Option State :=
  if s.work.complete && s.work.roomLeft then
    (s.blockWrite (s.work.outSlot s.work.cnt) nul).map fun t => t.finish t.work.cnt
  else
    (s.blockWrite (s.work.outSlot (s.work.wCap - 1#32)) nul).map fun t => t.raiseError .bufferTooSmall

end Sys2Proof.Machine
end

