-- ==== Sys2Proof/Machine/Block.lean ====
section
/-! DEFINITION. The block's own step, chosen by FSM (10_state.md R22, 70_reset_and_hazards.md R214). -/

namespace Sys2Proof.Machine

/-- The step FSM chooses (R22). It is `none` if the platform does not admit one of its accesses: then the block has no
step (R69). An idle block has no step either, and nothing changes (R202; log 3). -/
def blockRule (s : State) : Option State :=
  match s.work.fsm with
  | .idle    => some s
  | .encInit => encInit s
  | .encData => encData s
  | .encPad  => encPad s
  | .encFin  => encFin s
  | .decScan => decScan s
  | .decFin  => decFin s

/-- After a block step: a command that has ended leaves its races settled (R74 third bullet). -/
def State.afterStep (s : State) : State := if s.busy then s else s.settleRaces

/-- The block's turn (R214). A block whose step needs an access that is not admitted has no step and is stuck from then on,
whatever the host writes to memory meanwhile (R69, R166, R225; log 3). -/
def blockStep (s : State) : Host.Outcome State Fault Refusal :=
  if s.work.fsm = .idle ∨ s.stuck = true then .next s
  else if s.work.fsm = .decScan ∧ s.work.wLen < s.work.cur then .fault .scanPastEnd
  else .next (match blockRule s with
    | none   => s.getStuck
    | some t => t.afterStep)

end Sys2Proof.Machine
end

