-- ==== Sys2Proof/Machine/Control.lean ====
section
/-! DEFINITION. The control commands: CLEAR and the illegal command word (42_control.md R161, R162). -/

namespace Sys2Proof.Machine

/-- CLEAR (R161), ignored while busy (R164). -/
def execClr (s : State) : Host.Outcome State Fault Refusal := whenIdle State.clearResult s

/-- A CMD write of an illegal word (R162, R187), ignored while busy (R164). -/
def illegalCommand (s : State) : Host.Outcome State Fault Refusal := whenIdle (fun s => s.raiseError .illegalCommand) s

end Sys2Proof.Machine
end

