-- ==== Sys2Proof/Machine/Dispatch.lean ====
section
/-! DEFINITION. The dispatch of a command: one arm per constructor of Instr (42_control.md R160). -/

namespace Sys2Proof.Machine

def exec (i : Instr) (s : State) : Host.Outcome State Fault Refusal :=
  match i with
  | .clr => Sys2Proof.Machine.execClr s
  | .enc => Sys2Proof.Machine.execEnc s
  | .encPad => Sys2Proof.Machine.execEncPad s
  | .dec => Sys2Proof.Machine.execDec s

end Sys2Proof.Machine
end

