-- ==== Sys2Proof/Machine/Bus.lean ====
section
/-! DEFINITION. The moves of every agent: the host's register and memory accesses (42_control.md R160 to R164, 10_state.md R39), its
polling loop (30_encoding.md R93), the platform's reset, and the block's turn (70_reset_and_hazards.md R214). -/

namespace Sys2Proof.Machine

/-- A host write of a word to CMD (R160): the command it encodes, or the illegal command (R162). -/
def commandWrite (w : Word) (s : State) : Host.Outcome State Fault Refusal :=
  match decode w with
  | .ok i    => exec i s
  | .error _ => illegalCommand s

/-- A host write to the register window (R31, R163); an access with no meaning is refused (R67). -/
def hostRegWrite (off : Nat) (size : AccessSize) (v : Word) (s : State) : Host.Outcome State Fault Refusal :=
  match accessedReg off size with
  | none      => .refused (.registerAccess off size)
  | some .cmd => commandWrite v s
  | some r    => .next (s.writeReg r v)

/-- A host read of the register window (R39, R163); an access with no meaning is refused (R67). -/
def hostRegRead (off : Nat) (size : AccessSize) (s : State) : Host.Outcome State Fault Refusal :=
  match accessedReg off size with
  | none   => .refused (.registerAccess off size)
  | some r => .next (s.hostReadReg off r)

/-- The host's `wait` (R93): read STATUS, and read it again while BUSY = 1, the block taking a turn between two reads (log 18). -/
def hostWait (s : State) : State :=
  let t := s.hostReadReg 0x04 .status
  if s.busy then { t with schedule := .block :: .wait :: t.schedule } else t

/-- One move of one agent (R12, R214). -/
def eventStep (e : Event) (s : State) : Host.Outcome State Fault Refusal :=
  match e with
  | .block               => blockStep s
  | .regWrite off size v => hostRegWrite off size v s
  | .regRead off size    => hostRegRead off size s
  | .wait                => .next (hostWait s)
  | .memWrite a v        => .next (s.hostWrite a v)
  | .memRead a           => .next (s.hostRead a)
  | .reset               => .next s.platformReset

end Sys2Proof.Machine
end

