-- ==== Sys2Proof/Machine/Step.lean ====
section
/-! DEFINITION. One step of the machine: the next event of the interleaving, or the block's turn when none is left (70_reset_and_hazards.md
R214, R215; log 1). -/

namespace Sys2Proof.Machine

def step (s : State) : Host.Outcome State Fault Refusal :=
  match s.schedule with
  | []        => blockStep s
  | e :: rest => eventStep e { s with schedule := rest }

/-- The command word `w` placed where the next step takes it: a host write to CMD as the next event (R31, R78; log 2). -/
def State.withFetchWord (s : State) (nbits w : Nat) : State :=
  { s with schedule := .regWrite 0x00 .word (BitVec.ofNat 32 (w % 2 ^ nbits)) :: s.schedule }

end Sys2Proof.Machine
end

