-- ==== Sys2Proof/Machine/Assembly.lean ====
section
/-! DEFINITION. The host's assembly syntax and its pseudo-instructions as the events they stand for (30_encoding.md R92, R93). -/

namespace Sys2Proof.Machine.Assembly

/-- The offset of a register in the window (R30); 0x1C is the first reserved one (R38). -/
def offset : HostReg → Nat
  | .cmd      => 0x00
  | .status   => 0x04
  | .inAddr   => 0x08
  | .inLen    => 0x0C
  | .outAddr  => 0x10
  | .outCap   => 0x14
  | .count    => 0x18
  | .reserved => 0x1C

/-- `wr <REG>, <imm32>` (R92). -/
def wr (r : HostReg) (v : Word) : Event := .regWrite (offset r) .word v

/-- `rd <REG>` (R92). -/
def rd (r : HostReg) : Event := .regRead (offset r) .word

/-- `clr`, `enc`, `enc.pad` and `dec` as CMD writes (R93). -/
def command (i : Instr) : Event := wr .cmd (encode i)

/-- `args <in>, <len>, <out>, <cap>` (R93). -/
def args (inAddr inLen outAddr outCap : Word) : List Event :=
  [wr .inAddr inAddr, wr .inLen inLen, wr .outAddr outAddr, wr .outCap outCap]

/-- `encode[.pad] <in>, <len>, <out>, <cap>` (R93). -/
def encodeRun (pad : Bool) (inAddr inLen outAddr outCap : Word) : List Event :=
  args inAddr inLen outAddr outCap ++ [command (if pad then .encPad else .enc), .wait]

/-- `decode <in>, <len>, <out>, <cap>` (R93). -/
def decodeRun (inAddr inLen outAddr outCap : Word) : List Event :=
  args inAddr inLen outAddr outCap ++ [command .dec, .wait]

end Sys2Proof.Machine.Assembly
end

