-- ==== Sys2Proof/Safety.lean ====
section
/-! DEFINITION. The terms claims use: the invariant of every state a run reaches, regions apart, and what ENCODE and DECODE compute as
functions of whole buffers (41_encode.md R144, 40_decode.md R120), bit by bit (20_memory.md R63). -/

namespace Sys2Proof.Machine

/-! ### The invariant -/

/-- The bounds of a running ENCODE's latched arguments, which acceptance has checked (R131). -/
def Work.encodeArgs (w : Work) : Bool :=
  decide (w.wLen.toNat < Config.encLenLimit) && decide (0 < w.wCap.toNat) && decide (w.wCap.toNat < 2 ^ 31)

/-- BITS, CNT and CUR stay in the ranges of R23, R24 and R41 while a command runs, and PADSTART only with BITS other than 0 (R106). -/
def Work.inv (w : Work) : Bool :=
  match w.fsm with
  | .idle    => true
  | .encInit => w.encodeArgs && decide (w.bits = 0#4) && decide (w.cnt = 0#32) && decide (w.cur = 0#32) && decide (0 < w.wLen.toNat)
  | .encData => w.encodeArgs && decide (w.bits.toNat ≤ 8) && decide (w.cnt ≤ w.wCap) && decide (w.cur ≤ w.wLen)
  | .encPad  => w.encodeArgs && decide (w.bits.toNat ≤ 8) && decide (w.cnt ≤ w.wCap) && decide (w.cur ≤ w.wLen)
  | .encFin  => w.encodeArgs && decide (w.bits.toNat ≤ 8) && decide (w.cnt ≤ w.wCap) && decide (w.cur ≤ w.wLen)
  | .decScan => decide (w.wCap.toNat < 2 ^ 31) && decide (w.bits.toNat ≤ 7) && decide (w.cnt ≤ w.wCap) && decide (w.cur ≤ w.wLen)
      && (!w.padStart || decide (w.bits ≠ 0#4))
  | .decFin  => decide (w.wCap.toNat < 2 ^ 31) && decide (w.bits.toNat ≤ 7) && decide (w.cnt ≤ w.wCap) && decide (w.cur = w.wLen)

/-- ERR holds exactly with an error code, and only when DONE does; without DONE nothing is recorded (R32, R203). -/
def Result.inv (r : Result) : Bool :=
  if r.done then r.err == r.errCode.isSome else decide (r = Result.cleared)

/-- While a command runs STATUS reads BUSY alone and COUNT reads 0 (R32, R37), and races concern its own buffers; while none
runs there is no race (R74) and the block is not stuck (R69). -/
def State.invRun (s : State) : Bool :=
  if s.busy then
    !s.result.done && s.vis.racing.all (fun p => s.work.inputRegion.contains p.1) && s.vis.clobbered.all s.work.outputRegion.contains
  else s.vis.racing.isEmpty && s.vis.clobbered.isEmpty && !s.stuck

/-- The invariant of every state a run reaches. -/
abbrev State.Inv (s : State) : Prop :=
  Memory.wf s.mem = true ∧ s.work.inv = true ∧ s.result.inv = true ∧ s.invRun = true

/-! ### Buffers -/

/-- `n` bytes of memory from `base` on (R64). -/
def State.bytesFrom (s : State) (base : Addr) (n : Nat) : List Byte :=
  (List.range n).map fun i => s.byteAt (base + BitVec.ofNat 32 i)

/-- No address lies in both regions. -/
abbrev Region.apart (r q : Region) : Prop := ∀ a : Addr, ¬ (r.contains a = true ∧ q.contains a = true)

/-- The host's input and output buffers, as the argument registers name them, do not overlap (R224). -/
abbrev Args.buffersApart (g : Args) (cap : Nat) : Prop := Region.apart ⟨g.inAddr, g.inLen.toNat⟩ ⟨g.outAddr, cap⟩

/-! ### What ENCODE and DECODE compute -/

/-- Bit `k` of the bit stream of data bytes: bit 7 of byte 0 comes first (R63). Past the end it is 0, the zero-fill of R138. -/
def streamBit (d : List Byte) (k : Nat) : Bool := (d.getD (k / 8) 0#8).getMsbD (k % 8)

/-- The `j`-th 5-bit group of the stream, its first bit uppermost (R63, R139). -/
def textSymbol (d : List Byte) (j : Nat) : Symbol :=
  BitVec.ofBoolListBE [streamBit d (5 * j), streamBit d (5 * j + 1), streamBit d (5 * j + 2), streamBit d (5 * j + 3), streamBit d (5 * j + 4)]

/-- `ceil(8n/5)`, the characters of `n` data bytes (R144). -/
def textLength (n : Nat) : Nat := (8 * n + 4) / 5

/-- The text of `enc` (R132, R144). -/
def encText (d : List Byte) : List Byte := (List.range (textLength d.length)).map fun j => alphabet (textSymbol d j)

/-- The number of `=` that `enc.pad` appends to `n` characters (R141, R144). -/
def padCount (n : Nat) : Nat := (8 - n % 8) % 8

/-- The text of `enc` or `enc.pad` (R132, R133, R135). -/
def fullText (pad : Bool) (d : List Byte) : List Byte :=
  if pad then encText d ++ List.replicate (padCount (encText d).length) padByte else encText d

/-- Bit `k` of the bit stream of alphabet indices (R63, R112). -/
def symbolBit (vs : List Symbol) (k : Nat) : Bool := (vs.getD (k / 5) 0#5).getMsbD (k % 5)

/-- The `j`-th byte of the stream of indices, its first bit uppermost (R63, R113). -/
def decodedByte (vs : List Symbol) (j : Nat) : Byte :=
  BitVec.ofBoolListBE [symbolBit vs (8 * j), symbolBit vs (8 * j + 1), symbolBit vs (8 * j + 2), symbolBit vs (8 * j + 3),
    symbolBit vs (8 * j + 4), symbolBit vs (8 * j + 5), symbolBit vs (8 * j + 6), symbolBit vs (8 * j + 7)]

/-- The bytes that indices decode to: `floor(5S/8)` of them (R120), the bits left over dropped (R118). -/
def decodedBytes (vs : List Symbol) : List Byte := (List.range (5 * vs.length / 8)).map (decodedByte vs)

/-- The alphabet indices of a text's characters that have one, after typo correction (R109, R110). -/
def symbolsOf (text : List Byte) : List Symbol :=
  text.filterMap fun c => match classify c with
    | .sym v => some v
    | _      => none

/-- A text of symbols and separators only (R86). -/
def plainText (text : List Byte) : Bool :=
  text.all fun c => match classify c with
    | .sym _ => true
    | .sep   => true
    | _      => false

/-- A piece of a text: symbols and separators, then a run of `=` (R106, R119). -/
structure TextPiece where
  body : List Byte
  pads : Nat
  deriving DecidableEq, Repr

def TextPiece.text (p : TextPiece) : List Byte := p.body ++ List.replicate p.pads padByte

/-- The bytes a piece decodes to; the bits left over are dropped (R118) or, if more data follows, never read (R119). -/
def TextPiece.bytes (p : TextPiece) : List Byte := decodedBytes (symbolsOf p.body)

/-- After the piece BITS is 0 again, so that more data may follow: each symbol and each `=` adds 5 modulo 8 (R106, R119). -/
def TextPiece.whole (p : TextPiece) : Bool := plainText p.body && decide (((symbolsOf p.body).length + p.pads) % 8 = 0)

/-! ### Outcomes -/

/-- What a block turn leaves alone: the argument registers, the latched arguments, the platform, whether the block is
stuck, the interleaving and the host's record. -/
abbrev KeepsTheRest (s t : State) : Prop :=
  t.args = s.args ∧ t.denied = s.denied ∧ t.stuck = s.stuck ∧ t.schedule = s.schedule ∧ t.replies = s.replies

/-- Memory reads as before everywhere but at one address, which reads as `v`. A byte the host clobbered is left out of
what is said (R74 third bullet): it may have become unspecified. -/
abbrev WritesOneByte (s t : State) (a : Addr) (v : Byte) : Prop :=
  (a ∉ s.vis.clobbered → t.byteAt a = v) ∧ ∀ b : Addr, b ≠ a → b ∉ s.vis.clobbered → t.byteAt b = s.byteAt b

/-- Memory reads as before everywhere, but for bytes the host clobbered (R74 third bullet). -/
abbrev WritesNothing (s t : State) : Prop := ∀ b : Addr, b ∉ s.vis.clobbered → t.byteAt b = s.byteAt b

/-- The platform admits the block's read, and the host did not race for the byte: the read returns the byte of memory (R69, R72). -/
abbrev State.readsPlainly (s : State) (a : Addr) : Prop := s.admits .read a = true ∧ valuesAt s.vis.racing a = []

/-- The state an outcome goes on with, if it does. -/
def outcomeState : Host.Outcome State Fault Refusal → Option State
  | .next s    => some s
  | .fault _   => none
  | .refused _ => none

/-- The command that started at `a` ends in exactly `k` block turns, in state `t`: it is busy before each of them, and
not after the last (R226). -/
def EndsIn (a : State) (k : Nat) (t : State) : Prop :=
  core.run k a = .next t ∧ t.busy = false ∧ ∀ j, j < k → ∃ u, core.run j a = .next u ∧ u.busy = true

end Sys2Proof.Machine
end

