-- ==== Sys2Proof/Certificates/Slice0/Obligations.lean ====
section
/-! DEFINITION. The statements for the provers, from the numbered rules of the spec. -/

open Sys2Proof Sys2Proof.Machine

/-! ### Command words -/

/-- R90: the four legal words, every other word illegal for one of three reasons, and what an illegal word does while idle. -/
def Obligations.LegalWordsAreTheFourEncodings : Prop :=
  (encode .clr = 0x00000000#32 ∧ encode .enc = 0x00000001#32 ∧ encode .encPad = 0x00000005#32 ∧ encode .dec = 0x00000002#32) ∧
  (∀ (w : Word) (i : Instr), decode w = .ok i ↔ w = encode i) ∧
  (∀ w : Word, (∃ e, decode w = .error e) ↔
    (w.extractLsb' 0 2 = 0b11#2 ∨ (w.extractLsb' 2 1 = 1#1 ∧ w.extractLsb' 0 2 ≠ 0b01#2) ∨ w.extractLsb' 3 29 ≠ 0#29)) ∧
  (∀ (w : Word) (e : DecodeError) (s : State), decode w = .error e → s.busy = false →
    commandWrite w s = .next { s with result := ⟨true, true, some .illegalCommand, 0#32⟩ })

/-- The words of 95_test_vectors.md section 5 and the four legal words, decoded. -/
def Obligations.SampleWordsDecode : Prop :=
  decode 0x00000000#32 = .ok .clr ∧ decode 0x00000001#32 = .ok .enc ∧ decode 0x00000005#32 = .ok .encPad ∧
  decode 0x00000002#32 = .ok .dec ∧ decode 0x00000006#32 = .error .padWithoutEncode ∧ decode 0x00000003#32 = .error .reservedOp ∧
  decode 0x00000004#32 = .error .padWithoutEncode ∧ decode 0x00000007#32 = .error .reservedOp ∧
  decode 0x00000008#32 = .error .reservedBits ∧ decode 0x80000001#32 = .error .reservedBits ∧
  decode 0xFFFFFFFF#32 = .error .reservedBits

/-! ### The step -/

/-- Every event of the interleaving is the move of the agent it names: `eventStep` of that event, on the state past it (R214). A host
write of a legal command word to CMD runs that command (R160), the event `block` is the block's turn, and with no event left the
block takes its turn. That the order of events stands in the field `schedule`, and that the block moves when none is left, are the
model's choices (log 1, log 2). -/
def Obligations.StepRunsTheDecodedCommand : Prop :=
  ∀ s : State,
    (∀ (e : Event) (rest : List Event), s.schedule = e :: rest → step s = eventStep e { s with schedule := rest }) ∧
    (∀ (w : Word) (i : Instr) (rest : List Event), s.schedule = .regWrite 0x00 .word w :: rest → decode w = .ok i →
      step s = exec i { s with schedule := rest }) ∧
    (∀ rest : List Event, s.schedule = .block :: rest → step s = blockStep { s with schedule := rest }) ∧
    (s.schedule = [] → step s = blockStep s)

/-- The word the host's interface places is the next command (log 2). -/
def Obligations.FetchedWordIsTheNextCommand : Prop :=
  ∀ (s : State) (i : Instr), step (s.withFetchWord 32 (encode i).toNat) = exec i s

/-- R164: a CMD write while busy changes nothing, whatever the word. -/
def Obligations.CommandWriteWhileBusyIsIgnored : Prop :=
  ∀ (s : State) (w : Word) (rest : List Event), s.busy = true → s.schedule = .regWrite 0x00 .word w :: rest →
    step s = .next { s with schedule := rest }

/-- R162, R187: an illegal word written while idle completes at once with ILLEGAL_COMMAND and COUNT = 0. -/
def Obligations.IllegalWordRecordsIllegalCommand : Prop :=
  ∀ (s : State) (w : Word) (rest : List Event), s.busy = false → s.schedule = .regWrite 0x00 .word w :: rest →
    (∀ i : Instr, w ≠ encode i) →
    ∃ t : State, step s = .next t ∧ t.statusWord = 0x00000056#32 ∧ t.result.count = 0#32 ∧
      t = { s with schedule := rest, result := ⟨true, true, some .illegalCommand, 0#32⟩ }

/-! ### Acceptance -/

/-- R161: CLEAR clears DONE, ERR, ERRCODE and COUNT, and changes nothing else. -/
def Obligations.ClearClearsTheResultAlone : Prop :=
  encode .clr = 0x00000000#32 ∧
  (∀ s : State, s.busy = false →
    exec .clr s = .next { s with result := ⟨false, false, none, 0#32⟩ } ∧
    ({ s with result := ⟨false, false, none, 0#32⟩ } : State).statusWord = 0x00000000#32) ∧
  (∀ s : State, s.busy = true → exec .clr s = .next s)

/-- R131, for `enc` and `enc.pad`: the arguments latched, the working registers initialised, STATUS and COUNT cleared; then
INVALID_LENGTH, or INVALID_CAPACITY, or the first state, which the length chooses. That no race of an earlier command is carried into this one (the empty lists
`racing` and `clobbered`), and that what the host may still see of earlier commands moves from `stale` to `older`, is the model's choice, not
the rule's (log 7, log 8, log 9). -/
def Obligations.EncodeAcceptanceLatchesChecksAndStarts : Prop :=
  encode .enc = 0x00000001#32 ∧ encode .encPad = 0x00000005#32 ∧
  ∀ (s : State) (pad : Bool), s.busy = false →
    let accepted (fsm : Fsm) (result : Result) : State := { s with
      work := {
        fsm := fsm
        acc := 0#13
        bits := 0#4
        cnt := 0#32
        cur := 0#32
        padStart := false
        padReq := pad
        wIn := s.args.inAddr
        wLen := s.args.inLen
        wOut := s.args.outAddr
        wCap := s.args.outCap }
      result := result
      vis := { s.vis with racing := [], clobbered := [], stale := [], older := s.vis.stale ++ s.vis.older } }
    exec (if pad then .encPad else .enc) s = .next (
      if 2 ^ 28 ≤ s.args.inLen.toNat then accepted .idle ⟨true, true, some .invalidLength, 0#32⟩
      else if s32 s.args.outCap ≤ 0 then accepted .idle ⟨true, true, some .invalidCapacity, 0#32⟩
      else if 0 < s.args.inLen.toNat then accepted .encInit ⟨false, false, none, 0#32⟩
      else accepted .encData ⟨false, false, none, 0#32⟩)

/-- The checks of R131 as the host sees them, with the priority of R188: a length of 2^28 or more is INVALID_LENGTH, else a non-positive
capacity is INVALID_CAPACITY; COUNT is 0, FSM stays IDLE, and no byte of memory changes (R182, R183). -/
def Obligations.EncodePreconditionErrors : Prop :=
  ∀ (s : State) (pad : Bool), s.busy = false → (2 ^ 28 ≤ s.args.inLen.toNat ∨ s32 s.args.outCap ≤ 0) →
    ∃ t : State, exec (if pad then .encPad else .enc) s = .next t ∧ t.busy = false ∧ t.result.count = 0#32 ∧
      t.mem = s.mem ∧ t.args = s.args ∧
      (2 ^ 28 ≤ s.args.inLen.toNat → t.statusWord = 0x00000026#32) ∧
      (s.args.inLen.toNat < 2 ^ 28 → t.statusWord = 0x00000036#32)

/-- R101: `dec` latches, initialises and starts scanning; a non-positive capacity acts as 0, and no length or capacity
is refused. That no race of an earlier command is carried into this one (the empty lists `racing` and `clobbered`), and that what the host may
still see of earlier commands moves from `stale` to `older`, is the model's choice, not the rule's (log 7, log 8, log 9). -/
def Obligations.DecodeAcceptanceLatchesAndStarts : Prop :=
  encode .dec = 0x00000002#32 ∧
  ∀ s : State, s.busy = false →
    exec .dec s = .next { s with
      work := {
        fsm := .decScan
        acc := 0#13
        bits := 0#4
        cnt := 0#32
        cur := 0#32
        padStart := false
        padReq := s.work.padReq
        wIn := s.args.inAddr
        wLen := s.args.inLen
        wOut := s.args.outAddr
        wCap := if s32 s.args.outCap ≤ 0 then 0#32 else s.args.outCap }
      result := ⟨false, false, none, 0#32⟩
      vis := { s.vis with racing := [], clobbered := [], stale := [], older := s.vis.stale ++ s.vis.older } }

/-- The frame of every command's acceptance: the argument registers, every byte of memory, what the platform admits (log 5) and whether the block is
stuck stay; CLEAR also leaves the working registers, `dec` leaves PADREQ, and a command written while busy leaves everything (R164). The
clauses on the model's own bookkeeping are the model's choice, no rule of the spec: the events to come (log 1) and the host's record (log 15)
stay; the recorded values of earlier writes, the lists `stale` and `older` taken together, lose and gain no entry (log 9); the abandoned
regions stay (log 10); no free value is drawn (log 11); and CLEAR leaves all of `vis`. This is of the record, not of what a
host read returns: the acceptance of `enc`, `enc.pad` or `dec` moves entries from `stale` to `older`, and those `olderAt` does not offer in the
output region of the running command (R74 second bullet; log 9). -/
def Obligations.AcceptanceFrame : Prop :=
  ∀ (i : Instr) (s t : State), exec i s = .next t →
    t.args = s.args ∧ (∀ a : Addr, t.byteAt a = s.byteAt a) ∧ t.mem = s.mem ∧ t.denied = s.denied ∧ t.stuck = s.stuck ∧
    t.schedule = s.schedule ∧ t.replies = s.replies ∧ t.vis.stale ++ t.vis.older = s.vis.stale ++ s.vis.older ∧
    t.vis.abandoned = s.vis.abandoned ∧ t.vis.draws = s.vis.draws ∧
    (i = .clr → t.work = s.work ∧ t.vis = s.vis) ∧ (i = .dec → t.work.padReq = s.work.padReq) ∧ (s.busy = true → t = s)

/-! ### The encoder's steps -/

/-- R134: ENC_INIT loads the first input byte. -/
def Obligations.EncInitLoadsTheFirstByte : Prop :=
  ∀ s : State, s.work.fsm = .encInit → s.stuck = false → s.readsPlainly s.work.wIn →
    blockStep s = .next { s with work := { s.work with
      acc := (s.byteAt s.work.wIn).setWidth 13, bits := 8#4, cur := 1#32, fsm := .encData } }

/-- The leaving half of R136: with no capacity left, or no bits and no input left, ENC_DATA moves to ENC_PAD and does nothing else. -/
def Obligations.EncDataLeavesTheLoop : Prop :=
  ∀ s : State, s.work.fsm = .encData → s.stuck = false →
    ¬ (s.work.cnt.toNat < s.work.wCap.toNat ∧ (0 < s.work.bits.toNat ∨ s.work.cur.toNat < s.work.wLen.toNat)) →
    blockStep s = .next { s with work := { s.work with fsm := .encPad } }

/-- R137, R138, R139, R140 with the looping half of R136: one iteration refills ACC, or fills the final group with zero bits,
or neither; takes the top 5 valid bits as the index; writes that character at slot CNT; and changes no other byte. -/
def Obligations.EncDataEmitsOneCharacter : Prop :=
  ∀ s : State, s.work.fsm = .encData → s.stuck = false → Memory.wf s.mem = true →
    s.work.cnt.toNat < s.work.wCap.toNat → (0 < s.work.bits.toNat ∨ s.work.cur.toNat < s.work.wLen.toNat) →
    s.admits .write (s.work.wOut + s.work.cnt) = true →
    (s.work.bits.toNat < 5 → s.work.cur.toNat < s.work.wLen.toNat → s.readsPlainly (s.work.wIn + s.work.cur)) →
    let refill := s.work.bits.toNat < 5 ∧ s.work.cur.toNat < s.work.wLen.toNat
    let acc : Acc :=
      if refill then (s.work.acc <<< 8) ||| (s.byteAt (s.work.wIn + s.work.cur)).setWidth 13
      else if s.work.bits.toNat < 5 then s.work.acc <<< (5 - s.work.bits.toNat) else s.work.acc
    let bits : Nat := if refill then s.work.bits.toNat + 8 else if s.work.bits.toNat < 5 then 5 else s.work.bits.toNat
    let index : Symbol := BitVec.ofNat 5 (acc.toNat / 2 ^ (bits - 5))
    ∃ t : State, blockStep s = .next t ∧
      t.work = { s.work with
        acc := acc
        bits := BitVec.ofNat 4 (bits - 5)
        cnt := s.work.cnt + 1#32
        cur := if refill then s.work.cur + 1#32 else s.work.cur } ∧
      t.byteAt (s.work.wOut + s.work.cnt) = alphabet index ∧
      (∀ b : Addr, b ≠ s.work.wOut + s.work.cnt → t.byteAt b = s.byteAt b) ∧ t.result = s.result ∧ KeepsTheRest s t

/-- R141: ENC_PAD writes one `=` at slot CNT, or moves to ENC_FIN. -/
def Obligations.EncPadAppendsOrLeaves : Prop :=
  ∀ s : State, s.work.fsm = .encPad → s.stuck = false → Memory.wf s.mem = true →
    let more := s.work.padReq = true ∧ s.work.cnt.toNat % 8 ≠ 0 ∧ s.work.cnt.toNat < s.work.wCap.toNat
    (more → s.admits .write (s.work.wOut + s.work.cnt) = true →
      ∃ t : State, blockStep s = .next t ∧ t.work = { s.work with cnt := s.work.cnt + 1#32 } ∧
        t.byteAt (s.work.wOut + s.work.cnt) = 0x3D#8 ∧
        (∀ b : Addr, b ≠ s.work.wOut + s.work.cnt → t.byteAt b = s.byteAt b) ∧ t.result = s.result ∧ KeepsTheRest s t) ∧
    (¬ more → blockStep s = .next { s with work := { s.work with fsm := .encFin } })

/-- R142 with R185 and R186: ENC_FIN succeeds exactly when the text is complete and a slot is left for the sentinel; else it
overwrites the last slot and raises BUFFER_TOO_SMALL. Bytes the host raced for are left out (log 8). -/
def Obligations.EncFinTerminatesTheText : Prop :=
  ∀ s : State, s.work.fsm = .encFin → s.stuck = false → Memory.wf s.mem = true →
    let complete := s.work.bits = 0#4 ∧ s.work.wLen.toNat ≤ s.work.cur.toNat ∧ (s.work.padReq = false ∨ s.work.cnt.toNat % 8 = 0)
    let slot := if complete ∧ s.work.cnt.toNat < s.work.wCap.toNat then s.work.wOut + s.work.cnt
      else s.work.wOut + (s.work.wCap - 1#32)
    s.admits .write slot = true →
    ∃ t : State, blockStep s = .next t ∧ t.work = { s.work with fsm := .idle } ∧ WritesOneByte s t slot 0x00#8 ∧ KeepsTheRest s t ∧
      t.result.count = s.work.cnt ∧
      (complete ∧ s.work.cnt.toNat < s.work.wCap.toNat → t.statusWord = 0x00000002#32) ∧
      (¬ (complete ∧ s.work.cnt.toNat < s.work.wCap.toNat) → t.statusWord = 0x00000046#32)

/-! ### The decoder's steps -/

/-- R103: at the end of the input DEC_SCAN moves to DEC_FIN and does nothing else. -/
def Obligations.DecScanEndsTheInput : Prop :=
  ∀ s : State, s.work.fsm = .decScan → s.stuck = false → s.work.cur = s.work.wLen →
    blockStep s = .next { s with work := { s.work with fsm := .decFin } }

/-- R106 with R104: `=` advances BITS by 5, less 8 if it reaches 8, and sets PADSTART until BITS returns to 0; it is tested
before PADSTART. -/
def Obligations.DecScanCountsPadding : Prop :=
  ∀ s : State, s.work.fsm = .decScan → s.stuck = false → s.work.cur.toNat < s.work.wLen.toNat → s.work.bits.toNat ≤ 7 →
    s.readsPlainly (s.work.wIn + s.work.cur) → s.byteAt (s.work.wIn + s.work.cur) = 0x3D#8 →
    let bits := if 8 ≤ s.work.bits.toNat + 5 then s.work.bits.toNat + 5 - 8 else s.work.bits.toNat + 5
    blockStep s = .next { s with work := { s.work with
      cur := s.work.cur + 1#32, bits := BitVec.ofNat 4 bits, padStart := decide (bits ≠ 0) } }

/-- R107 and R111 with R104 and R186: a byte other than `=` inside a padding run, and outside one a byte that is no separator
and has no index after typo correction, end the command with INVALID_CHARACTER. COUNT is CNT, no byte is written, and the
byte is consumed. Bytes the host raced for are left out (log 8). -/
def Obligations.DecScanRaisesInvalidCharacter : Prop :=
  ∀ (s : State) (c : Byte), s.work.fsm = .decScan → s.stuck = false → s.work.cur.toNat < s.work.wLen.toNat →
    s.readsPlainly (s.work.wIn + s.work.cur) → s.byteAt (s.work.wIn + s.work.cur) = c → c ≠ 0x3D#8 →
    (s.work.padStart = true ∨ (c ∉ [0x20#8, 0x09#8, 0x0D#8, 0x0A#8, 0x2D#8] ∧ lookup (typo c) = none)) →
    ∃ t : State, blockStep s = .next t ∧ t.statusWord = 0x00000016#32 ∧ t.result.count = s.work.cnt ∧
      t.work = { s.work with cur := s.work.cur + 1#32, fsm := .idle } ∧ WritesNothing s t ∧ KeepsTheRest s t

/-- R108 with R104: a separator outside a padding run is consumed and has no further effect. -/
def Obligations.DecScanSkipsSeparators : Prop :=
  ∀ s : State, s.work.fsm = .decScan → s.stuck = false → s.work.cur.toNat < s.work.wLen.toNat →
    s.readsPlainly (s.work.wIn + s.work.cur) → s.work.padStart = false →
    s.byteAt (s.work.wIn + s.work.cur) ∈ [0x20#8, 0x09#8, 0x0D#8, 0x0A#8, 0x2D#8] →
    blockStep s = .next { s with work := { s.work with cur := s.work.cur + 1#32 } }

/-- R112, R113, R114 with R104, R109, R110: a symbol is shifted in, the oldest 8 valid bits are written if 8 are there and capacity
remains, and 8 bits are consumed whether or not they were. -/
def Obligations.DecScanShiftsInSymbols : Prop :=
  ∀ (s : State) (c : Byte) (v : Symbol), s.work.fsm = .decScan → s.stuck = false → Memory.wf s.mem = true →
    s.work.cur.toNat < s.work.wLen.toNat → s.work.bits.toNat ≤ 7 →
    s.readsPlainly (s.work.wIn + s.work.cur) → s.byteAt (s.work.wIn + s.work.cur) = c → classify c = .sym v → s.work.padStart = false →
    (s.work.cnt.toNat < s.work.wCap.toNat → s.admits .write (s.work.wOut + s.work.cnt) = true) →
    let acc : Acc := (s.work.acc <<< 5) ||| v.setWidth 13
    let bits := s.work.bits.toNat + 5
    let emits := 8 ≤ bits ∧ s.work.cnt.toNat < s.work.wCap.toNat
    ∃ t : State, blockStep s = .next t ∧
      t.work = { s.work with
        acc := acc
        bits := BitVec.ofNat 4 (if 8 ≤ bits then bits - 8 else bits)
        cur := s.work.cur + 1#32
        cnt := if emits then s.work.cnt + 1#32 else s.work.cnt } ∧
      (emits → t.byteAt (s.work.wOut + s.work.cnt) = BitVec.ofNat 8 (acc.toNat / 2 ^ (bits - 8))) ∧
      (∀ b : Addr, (emits → b ≠ s.work.wOut + s.work.cnt) → t.byteAt b = s.byteAt b) ∧ t.result = s.result ∧ KeepsTheRest s t

/-- R115 with R185: DEC_FIN writes the sentinel if capacity remains, and finishes with COUNT = CNT. Bytes the host raced for
are left out (log 8). -/
def Obligations.DecFinTerminatesTheOutput : Prop :=
  ∀ s : State, s.work.fsm = .decFin → s.stuck = false → Memory.wf s.mem = true →
    (s.work.cnt.toNat < s.work.wCap.toNat → s.admits .write (s.work.wOut + s.work.cnt) = true) →
    ∃ t : State, blockStep s = .next t ∧ t.statusWord = 0x00000002#32 ∧ t.result.count = s.work.cnt ∧
      t.work = { s.work with fsm := .idle } ∧ KeepsTheRest s t ∧
      (s.work.cnt.toNat < s.work.wCap.toNat → WritesOneByte s t (s.work.wOut + s.work.cnt) 0x00#8) ∧
      (s.work.wCap.toNat ≤ s.work.cnt.toNat → WritesNothing s t)

/-- R69: where the platform does not admit an access of the block's next step, the block's turn leaves it stuck, and neither a
further turn (R225) nor any command (R164, R166) changes anything from then on. The model's choices in it: a stuck turn is a step that
changes nothing (log 3), and a step with a read and a write of which the write is refused happens not at all (log 6). -/
def Obligations.UnadmittedAccessLeavesTheBlockStuck : Prop :=
  ∀ s : State,
    ((s.work.fsm = .encInit ∧ s.admits .read s.work.wIn = false) ∨
     (s.work.fsm = .encData ∧ s.work.cnt.toNat < s.work.wCap.toNat ∧ s.work.bits.toNat < 5 ∧ s.work.cur.toNat < s.work.wLen.toNat ∧
       s.admits .read (s.work.wIn + s.work.cur) = false) ∨
     (s.work.fsm = .encData ∧ s.work.cnt.toNat < s.work.wCap.toNat ∧ (0 < s.work.bits.toNat ∨ s.work.cur.toNat < s.work.wLen.toNat) ∧
       s.admits .write (s.work.wOut + s.work.cnt) = false) ∨
     (s.work.fsm = .encPad ∧ s.work.padReq = true ∧ s.work.cnt.toNat % 8 ≠ 0 ∧ s.work.cnt.toNat < s.work.wCap.toNat ∧
       s.admits .write (s.work.wOut + s.work.cnt) = false) ∨
     (s.work.fsm = .encFin ∧ s.admits .write (s.work.wOut + (if s.work.complete = true ∧ s.work.cnt.toNat < s.work.wCap.toNat
       then s.work.cnt else s.work.wCap - 1#32)) = false) ∨
     (s.work.fsm = .decScan ∧ s.work.cur.toNat < s.work.wLen.toNat ∧ s.admits .read (s.work.wIn + s.work.cur) = false) ∨
     (s.work.fsm = .decScan ∧ s.work.cur.toNat < s.work.wLen.toNat ∧ s.readsPlainly (s.work.wIn + s.work.cur) ∧
       s.work.padStart = false ∧ (∃ v, classify (s.byteAt (s.work.wIn + s.work.cur)) = .sym v) ∧ 3 ≤ s.work.bits.toNat ∧
       s.work.bits.toNat ≤ 7 ∧ s.work.cnt.toNat < s.work.wCap.toNat ∧ s.admits .write (s.work.wOut + s.work.cnt) = false) ∨
     (s.work.fsm = .decFin ∧ s.work.cnt.toNat < s.work.wCap.toNat ∧ s.admits .write (s.work.wOut + s.work.cnt) = false)) →
    ∃ t : State, t = { s with stuck := true } ∧ blockStep s = .next t ∧ blockStep t = .next t ∧ t.busy = true ∧
      ∀ i : Instr, exec i t = .next t

/-! ### The host and the platform -/

/-- R163: an argument register takes the word written and a later read returns it, busy or not, and nothing else changes. -/
def Obligations.ArgumentRegisterReadsBackAsWritten : Prop :=
  ∀ (s : State) (off : Nat) (v : Word) (rest : List Event), off ∈ [0x08, 0x0C, 0x10, 0x14] →
    s.schedule = .regWrite off .word v :: .regRead off .word :: rest →
    ∃ t u : State, step s = .next t ∧ step t = .next u ∧ u.replies = .reg off v :: s.replies ∧ u.schedule = rest ∧
      u.work = s.work ∧ u.result = s.result ∧ u.mem = s.mem ∧ u.vis = s.vis ∧ u.denied = s.denied ∧ u.stuck = s.stuck ∧
      u.args.inAddr = (if off = 0x08 then v else s.args.inAddr) ∧ u.args.inLen = (if off = 0x0C then v else s.args.inLen) ∧
      u.args.outAddr = (if off = 0x10 then v else s.args.outAddr) ∧ u.args.outCap = (if off = 0x14 then v else s.args.outCap)

/-- R32, R37, R38: writes to STATUS, COUNT and the reserved offsets are ignored. -/
def Obligations.ReadOnlyRegistersIgnoreWrites : Prop :=
  ∀ (s : State) (off : Nat) (v : Word) (rest : List Event),
    (off = 0x04 ∨ off = 0x18 ∨ (off % 4 = 0 ∧ 0x1C ≤ off ∧ off ≤ 0x3C)) → s.schedule = .regWrite off .word v :: rest →
    step s = .next { s with schedule := rest }

/-- R39 with R30: a register read returns the register's value and has no side effect on the block or the memory. That a STATUS
read with DONE also makes the block's writes visible to the host is said elsewhere (R73, log 9). -/
def Obligations.RegisterReadReturnsTheValue : Prop :=
  ∀ (s : State) (off : Nat) (rest : List Event), off % 4 = 0 → off < 64 → s.schedule = .regRead off .word :: rest →
    ∃ t : State, step s = .next t ∧ t.work = s.work ∧ t.args = s.args ∧ t.result = s.result ∧ t.mem = s.mem ∧ t.denied = s.denied ∧
      t.stuck = s.stuck ∧ t.schedule = rest ∧ t.replies = .reg off (
        if off = 0x04 then s.statusWord else if off = 0x08 then s.args.inAddr else if off = 0x0C then s.args.inLen
        else if off = 0x10 then s.args.outAddr else if off = 0x14 then s.args.outCap else if off = 0x18 then s.result.count
        else 0#32) :: s.replies

/-- R32 and R40: the fields of STATUS, its reserved bits 0, BUSY a view of FSM. -/
def Obligations.StatusWordHasItsFields : Prop :=
  ∀ s : State, s.statusWord.getLsbD 0 = decide (s.work.fsm ≠ .idle) ∧ s.statusWord.getLsbD 1 = s.result.done ∧
    s.statusWord.getLsbD 2 = s.result.err ∧ s.statusWord.getLsbD 3 = false ∧
    s.statusWord.extractLsb' 4 4 = (match s.result.errCode with
      | none => 0#4
      | some .invalidCharacter => 1#4
      | some .invalidLength => 2#4
      | some .invalidCapacity => 3#4
      | some .bufferTooSmall => 4#4
      | some .illegalCommand => 5#4) ∧
    s.statusWord.extractLsb' 8 24 = 0#24

/-- R67: a host access to the window is refused exactly when it is not a 32-bit access at a word-aligned offset inside it. -/
def Obligations.BadRegisterAccessIsRefused : Prop :=
  ∀ (s : State) (off : Nat) (size : AccessSize) (v : Word) (rest : List Event),
    (¬ (size = .word ∧ off % 4 = 0 ∧ off < 64) →
      (s.schedule = .regWrite off size v :: rest → step s = .refused (.registerAccess off size)) ∧
      (s.schedule = .regRead off size :: rest → step s = .refused (.registerAccess off size))) ∧
    (size = .word → off % 4 = 0 → off < 64 →
      (s.schedule = .regWrite off size v :: rest → ∃ t, step s = .next t) ∧
      (s.schedule = .regRead off size :: rest → ∃ t, step s = .next t))

/-- R210: reset sets every register of the block to its reset value, whatever it was doing, and does not touch memory; the block is
not stuck after it (R225). What a later host read of an abandoned command's output region returns is left open (R212, log 10). -/
def Obligations.ResetSetsEveryRegister : Prop :=
  ∀ (s : State) (rest : List Event), s.schedule = .reset :: rest →
    ∃ t : State, step s = .next t ∧ t.mem = s.mem ∧ t.denied = s.denied ∧ t.replies = s.replies ∧ t.schedule = rest ∧
      t.work = ⟨.idle, 0#13, 0#4, 0#32, 0#32, false, false, 0#32, 0#32, 0#32, 0#32⟩ ∧ t.args = ⟨0#32, 0#32, 0#32, 0#32⟩ ∧
      t.result = ⟨false, false, none, 0#32⟩ ∧ t.statusWord = 0#32 ∧ t.stuck = false

/-- R210 of the machine right after reset, which is not stuck (R225). -/
def Obligations.ResetStateHasItsValues : Prop :=
  State.reset.work = ⟨.idle, 0#13, 0#4, 0#32, 0#32, false, false, 0#32, 0#32, 0#32, 0#32⟩ ∧
  State.reset.args = ⟨0#32, 0#32, 0#32, 0#32⟩ ∧ State.reset.result = ⟨false, false, none, 0#32⟩ ∧ State.reset.statusWord = 0#32 ∧
  State.reset.stuck = false

/-- The host writes and reads its own memory while the block is idle: the byte read is the byte written, and nothing of the
block changes (R61). The canonical form of memory is the model's (log 4). -/
def Obligations.HostMemoryReadsBackWhileIdle : Prop :=
  ∀ (s : State) (a : Addr) (v : Byte) (rest : List Event), s.busy = false → Memory.wf s.mem = true →
    s.schedule = .memWrite a v :: .memRead a :: rest →
    ∃ t u : State, step s = .next t ∧ step t = .next u ∧ u.replies = .mem a v :: s.replies ∧ u.work = s.work ∧ u.args = s.args ∧
      u.result = s.result ∧ u.stuck = s.stuck ∧ u.byteAt a = v ∧ ∀ b : Addr, b ≠ a → u.byteAt b = s.byteAt b

/-- R74, first bullet: a block read of an input byte the host wrote during the command returns the old value or the value
the host wrote. The choice is a free value (log 7): nothing is said about which. -/
def Obligations.RacingReadReturnsOldOrNew : Prop :=
  ∀ (s t : State) (a : Addr) (v c : Byte), s.busy = true → s.work.inputRegion.contains a = true → valuesAt s.vis.racing a = [] →
    (s.hostWrite a v).blockRead a = some (c, t) → c = v ∨ c = s.byteAt a

/-- R74, second bullet, at one block write: a host read of the byte returns the byte written, the one before, or a value it could return
before. The choice is a free value (log 9): nothing is said about which. No reset abandoned a command over the byte (log 10). -/
def Obligations.HostReadDuringCommandSeesAValueHeld : Prop :=
  ∀ (s : State) (a : Addr) (v : Byte), Memory.wf s.mem = true → (∀ r ∈ s.vis.abandoned, r.contains a = false) → .any ∉ s.olderAt a →
    let seen := ((s.blockPut a v).hostSees a).1
    seen = v ∨ seen = s.byteAt a ∨ .value seen ∈ s.olderAt a

/-- R73, completion: after the host has read STATUS with BUSY = 0 and DONE = 1, a host read of memory returns the byte the block
left there, unless a reset abandoned a command over it (log 9, log 10). -/
def Obligations.CompletionMakesWritesVisible : Prop :=
  ∀ (s : State) (a : Addr) (rest : List Event), s.busy = false → s.result.done = true →
    (∀ r ∈ s.vis.abandoned, r.contains a = false) → s.schedule = .regRead 0x04 .word :: .memRead a :: rest →
    ∃ t u : State, step s = .next t ∧ step t = .next u ∧ u.replies = .mem a (s.byteAt a) :: .reg 0x04 s.statusWord :: s.replies

/-! ### The tables -/

/-- R81: ALPHABET is the string `ABCDEFGHIJKLMNOPQRSTUVWXYZ234567`. -/
def Obligations.AlphabetIsTheTable : Prop :=
  (List.range 32).map (fun i => (alphabet (BitVec.ofNat 5 i)).toNat) =
    [0x41, 0x42, 0x43, 0x44, 0x45, 0x46, 0x47, 0x48, 0x49, 0x4A, 0x4B, 0x4C, 0x4D, 0x4E, 0x4F, 0x50,
     0x51, 0x52, 0x53, 0x54, 0x55, 0x56, 0x57, 0x58, 0x59, 0x5A, 0x32, 0x33, 0x34, 0x35, 0x36, 0x37]

/-- LOOKUP undoes ALPHABET, and only characters of the alphabet, in either case, have an index (R84). -/
def Obligations.LookupUndoesAlphabet : Prop :=
  (∀ i : Symbol, lookup (alphabet i) = some i) ∧
  (∀ (c : Byte) (i : Symbol), lookup c = some i ↔ c = alphabet i ∨ (c.toNat = (alphabet i).toNat + 0x20 ∧ i.toNat ≤ 25))

/-- How many bytes each class of R86 has: 1, 5, 61 and 189. -/
def Obligations.ByteClassesHaveTheirSizes : Prop :=
  let bytes := (List.range 256).map (BitVec.ofNat 8)
  (bytes.filter fun c => classify c == .pad).length = 1 ∧ (bytes.filter fun c => classify c == .sep).length = 5 ∧
  (bytes.filter fun c => (symbolsOf [c]).length == 1).length = 61 ∧ (bytes.filter fun c => classify c == .bad).length = 189

/-- Typo tolerance and case insensitivity of R121, at the byte: `0`, `1`, `8` act as `O`, `L`, `B`, and a lowercase letter as
its uppercase one, in every state of the decoder. -/
def Obligations.TyposAndCaseMakeNoDifference : Prop :=
  ∀ s : State, decByte s 0x30#8 = decByte s 0x4F#8 ∧ decByte s 0x31#8 = decByte s 0x4C#8 ∧ decByte s 0x38#8 = decByte s 0x42#8 ∧
    ∀ c : Byte, 0x41 ≤ c.toNat → c.toNat ≤ 0x5A → decByte s (c + 0x20#8) = decByte s c

/-! ### Rules of the whole machine -/

/-- The invariant holds right after reset. -/
def Obligations.InvariantHoldsAtReset : Prop := State.reset.Inv

/-- Every step keeps the invariant: the memory canonical, BITS, CNT and CUR in the ranges of R23, R24 and R41, the record
coherent (R32), races about the running command's own buffers, and only a busy block stuck. -/
def Obligations.StepKeepsTheInvariant : Prop :=
  ∀ s t : State, s.Inv → step s = .next t → t.Inv

/-- Under the invariant no step faults: the one fault of the model stands for a state no run reaches (log 14). -/
def Obligations.NoStepFaults : Prop :=
  ∀ (s : State) (f : Fault), s.Inv → step s ≠ .fault f

/-- R203: STATUS takes only eight values. -/
def Obligations.StatusTakesEightValues : Prop :=
  ∀ s : State, s.Inv → s.statusWord ∈
    [0x00000000#32, 0x00000001#32, 0x00000002#32, 0x00000016#32, 0x00000026#32, 0x00000036#32, 0x00000046#32, 0x00000056#32]

/-- R65: a block turn writes only inside the output region, and it changes no argument register, no latched argument and, while
the command goes on, no result register. -/
def Obligations.BlockTurnWritesOnlyItsOutputRegion : Prop :=
  ∀ s t : State, s.Inv → blockStep s = .next t →
    (∀ b : Addr, s.work.outputRegion.contains b = false → t.byteAt b = s.byteAt b) ∧
    t.args = s.args ∧ t.denied = s.denied ∧ t.schedule = s.schedule ∧ t.replies = s.replies ∧
    t.work.wIn = s.work.wIn ∧ t.work.wLen = s.work.wLen ∧ t.work.wOut = s.work.wOut ∧ t.work.wCap = s.work.wCap ∧
    t.work.padReq = s.work.padReq ∧ (t.busy = true → t.result = s.result)

/-- R28: the latched arguments and PADREQ change only at the acceptance of an ENCODE or a DECODE, or at reset. -/
def Obligations.LatchedArgumentsChangeOnlyAtAcceptance : Prop :=
  ∀ s t : State, step s = .next t →
    (t.work.wIn = s.work.wIn ∧ t.work.wLen = s.work.wLen ∧ t.work.wOut = s.work.wOut ∧ t.work.wCap = s.work.wCap ∧
      t.work.padReq = s.work.padReq) ∨
    (∃ rest, s.schedule = .reset :: rest) ∨
    (s.busy = false ∧ ∃ w rest, s.schedule = .regWrite 0x00 .word w :: rest ∧ w ∈ [0x00000001#32, 0x00000005#32, 0x00000002#32])

/-- R202: an idle block becomes busy only by a CMD write of an ENCODE or a DECODE. -/
def Obligations.OnlyACommandWakesTheBlock : Prop :=
  ∀ s t : State, s.busy = false → step s = .next t → t.busy = true →
    ∃ w rest, s.schedule = .regWrite 0x00 .word w :: rest ∧ w ∈ [0x00000001#32, 0x00000005#32, 0x00000002#32]

/-- R166: while a command runs no host event changes the block's working or result registers, or whether it is stuck; only
its own turn and a reset do. -/
def Obligations.NothingCancelsACommand : Prop :=
  ∀ (s t : State) (e : Event) (rest : List Event), s.busy = true → s.schedule = e :: rest → e ≠ .block → e ≠ .reset →
    step s = .next t → t.work = s.work ∧ t.result = s.result ∧ t.stuck = s.stuck

/-! ### Whole commands -/

/-- R132, R133, R143, R144, R145, R146: an ENCODE that passes acceptance, with the buffers apart and only the accesses of
R145 and R65 admitted, writes the text of its data and reports it, in exactly the number of block turns of R146; if the text and
its sentinel do not fit it leaves the first capacity - 1 characters and the sentinel, and reports BUFFER_TOO_SMALL.
The host makes no move while the command runs (the empty schedule, log 1), and the block is not stuck. -/
def Obligations.EncodeWritesTheText : Prop :=
  ∀ (s : State) (pad : Bool),
    let n := s.args.inLen.toNat
    let cap := s.args.outCap.toNat
    let text := fullText pad (s.bytesFrom s.args.inAddr n)
    s.busy = false → s.stuck = false → s.schedule = [] → Memory.wf s.mem = true → n < 2 ^ 28 → 0 < s32 s.args.outCap →
    s.args.buffersApart cap →
    (∀ i, i < n → 8 * i / 5 < cap → s.admits .read (s.args.inAddr + BitVec.ofNat 32 i) = true) →
    (∀ j, j < cap → s.admits .write (s.args.outAddr + BitVec.ofNat 32 j) = true) →
    ∃ (a t : State) (k : Nat), exec (if pad then .encPad else .enc) s = .next a ∧ EndsIn a k t ∧ t.args = s.args ∧
      (text.length < cap →
        k = (if n = 0 then 0 else 1) + text.length + 3 ∧ t.statusWord = 0x00000002#32 ∧ t.result.count.toNat = text.length ∧
        t.bytesFrom s.args.outAddr (text.length + 1) = text ++ [0x00#8]) ∧
      (cap ≤ text.length →
        t.statusWord = 0x00000046#32 ∧ t.result.count.toNat = cap ∧
        t.bytesFrom s.args.outAddr cap = text.take (cap - 1) ++ [0x00#8]) ∧
      (∀ b : Addr, Region.contains ⟨s.args.outAddr, min cap (text.length + 1)⟩ b = false → t.byteAt b = s.byteAt b)

/-- R102, R116, R117, R118, R119, R120, R122: a DECODE of a text that raises no error, in pieces of symbols and separators each closed
by a completed run of `=` (or, without `=`, after a multiple of 8 symbols), and a last piece with any number of `=`, the buffers
apart, writes the bytes its pieces decode to, as many as fit, and the sentinel if it fits, and succeeds after exactly IN_LEN + 2 block
turns. The host makes no move while the command runs (the empty schedule, log 1), and the block is not stuck. -/
def Obligations.DecodeWritesTheBytes : Prop :=
  ∀ (s : State) (pieces : List TextPiece) (last : TextPiece),
    let n := s.args.inLen.toNat
    let cap := if s32 s.args.outCap ≤ 0 then 0 else s.args.outCap.toNat
    let bytes := pieces.flatMap TextPiece.bytes ++ last.bytes
    s.busy = false → s.stuck = false → s.schedule = [] → Memory.wf s.mem = true → s.args.buffersApart cap →
    s.bytesFrom s.args.inAddr n = pieces.flatMap TextPiece.text ++ last.text →
    pieces.all TextPiece.whole = true → plainText last.body = true →
    (∀ i, i < n → s.admits .read (s.args.inAddr + BitVec.ofNat 32 i) = true) →
    (∀ j, j < cap → s.admits .write (s.args.outAddr + BitVec.ofNat 32 j) = true) →
    ∃ a t : State, exec .dec s = .next a ∧ EndsIn a (n + 2) t ∧ t.args = s.args ∧ t.statusWord = 0x00000002#32 ∧
      t.result.count.toNat = min cap bytes.length ∧
      t.bytesFrom s.args.outAddr (min cap (bytes.length + 1)) = (bytes ++ [0x00#8]).take cap ∧
      (∀ b : Addr, Region.contains ⟨s.args.outAddr, min cap (bytes.length + 1)⟩ b = false → t.byteAt b = s.byteAt b)

/-- R147, of the functions: decoding the text of any data gives the data back, padded or not. With the two statements
above, it is the round trip of the machine. -/
def Obligations.DecodingTheTextGivesTheData : Prop :=
  ∀ (pad : Bool) (d : List Byte), ∃ (body : List Byte) (m : Nat),
    fullText pad d = body ++ List.replicate m 0x3D#8 ∧ plainText body = true ∧ decodedBytes (symbolsOf body) = d

/-- R147, of the machine: an ENCODE that succeeds, then a DECODE of its text with a capacity of at least the data's length into
buffers apart, leaves the data in the second output buffer. The ENCODE's own buffers are apart too, and the text and its sentinel fit.
The host makes no move but to write the second command's arguments (the empty schedule, log 1), the platform admits every access (log 5),
and the block is not stuck. -/
def Obligations.EncodeThenDecodeRoundTrip : Prop :=
  ∀ (s : State) (pad : Bool) (dst cap2 : Word),
    let n := s.args.inLen.toNat
    let cap := s.args.outCap.toNat
    let data := s.bytesFrom s.args.inAddr n
    s.busy = false → s.stuck = false → s.schedule = [] → s.denied = [] → Memory.wf s.mem = true → n < 2 ^ 28 → 0 < s32 s.args.outCap →
    s.args.buffersApart cap → (fullText pad data).length < cap →
    (n : Int) ≤ s32 cap2 → Region.apart ⟨s.args.outAddr, (fullText pad data).length⟩ ⟨dst, cap2.toNat⟩ →
    ∃ (a t b u : State) (k l : Nat), exec (if pad then .encPad else .enc) s = .next a ∧ EndsIn a k t ∧
      exec .dec { t with args := ⟨s.args.outAddr, t.result.count, dst, cap2⟩ } = .next b ∧ EndsIn b l u ∧
      u.statusWord = 0x00000002#32 ∧ u.result.count = s.args.inLen ∧ u.bytesFrom dst n = data

/-- R122: a DECODE, whatever its input and wherever its buffers lie, ends after exactly IN_LEN + 2 block turns if it raises no error,
and after one turn for each byte it has consumed if it raises one. The host makes no move while the command runs, and the block takes
every turn (the empty schedule, log 1, which is unsafe for a claim about ending); the block is not stuck. -/
def Obligations.DecodeEndsInItsStepCount : Prop :=
  ∀ s : State,
    let n := s.args.inLen.toNat
    let cap := if s32 s.args.outCap ≤ 0 then 0 else s.args.outCap.toNat
    s.busy = false → s.stuck = false → s.schedule = [] →
    (∀ i, i < n → s.admits .read (s.args.inAddr + BitVec.ofNat 32 i) = true) →
    (∀ j, j < cap → s.admits .write (s.args.outAddr + BitVec.ofNat 32 j) = true) →
    ∃ (a t : State) (k : Nat), exec .dec s = .next a ∧ EndsIn a k t ∧
      (t.statusWord = 0x00000002#32 ∧ k = n + 2 ∨
       t.statusWord = 0x00000016#32 ∧ k = t.work.cur.toNat ∧ 0 < k ∧ k ≤ n)

/-- R114: whether a DECODE raises INVALID_CHARACTER, and at which byte, does not depend on the capacity. The buffers are apart at
both capacities, the host makes no move while a command runs (the empty schedule, log 1), the platform admits every access (log 5), and
the block is not stuck. -/
def Obligations.DecodeVerdictIgnoresCapacity : Prop :=
  ∀ (s : State) (cap2 : Word), s.busy = false → s.stuck = false → s.schedule = [] → s.denied = [] →
    s.args.buffersApart (decodeCapacity s.args.outCap).toNat → s.args.buffersApart (decodeCapacity cap2).toNat →
    ∃ (a b t u : State) (k l : Nat), exec .dec s = .next a ∧ exec .dec { s with args := { s.args with outCap := cap2 } } = .next b ∧
      EndsIn a k t ∧ EndsIn b l u ∧ k = l ∧ t.statusWord = u.statusWord ∧ t.work.cur = u.work.cur ∧ t.work.bits = u.work.bits ∧
      t.work.padStart = u.work.padStart

/-- R144: `enc` writes ceil(8n/5) characters, and `enc.pad` that count rounded up to a multiple of 8, at most 6 of them `=`. -/
def Obligations.TextHasItsLength : Prop :=
  ∀ d : List Byte,
    (fullText false d).length = (8 * d.length + 4) / 5 ∧
    (fullText true d).length = 8 * (((8 * d.length + 4) / 5 + 7) / 8) ∧
    padCount (fullText false d).length = (match d.length % 5 with
      | 0 => 0
      | 1 => 6
      | 2 => 4
      | 3 => 3
      | _ => 1)

/-- R223, encode: a text split at a multiple of 5 bytes is the texts of its parts, one after the other. -/
def Obligations.TextSplitsAtGroups : Prop :=
  ∀ (pad : Bool) (d e : List Byte), d.length % 5 = 0 → fullText pad (d ++ e) = fullText pad d ++ fullText pad e

/-- R166, R225: a stuck block stays stuck, and its registers stay as they are, whatever the host does, until a reset, and a reset
recovers it. In particular what the host writes to memory does not wake it. That a turn of a stuck block is a step at all is the
model's choice (log 3). -/
def Obligations.OnlyResetFreesAStuckBlock : Prop :=
  ∀ s t : State, s.busy = true → s.stuck = true → step s = .next t →
    (t.stuck = true ∧ t.busy = true ∧ t.work = s.work ∧ t.result = s.result) ∨
    (t.stuck = false ∧ t.busy = false ∧ ∃ rest, s.schedule = .reset :: rest)

/-- R74, second bullet, over a whole command: while a command runs, a host read of a byte of its output region returns a value that memory
held there at one of the states from the command's acceptance on, whatever an earlier command left for the host to see. The events between are
any at all, so long as the command is running, and no reset has abandoned a command over the byte (log 10). Which of the values is a
free value (log 9). -/
def Obligations.HostReadReturnsAValueOfTheRunningCommand : Prop :=
  ∀ (i : Instr) (s : State) (run : Nat → State) (n : Nat) (a : Addr) (rest : List Event),
    s.busy = false → exec i s = .next (run 0) → (∀ k, k < n → step (run k) = .next (run (k + 1))) → (∀ k, k ≤ n → (run k).busy = true) →
    (run n).work.outputRegion.contains a = true → (∀ r ∈ s.vis.abandoned, r.contains a = false) → (run n).schedule = .memRead a :: rest →
    ∃ (t : State) (k : Nat), step (run n) = .next t ∧ k ≤ n ∧ t.replies = .mem a ((run k).byteAt a) :: (run n).replies
end

