-- ==== Sys2Proof/Laws/State.lean ====
section
/-! SUPPORT. One lemma per field per update of the state and of its parts, each true by rfl. -/

namespace Sys2Proof.Machine

/-! `State.putByte` -/

@[simp] theorem State.putByte_work (s : State) (a : Addr) (v : Byte) : (s.putByte a v).work = s.work := rfl
@[simp] theorem State.putByte_args (s : State) (a : Addr) (v : Byte) : (s.putByte a v).args = s.args := rfl
@[simp] theorem State.putByte_result (s : State) (a : Addr) (v : Byte) : (s.putByte a v).result = s.result := rfl
@[simp] theorem State.putByte_mem (s : State) (a : Addr) (v : Byte) : (s.putByte a v).mem = Memory.write s.mem a.toNat v := rfl
@[simp] theorem State.putByte_denied (s : State) (a : Addr) (v : Byte) : (s.putByte a v).denied = s.denied := rfl
@[simp] theorem State.putByte_stuck (s : State) (a : Addr) (v : Byte) : (s.putByte a v).stuck = s.stuck := rfl
@[simp] theorem State.putByte_vis (s : State) (a : Addr) (v : Byte) : (s.putByte a v).vis = s.vis := rfl
@[simp] theorem State.putByte_schedule (s : State) (a : Addr) (v : Byte) : (s.putByte a v).schedule = s.schedule := rfl
@[simp] theorem State.putByte_replies (s : State) (a : Addr) (v : Byte) : (s.putByte a v).replies = s.replies := rfl

/-! `State.blockPut` -/

@[simp] theorem State.blockPut_work (s : State) (a : Addr) (v : Byte) : (s.blockPut a v).work = s.work := rfl
@[simp] theorem State.blockPut_args (s : State) (a : Addr) (v : Byte) : (s.blockPut a v).args = s.args := rfl
@[simp] theorem State.blockPut_result (s : State) (a : Addr) (v : Byte) : (s.blockPut a v).result = s.result := rfl
@[simp] theorem State.blockPut_mem (s : State) (a : Addr) (v : Byte) : (s.blockPut a v).mem = Memory.write s.mem a.toNat v := rfl
@[simp] theorem State.blockPut_denied (s : State) (a : Addr) (v : Byte) : (s.blockPut a v).denied = s.denied := rfl
@[simp] theorem State.blockPut_stuck (s : State) (a : Addr) (v : Byte) : (s.blockPut a v).stuck = s.stuck := rfl
@[simp] theorem State.blockPut_vis (s : State) (a : Addr) (v : Byte) : (s.blockPut a v).vis = s.vis.blockWrote a (s.seenAt a) := rfl
@[simp] theorem State.blockPut_schedule (s : State) (a : Addr) (v : Byte) : (s.blockPut a v).schedule = s.schedule := rfl
@[simp] theorem State.blockPut_replies (s : State) (a : Addr) (v : Byte) : (s.blockPut a v).replies = s.replies := rfl

/-! `State.goto` -/

@[simp] theorem State.goto_work (s : State) (f : Fsm) : (s.goto f).work = { s.work with fsm := f } := rfl
@[simp] theorem State.goto_args (s : State) (f : Fsm) : (s.goto f).args = s.args := rfl
@[simp] theorem State.goto_result (s : State) (f : Fsm) : (s.goto f).result = s.result := rfl
@[simp] theorem State.goto_mem (s : State) (f : Fsm) : (s.goto f).mem = s.mem := rfl
@[simp] theorem State.goto_denied (s : State) (f : Fsm) : (s.goto f).denied = s.denied := rfl
@[simp] theorem State.goto_stuck (s : State) (f : Fsm) : (s.goto f).stuck = s.stuck := rfl
@[simp] theorem State.goto_vis (s : State) (f : Fsm) : (s.goto f).vis = s.vis := rfl
@[simp] theorem State.goto_schedule (s : State) (f : Fsm) : (s.goto f).schedule = s.schedule := rfl
@[simp] theorem State.goto_replies (s : State) (f : Fsm) : (s.goto f).replies = s.replies := rfl

/-! `State.getStuck` -/

@[simp] theorem State.getStuck_work (s : State) : s.getStuck.work = s.work := rfl
@[simp] theorem State.getStuck_args (s : State) : s.getStuck.args = s.args := rfl
@[simp] theorem State.getStuck_result (s : State) : s.getStuck.result = s.result := rfl
@[simp] theorem State.getStuck_mem (s : State) : s.getStuck.mem = s.mem := rfl
@[simp] theorem State.getStuck_denied (s : State) : s.getStuck.denied = s.denied := rfl
@[simp] theorem State.getStuck_stuck (s : State) : s.getStuck.stuck = true := rfl
@[simp] theorem State.getStuck_vis (s : State) : s.getStuck.vis = s.vis := rfl
@[simp] theorem State.getStuck_schedule (s : State) : s.getStuck.schedule = s.schedule := rfl
@[simp] theorem State.getStuck_replies (s : State) : s.getStuck.replies = s.replies := rfl

/-! `State.finish` -/

@[simp] theorem State.finish_work (s : State) (n : Word) : (s.finish n).work = { s.work with fsm := .idle } := rfl
@[simp] theorem State.finish_args (s : State) (n : Word) : (s.finish n).args = s.args := rfl
@[simp] theorem State.finish_result (s : State) (n : Word) : (s.finish n).result = ⟨true, false, none, n⟩ := rfl
@[simp] theorem State.finish_mem (s : State) (n : Word) : (s.finish n).mem = s.mem := rfl
@[simp] theorem State.finish_denied (s : State) (n : Word) : (s.finish n).denied = s.denied := rfl
@[simp] theorem State.finish_stuck (s : State) (n : Word) : (s.finish n).stuck = s.stuck := rfl
@[simp] theorem State.finish_vis (s : State) (n : Word) : (s.finish n).vis = s.vis := rfl
@[simp] theorem State.finish_schedule (s : State) (n : Word) : (s.finish n).schedule = s.schedule := rfl
@[simp] theorem State.finish_replies (s : State) (n : Word) : (s.finish n).replies = s.replies := rfl

/-! `State.raiseError` -/

@[simp] theorem State.raiseError_work (s : State) (c : ErrorCode) : (s.raiseError c).work = { s.work with fsm := .idle } := rfl
@[simp] theorem State.raiseError_args (s : State) (c : ErrorCode) : (s.raiseError c).args = s.args := rfl
@[simp] theorem State.raiseError_result (s : State) (c : ErrorCode) : (s.raiseError c).result = ⟨true, true, some c, if c = .illegalCommand then 0#32 else s.work.cnt⟩ := rfl
@[simp] theorem State.raiseError_mem (s : State) (c : ErrorCode) : (s.raiseError c).mem = s.mem := rfl
@[simp] theorem State.raiseError_denied (s : State) (c : ErrorCode) : (s.raiseError c).denied = s.denied := rfl
@[simp] theorem State.raiseError_stuck (s : State) (c : ErrorCode) : (s.raiseError c).stuck = s.stuck := rfl
@[simp] theorem State.raiseError_vis (s : State) (c : ErrorCode) : (s.raiseError c).vis = s.vis := rfl
@[simp] theorem State.raiseError_schedule (s : State) (c : ErrorCode) : (s.raiseError c).schedule = s.schedule := rfl
@[simp] theorem State.raiseError_replies (s : State) (c : ErrorCode) : (s.raiseError c).replies = s.replies := rfl

/-! `State.clearResult` -/

@[simp] theorem State.clearResult_work (s : State) : (s.clearResult).work = s.work := rfl
@[simp] theorem State.clearResult_args (s : State) : (s.clearResult).args = s.args := rfl
@[simp] theorem State.clearResult_result (s : State) : (s.clearResult).result = Result.cleared := rfl
@[simp] theorem State.clearResult_mem (s : State) : (s.clearResult).mem = s.mem := rfl
@[simp] theorem State.clearResult_denied (s : State) : (s.clearResult).denied = s.denied := rfl
@[simp] theorem State.clearResult_stuck (s : State) : (s.clearResult).stuck = s.stuck := rfl
@[simp] theorem State.clearResult_vis (s : State) : (s.clearResult).vis = s.vis := rfl
@[simp] theorem State.clearResult_schedule (s : State) : (s.clearResult).schedule = s.schedule := rfl
@[simp] theorem State.clearResult_replies (s : State) : (s.clearResult).replies = s.replies := rfl

/-! `State.clearRaces` -/

@[simp] theorem State.clearRaces_work (s : State) : (s.clearRaces).work = s.work := rfl
@[simp] theorem State.clearRaces_args (s : State) : (s.clearRaces).args = s.args := rfl
@[simp] theorem State.clearRaces_result (s : State) : (s.clearRaces).result = s.result := rfl
@[simp] theorem State.clearRaces_mem (s : State) : (s.clearRaces).mem = s.mem := rfl
@[simp] theorem State.clearRaces_denied (s : State) : (s.clearRaces).denied = s.denied := rfl
@[simp] theorem State.clearRaces_stuck (s : State) : (s.clearRaces).stuck = s.stuck := rfl
@[simp] theorem State.clearRaces_vis (s : State) : (s.clearRaces).vis = { s.vis with racing := [], clobbered := [], stale := [], older := s.vis.stale ++ s.vis.older } := rfl
@[simp] theorem State.clearRaces_schedule (s : State) : (s.clearRaces).schedule = s.schedule := rfl
@[simp] theorem State.clearRaces_replies (s : State) : (s.clearRaces).replies = s.replies := rfl

/-! `State.settleRaces` -/

@[simp] theorem State.settleRaces_work (s : State) : (s.settleRaces).work = s.work := rfl
@[simp] theorem State.settleRaces_args (s : State) : (s.settleRaces).args = s.args := rfl
@[simp] theorem State.settleRaces_result (s : State) : (s.settleRaces).result = s.result := rfl
@[simp] theorem State.settleRaces_mem (s : State) : (s.settleRaces).mem = clobber s.mem s.vis.clobbered s.vis.draws := rfl
@[simp] theorem State.settleRaces_denied (s : State) : (s.settleRaces).denied = s.denied := rfl
@[simp] theorem State.settleRaces_stuck (s : State) : (s.settleRaces).stuck = s.stuck := rfl
@[simp] theorem State.settleRaces_vis (s : State) : (s.settleRaces).vis = { s.vis with racing := [], clobbered := [], draws := s.vis.draws + s.vis.clobbered.length } := rfl
@[simp] theorem State.settleRaces_schedule (s : State) : (s.settleRaces).schedule = s.schedule := rfl
@[simp] theorem State.settleRaces_replies (s : State) : (s.settleRaces).replies = s.replies := rfl

/-! `State.hostRead` -/

@[simp] theorem State.hostRead_work (s : State) (a : Addr) : (s.hostRead a).work = s.work := rfl
@[simp] theorem State.hostRead_args (s : State) (a : Addr) : (s.hostRead a).args = s.args := rfl
@[simp] theorem State.hostRead_result (s : State) (a : Addr) : (s.hostRead a).result = s.result := rfl
@[simp] theorem State.hostRead_mem (s : State) (a : Addr) : (s.hostRead a).mem = s.mem := rfl
@[simp] theorem State.hostRead_denied (s : State) (a : Addr) : (s.hostRead a).denied = s.denied := rfl
@[simp] theorem State.hostRead_stuck (s : State) (a : Addr) : (s.hostRead a).stuck = s.stuck := rfl
@[simp] theorem State.hostRead_vis (s : State) (a : Addr) : (s.hostRead a).vis = (s.hostSees a).2 := rfl
@[simp] theorem State.hostRead_schedule (s : State) (a : Addr) : (s.hostRead a).schedule = s.schedule := rfl
@[simp] theorem State.hostRead_replies (s : State) (a : Addr) : (s.hostRead a).replies = .mem a (s.hostSees a).1 :: s.replies := rfl

/-! `State.encodeLatch` -/

@[simp] theorem State.encodeLatch_work (s : State) (pad : Bool) : (s.encodeLatch pad).work = { (s.work.latch s.args s.args.outCap).start with padReq := pad } := rfl
@[simp] theorem State.encodeLatch_args (s : State) (pad : Bool) : (s.encodeLatch pad).args = s.args := rfl
@[simp] theorem State.encodeLatch_result (s : State) (pad : Bool) : (s.encodeLatch pad).result = Result.cleared := rfl
@[simp] theorem State.encodeLatch_mem (s : State) (pad : Bool) : (s.encodeLatch pad).mem = s.mem := rfl
@[simp] theorem State.encodeLatch_denied (s : State) (pad : Bool) : (s.encodeLatch pad).denied = s.denied := rfl
@[simp] theorem State.encodeLatch_stuck (s : State) (pad : Bool) : (s.encodeLatch pad).stuck = s.stuck := rfl
@[simp] theorem State.encodeLatch_vis (s : State) (pad : Bool) : (s.encodeLatch pad).vis = { s.vis with racing := [], clobbered := [], stale := [], older := s.vis.stale ++ s.vis.older } := rfl
@[simp] theorem State.encodeLatch_schedule (s : State) (pad : Bool) : (s.encodeLatch pad).schedule = s.schedule := rfl
@[simp] theorem State.encodeLatch_replies (s : State) (pad : Bool) : (s.encodeLatch pad).replies = s.replies := rfl

/-! `State.acceptDecode` -/

@[simp] theorem State.acceptDecode_work (s : State) : (s.acceptDecode).work = { (s.work.latch s.args (decodeCapacity s.args.outCap)).start with fsm := .decScan } := rfl
@[simp] theorem State.acceptDecode_args (s : State) : (s.acceptDecode).args = s.args := rfl
@[simp] theorem State.acceptDecode_result (s : State) : (s.acceptDecode).result = Result.cleared := rfl
@[simp] theorem State.acceptDecode_mem (s : State) : (s.acceptDecode).mem = s.mem := rfl
@[simp] theorem State.acceptDecode_denied (s : State) : (s.acceptDecode).denied = s.denied := rfl
@[simp] theorem State.acceptDecode_stuck (s : State) : (s.acceptDecode).stuck = s.stuck := rfl
@[simp] theorem State.acceptDecode_vis (s : State) : (s.acceptDecode).vis = { s.vis with racing := [], clobbered := [], stale := [], older := s.vis.stale ++ s.vis.older } := rfl
@[simp] theorem State.acceptDecode_schedule (s : State) : (s.acceptDecode).schedule = s.schedule := rfl
@[simp] theorem State.acceptDecode_replies (s : State) : (s.acceptDecode).replies = s.replies := rfl

/-! `State.hostWrite` -/

@[simp] theorem State.hostWrite_work (s : State) (a : Addr) (v : Byte) : (s.hostWrite a v).work = s.work := rfl
@[simp] theorem State.hostWrite_args (s : State) (a : Addr) (v : Byte) : (s.hostWrite a v).args = s.args := rfl
@[simp] theorem State.hostWrite_result (s : State) (a : Addr) (v : Byte) : (s.hostWrite a v).result = s.result := rfl
@[simp] theorem State.hostWrite_denied (s : State) (a : Addr) (v : Byte) : (s.hostWrite a v).denied = s.denied := rfl
@[simp] theorem State.hostWrite_stuck (s : State) (a : Addr) (v : Byte) : (s.hostWrite a v).stuck = s.stuck := rfl
@[simp] theorem State.hostWrite_schedule (s : State) (a : Addr) (v : Byte) : (s.hostWrite a v).schedule = s.schedule := rfl
@[simp] theorem State.hostWrite_replies (s : State) (a : Addr) (v : Byte) : (s.hostWrite a v).replies = s.replies := rfl
@[simp] theorem State.hostWrite_mem (s : State) (a : Addr) (v : Byte) : (s.hostWrite a v).mem = Memory.write s.mem a.toNat v := rfl

/-! `State.platformReset` -/

@[simp] theorem State.platformReset_work (s : State) : (s.platformReset).work = Work.reset := rfl
@[simp] theorem State.platformReset_args (s : State) : (s.platformReset).args = Args.reset := rfl
@[simp] theorem State.platformReset_result (s : State) : (s.platformReset).result = Result.cleared := rfl
@[simp] theorem State.platformReset_mem (s : State) : (s.platformReset).mem = s.mem := rfl
@[simp] theorem State.platformReset_denied (s : State) : (s.platformReset).denied = s.denied := rfl
@[simp] theorem State.platformReset_stuck (s : State) : (s.platformReset).stuck = false := rfl
@[simp] theorem State.platformReset_schedule (s : State) : (s.platformReset).schedule = s.schedule := rfl
@[simp] theorem State.platformReset_replies (s : State) : (s.platformReset).replies = s.replies := rfl

/-! `Work.latch` -/

@[simp] theorem Work.latch_fsm (w : Work) (g : Args) (c : Word) : (w.latch g c).fsm = w.fsm := rfl
@[simp] theorem Work.latch_acc (w : Work) (g : Args) (c : Word) : (w.latch g c).acc = w.acc := rfl
@[simp] theorem Work.latch_bits (w : Work) (g : Args) (c : Word) : (w.latch g c).bits = w.bits := rfl
@[simp] theorem Work.latch_cnt (w : Work) (g : Args) (c : Word) : (w.latch g c).cnt = w.cnt := rfl
@[simp] theorem Work.latch_cur (w : Work) (g : Args) (c : Word) : (w.latch g c).cur = w.cur := rfl
@[simp] theorem Work.latch_padStart (w : Work) (g : Args) (c : Word) : (w.latch g c).padStart = w.padStart := rfl
@[simp] theorem Work.latch_padReq (w : Work) (g : Args) (c : Word) : (w.latch g c).padReq = w.padReq := rfl
@[simp] theorem Work.latch_wIn (w : Work) (g : Args) (c : Word) : (w.latch g c).wIn = g.inAddr := rfl
@[simp] theorem Work.latch_wLen (w : Work) (g : Args) (c : Word) : (w.latch g c).wLen = g.inLen := rfl
@[simp] theorem Work.latch_wOut (w : Work) (g : Args) (c : Word) : (w.latch g c).wOut = g.outAddr := rfl
@[simp] theorem Work.latch_wCap (w : Work) (g : Args) (c : Word) : (w.latch g c).wCap = c := rfl

/-! `Work.start` -/

@[simp] theorem Work.start_fsm (w : Work) : (w.start).fsm = w.fsm := rfl
@[simp] theorem Work.start_acc (w : Work) : (w.start).acc = 0#13 := rfl
@[simp] theorem Work.start_bits (w : Work) : (w.start).bits = 0#4 := rfl
@[simp] theorem Work.start_cnt (w : Work) : (w.start).cnt = 0#32 := rfl
@[simp] theorem Work.start_cur (w : Work) : (w.start).cur = 0#32 := rfl
@[simp] theorem Work.start_padStart (w : Work) : (w.start).padStart = false := rfl
@[simp] theorem Work.start_padReq (w : Work) : (w.start).padReq = w.padReq := rfl
@[simp] theorem Work.start_wIn (w : Work) : (w.start).wIn = w.wIn := rfl
@[simp] theorem Work.start_wLen (w : Work) : (w.start).wLen = w.wLen := rfl
@[simp] theorem Work.start_wOut (w : Work) : (w.start).wOut = w.wOut := rfl
@[simp] theorem Work.start_wCap (w : Work) : (w.start).wCap = w.wCap := rfl

/-! `Work.shiftInByte` -/

@[simp] theorem Work.shiftInByte_fsm (w : Work) (c : Byte) : (w.shiftInByte c).fsm = w.fsm := rfl
@[simp] theorem Work.shiftInByte_acc (w : Work) (c : Byte) : (w.shiftInByte c).acc = (w.acc <<< 8) ||| c.setWidth 13 := rfl
@[simp] theorem Work.shiftInByte_bits (w : Work) (c : Byte) : (w.shiftInByte c).bits = w.bits + 8#4 := rfl
@[simp] theorem Work.shiftInByte_cnt (w : Work) (c : Byte) : (w.shiftInByte c).cnt = w.cnt := rfl
@[simp] theorem Work.shiftInByte_cur (w : Work) (c : Byte) : (w.shiftInByte c).cur = w.cur := rfl
@[simp] theorem Work.shiftInByte_padStart (w : Work) (c : Byte) : (w.shiftInByte c).padStart = w.padStart := rfl
@[simp] theorem Work.shiftInByte_padReq (w : Work) (c : Byte) : (w.shiftInByte c).padReq = w.padReq := rfl
@[simp] theorem Work.shiftInByte_wIn (w : Work) (c : Byte) : (w.shiftInByte c).wIn = w.wIn := rfl
@[simp] theorem Work.shiftInByte_wLen (w : Work) (c : Byte) : (w.shiftInByte c).wLen = w.wLen := rfl
@[simp] theorem Work.shiftInByte_wOut (w : Work) (c : Byte) : (w.shiftInByte c).wOut = w.wOut := rfl
@[simp] theorem Work.shiftInByte_wCap (w : Work) (c : Byte) : (w.shiftInByte c).wCap = w.wCap := rfl

/-! `Work.shiftInSymbol` -/

@[simp] theorem Work.shiftInSymbol_fsm (w : Work) (v : Symbol) : (w.shiftInSymbol v).fsm = w.fsm := rfl
@[simp] theorem Work.shiftInSymbol_acc (w : Work) (v : Symbol) : (w.shiftInSymbol v).acc = (w.acc <<< 5) ||| v.setWidth 13 := rfl
@[simp] theorem Work.shiftInSymbol_bits (w : Work) (v : Symbol) : (w.shiftInSymbol v).bits = w.bits + 5#4 := rfl
@[simp] theorem Work.shiftInSymbol_cnt (w : Work) (v : Symbol) : (w.shiftInSymbol v).cnt = w.cnt := rfl
@[simp] theorem Work.shiftInSymbol_cur (w : Work) (v : Symbol) : (w.shiftInSymbol v).cur = w.cur := rfl
@[simp] theorem Work.shiftInSymbol_padStart (w : Work) (v : Symbol) : (w.shiftInSymbol v).padStart = w.padStart := rfl
@[simp] theorem Work.shiftInSymbol_padReq (w : Work) (v : Symbol) : (w.shiftInSymbol v).padReq = w.padReq := rfl
@[simp] theorem Work.shiftInSymbol_wIn (w : Work) (v : Symbol) : (w.shiftInSymbol v).wIn = w.wIn := rfl
@[simp] theorem Work.shiftInSymbol_wLen (w : Work) (v : Symbol) : (w.shiftInSymbol v).wLen = w.wLen := rfl
@[simp] theorem Work.shiftInSymbol_wOut (w : Work) (v : Symbol) : (w.shiftInSymbol v).wOut = w.wOut := rfl
@[simp] theorem Work.shiftInSymbol_wCap (w : Work) (v : Symbol) : (w.shiftInSymbol v).wCap = w.wCap := rfl

/-! `Work.zeroFill` -/

@[simp] theorem Work.zeroFill_fsm (w : Work) : (w.zeroFill).fsm = w.fsm := rfl
@[simp] theorem Work.zeroFill_acc (w : Work) : (w.zeroFill).acc = w.acc <<< (5 - w.bits.toNat) := rfl
@[simp] theorem Work.zeroFill_bits (w : Work) : (w.zeroFill).bits = 5#4 := rfl
@[simp] theorem Work.zeroFill_cnt (w : Work) : (w.zeroFill).cnt = w.cnt := rfl
@[simp] theorem Work.zeroFill_cur (w : Work) : (w.zeroFill).cur = w.cur := rfl
@[simp] theorem Work.zeroFill_padStart (w : Work) : (w.zeroFill).padStart = w.padStart := rfl
@[simp] theorem Work.zeroFill_padReq (w : Work) : (w.zeroFill).padReq = w.padReq := rfl
@[simp] theorem Work.zeroFill_wIn (w : Work) : (w.zeroFill).wIn = w.wIn := rfl
@[simp] theorem Work.zeroFill_wLen (w : Work) : (w.zeroFill).wLen = w.wLen := rfl
@[simp] theorem Work.zeroFill_wOut (w : Work) : (w.zeroFill).wOut = w.wOut := rfl
@[simp] theorem Work.zeroFill_wCap (w : Work) : (w.zeroFill).wCap = w.wCap := rfl

/-! `Work.padStep` -/

@[simp] theorem Work.padStep_fsm (w : Work) : (w.padStep).fsm = w.fsm := rfl
@[simp] theorem Work.padStep_acc (w : Work) : (w.padStep).acc = w.acc := rfl
@[simp] theorem Work.padStep_bits (w : Work) : (w.padStep).bits = dropByte (w.bits + 5#4) := rfl
@[simp] theorem Work.padStep_cnt (w : Work) : (w.padStep).cnt = w.cnt := rfl
@[simp] theorem Work.padStep_cur (w : Work) : (w.padStep).cur = w.cur := rfl
@[simp] theorem Work.padStep_padStart (w : Work) : (w.padStep).padStart = decide (dropByte (w.bits + 5#4) ≠ 0#4) := rfl
@[simp] theorem Work.padStep_padReq (w : Work) : (w.padStep).padReq = w.padReq := rfl
@[simp] theorem Work.padStep_wIn (w : Work) : (w.padStep).wIn = w.wIn := rfl
@[simp] theorem Work.padStep_wLen (w : Work) : (w.padStep).wLen = w.wLen := rfl
@[simp] theorem Work.padStep_wOut (w : Work) : (w.padStep).wOut = w.wOut := rfl
@[simp] theorem Work.padStep_wCap (w : Work) : (w.padStep).wCap = w.wCap := rfl

/-! Visibility -/

@[simp] theorem Visibility.drawn_racing (v : Visibility) : (v.drawn).racing = v.racing := rfl
@[simp] theorem Visibility.drawn_clobbered (v : Visibility) : (v.drawn).clobbered = v.clobbered := rfl
@[simp] theorem Visibility.drawn_stale (v : Visibility) : (v.drawn).stale = v.stale := rfl
@[simp] theorem Visibility.drawn_older (v : Visibility) : (v.drawn).older = v.older := rfl
@[simp] theorem Visibility.drawn_abandoned (v : Visibility) : (v.drawn).abandoned = v.abandoned := rfl
@[simp] theorem Visibility.drawn_draws (v : Visibility) : (v.drawn).draws = v.draws + 1 := rfl
@[simp] theorem Visibility.blockWrote_racing (v : Visibility) (a : Addr) (o : StaleValue) : (v.blockWrote a o).racing = forget v.racing a := rfl
@[simp] theorem Visibility.blockWrote_clobbered (v : Visibility) (a : Addr) (o : StaleValue) : (v.blockWrote a o).clobbered = v.clobbered := rfl
@[simp] theorem Visibility.blockWrote_stale (v : Visibility) (a : Addr) (o : StaleValue) : (v.blockWrote a o).stale = (a, o) :: v.stale := rfl
@[simp] theorem Visibility.blockWrote_older (v : Visibility) (a : Addr) (o : StaleValue) : (v.blockWrote a o).older = v.older := rfl
@[simp] theorem Visibility.blockWrote_abandoned (v : Visibility) (a : Addr) (o : StaleValue) : (v.blockWrote a o).abandoned = dropAbandoned v.abandoned a := rfl
@[simp] theorem Visibility.blockWrote_draws (v : Visibility) (a : Addr) (o : StaleValue) : (v.blockWrote a o).draws = v.draws := rfl

/-! STATUS.BUSY -/

theorem State.busy_iff (s : State) : s.busy = true ↔ s.work.fsm ≠ .idle := by simp [State.busy]

theorem State.not_busy_iff (s : State) : s.busy = false ↔ s.work.fsm = .idle := by simp [State.busy]

@[simp] theorem State.putByte_busy (s : State) (a : Addr) (v : Byte) : (s.putByte a v).busy = s.busy := rfl
@[simp] theorem State.blockPut_busy (s : State) (a : Addr) (v : Byte) : (s.blockPut a v).busy = s.busy := rfl
@[simp] theorem State.hostWrite_busy (s : State) (a : Addr) (v : Byte) : (s.hostWrite a v).busy = s.busy := rfl
@[simp] theorem State.hostRead_busy (s : State) (a : Addr) : (s.hostRead a).busy = s.busy := rfl
@[simp] theorem State.clearResult_busy (s : State) : s.clearResult.busy = s.busy := rfl
@[simp] theorem State.getStuck_busy (s : State) : s.getStuck.busy = s.busy := rfl
@[simp] theorem State.finish_busy (s : State) (n : Word) : (s.finish n).busy = false := rfl
@[simp] theorem State.raiseError_busy (s : State) (c : ErrorCode) : (s.raiseError c).busy = false := rfl
@[simp] theorem State.settleRaces_busy (s : State) : s.settleRaces.busy = s.busy := rfl
@[simp] theorem State.platformReset_busy (s : State) : s.platformReset.busy = false := rfl

end Sys2Proof.Machine
end

