-- ==== Sys2Proof/Laws/Memory.lean ====
section
/-! SUPPORT. The laws of memory: read after write, a write leaves every other address alone, every write keeps the canonical form, and
canonical memories that read the same are equal (log 4). -/

namespace Sys2Proof.Machine

theorem Memory.read_cons_self (rest : List Host.Cell) (a : Nat) (v : Byte) (h : Memory.read rest a = Config.unlistedByte) :
    Memory.read (Memory.cons a v rest) a = v := by
  unfold Memory.cons
  split
  · simp_all
  · simp [Memory.read]

theorem Memory.read_cons_other (rest : List Host.Cell) (a b : Nat) (v : Byte) (h : b ≠ a) :
    Memory.read (Memory.cons a v rest) b = Memory.read rest b := by
  unfold Memory.cons
  split <;> simp [Memory.read, h]

theorem Memory.read_below (lo : Nat) (m : List Host.Cell) (a : Nat) (h : Memory.wfFrom lo m = true) (ha : a < lo) :
    Memory.read m a = Config.unlistedByte := by
  induction m generalizing lo with
  | nil => rfl
  | cons c rest ih =>
    obtain ⟨k, v⟩ := c
    simp only [Memory.wfFrom, Bool.and_eq_true, decide_eq_true_eq] at h
    have hk : a ≠ k := by omega
    simp only [Memory.read, hk, if_false]
    exact ih (k + 1) h.2 (by omega)

theorem Memory.wfFrom_mono (lo hi : Nat) (m : List Host.Cell) (h : Memory.wfFrom hi m = true) (hle : lo ≤ hi) :
    Memory.wfFrom lo m = true := by
  cases m with
  | nil => rfl
  | cons c rest =>
    obtain ⟨k, v⟩ := c
    simp only [Memory.wfFrom, Bool.and_eq_true, decide_eq_true_eq] at h ⊢
    exact ⟨⟨⟨by omega, h.1.1.2⟩, h.1.2⟩, h.2⟩

/-- The listed addresses rise from the first of them on. -/
theorem Memory.wfFrom_head {lo k : Nat} {v : Byte} {rest : List Host.Cell} (h : Memory.wfFrom lo ((k, v) :: rest) = true) :
    Memory.wfFrom k ((k, v) :: rest) = true := by
  simp only [Memory.wfFrom, Bool.and_eq_true, decide_eq_true_eq] at h ⊢
  exact ⟨⟨⟨Nat.le_refl k, h.1.1.2⟩, h.1.2⟩, h.2⟩

theorem Memory.wfFrom_cons (lo a : Nat) (v : Byte) (rest : List Host.Cell) (h : Memory.wfFrom (a + 1) rest = true)
    (hlo : lo ≤ a) (ha : a < 2 ^ 32) : Memory.wfFrom lo (Memory.cons a v rest) = true := by
  unfold Memory.cons
  split
  · exact Memory.wfFrom_mono lo (a + 1) rest h (by omega)
  · simp_all [Memory.wfFrom]

theorem Memory.wfFrom_write (lo a : Nat) (v : Byte) (m : List Host.Cell) (h : Memory.wfFrom lo m = true)
    (hlo : lo ≤ a) (ha : a < 2 ^ 32) : Memory.wfFrom lo (Memory.write m a v) = true := by
  induction m generalizing lo with
  | nil => exact Memory.wfFrom_cons lo a v [] rfl hlo ha
  | cons c rest ih =>
    obtain ⟨k, w⟩ := c
    have h' := h
    simp only [Memory.wfFrom, Bool.and_eq_true, decide_eq_true_eq] at h'
    simp only [Memory.write]
    split
    · exact Memory.wfFrom_cons lo a v _ (Memory.wfFrom_mono (a + 1) k _ (Memory.wfFrom_head h) ‹_›) hlo ha
    · split
      · subst_vars; exact Memory.wfFrom_cons lo k v rest h'.2 hlo ha
      · simp only [Memory.wfFrom, Bool.and_eq_true, decide_eq_true_eq]
        exact ⟨h'.1, ih (k + 1) h'.2 (by omega)⟩

/-- Every write keeps the canonical form. -/
theorem Memory.wf_write (m : List Host.Cell) (a : Nat) (v : Byte) (h : Memory.wf m = true) (ha : a < 2 ^ 32) :
    Memory.wf (Memory.write m a v) = true :=
  Memory.wfFrom_write 0 a v m h (Nat.zero_le a) ha

theorem Memory.read_write_self_from (lo a : Nat) (v : Byte) (m : List Host.Cell) (h : Memory.wfFrom lo m = true) :
    Memory.read (Memory.write m a v) a = v := by
  induction m generalizing lo with
  | nil => exact Memory.read_cons_self [] a v rfl
  | cons c rest ih =>
    obtain ⟨k, w⟩ := c
    have h' := h
    simp only [Memory.wfFrom, Bool.and_eq_true, decide_eq_true_eq] at h'
    simp only [Memory.write]
    split
    · exact Memory.read_cons_self _ a v (Memory.read_below k _ a (Memory.wfFrom_head h) ‹_›)
    · split
      · subst_vars; exact Memory.read_cons_self rest k v (Memory.read_below (k + 1) rest k h'.2 (by omega))
      · simp only [Memory.read, ‹¬ a = k›, if_false]
        exact ih (k + 1) h'.2

/-- A read after a write to the same address gives the value written. -/
theorem Memory.read_write_self (m : List Host.Cell) (a : Nat) (v : Byte) (h : Memory.wf m = true) :
    Memory.read (Memory.write m a v) a = v :=
  Memory.read_write_self_from 0 a v m h

/-- A write leaves every other address alone, canonical form or not. -/
theorem Memory.read_write_other (m : List Host.Cell) (a b : Nat) (v : Byte) (h : b ≠ a) :
    Memory.read (Memory.write m a v) b = Memory.read m b := by
  induction m with
  | nil => exact Memory.read_cons_other [] a b v h
  | cons c rest ih =>
    obtain ⟨k, w⟩ := c
    simp only [Memory.write]
    split
    · exact Memory.read_cons_other _ a b v h
    · split
      · subst_vars; simp [Memory.read_cons_other rest _ b v h, Memory.read, h]
      · simp only [Memory.read, ih]

theorem Memory.read_in_wf (lo : Nat) (m : List Host.Cell) (k : Nat) (v : Byte) (h : Memory.wfFrom lo ((k, v) :: m) = true) :
    Memory.read ((k, v) :: m) k ≠ Config.unlistedByte := by
  simp only [Memory.wfFrom, Bool.and_eq_true, decide_eq_true_eq] at h
  simpa [Memory.read] using h.1.2

theorem Memory.ext_from (lo : Nat) (m n : List Host.Cell) (hm : Memory.wfFrom lo m = true) (hn : Memory.wfFrom lo n = true)
    (h : ∀ a, Memory.read m a = Memory.read n a) : m = n := by
  induction m generalizing lo n with
  | nil =>
    cases n with
    | nil => rfl
    | cons d rest => exact absurd (h d.1).symm (Memory.read_in_wf lo rest d.1 d.2 hn)
  | cons c rest ih =>
    cases n with
    | nil => exact absurd (h c.1) (Memory.read_in_wf lo rest c.1 c.2 hm)
    | cons d rest' =>
      obtain ⟨k, v⟩ := c
      obtain ⟨l, w⟩ := d
      have hm' := hm
      have hn' := hn
      simp only [Memory.wfFrom, Bool.and_eq_true, decide_eq_true_eq] at hm' hn'
      have hkl : k = l := by
        rcases Nat.lt_trichotomy k l with hlt | heq | hgt
        · have := Memory.read_below l ((l, w) :: rest') k (Memory.wfFrom_head hn) hlt
          exact absurd ((h k).trans this) (Memory.read_in_wf lo rest k v hm)
        · exact heq
        · have := Memory.read_below k ((k, v) :: rest) l (Memory.wfFrom_head hm) hgt
          exact absurd ((h l).symm.trans this) (Memory.read_in_wf lo rest' l w hn)
      subst hkl
      have hvw : v = w := by simpa [Memory.read] using h k
      subst hvw
      have : rest = rest' := by
        refine ih (k + 1) rest' hm'.2 hn'.2 fun a => ?_
        have ha := h a
        simp only [Memory.read] at ha
        by_cases hak : a = k
        · rw [hak, Memory.read_below (k + 1) rest k hm'.2 (by omega), Memory.read_below (k + 1) rest' k hn'.2 (by omega)]
        · simpa [hak] using ha
      rw [this]

/-- Canonical memories that read the same everywhere are equal lists. -/
theorem Memory.ext (m n : List Host.Cell) (hm : Memory.wf m = true) (hn : Memory.wf n = true)
    (h : ∀ a, Memory.read m a = Memory.read n a) : m = n :=
  Memory.ext_from 0 m n hm hn h

/-! ### Bytes at addresses of the port -/

theorem State.byteAt_putByte_self (s : State) (a : Addr) (v : Byte) (h : Memory.wf s.mem = true) : (s.putByte a v).byteAt a = v :=
  Memory.read_write_self s.mem a.toNat v h

theorem State.byteAt_putByte_other (s : State) (a b : Addr) (v : Byte) (h : b ≠ a) : (s.putByte a v).byteAt b = s.byteAt b :=
  Memory.read_write_other s.mem a.toNat b.toNat v fun e => h (BitVec.eq_of_toNat_eq e)

theorem State.byteAt_blockPut_self (s : State) (a : Addr) (v : Byte) (h : Memory.wf s.mem = true) : (s.blockPut a v).byteAt a = v :=
  Memory.read_write_self s.mem a.toNat v h

theorem State.byteAt_blockPut_other (s : State) (a b : Addr) (v : Byte) (h : b ≠ a) : (s.blockPut a v).byteAt b = s.byteAt b :=
  Memory.read_write_other s.mem a.toNat b.toNat v fun e => h (BitVec.eq_of_toNat_eq e)

/-- A byte depends on memory alone. -/
theorem State.byteAt_congr {s t : State} (h : t.mem = s.mem) (a : Addr) : t.byteAt a = s.byteAt a := by
  simp [State.byteAt, h]

theorem State.wf_blockPut (s : State) (a : Addr) (v : Byte) (h : Memory.wf s.mem = true) : Memory.wf (s.blockPut a v).mem = true :=
  Memory.wf_write s.mem a.toNat v h a.isLt

theorem State.wf_hostWrite (s : State) (a : Addr) (v : Byte) (h : Memory.wf s.mem = true) : Memory.wf (s.hostWrite a v).mem = true :=
  Memory.wf_write s.mem a.toNat v h a.isLt

theorem wf_clobber (m : List Host.Cell) (l : List Addr) (n : Nat) (h : Memory.wf m = true) : Memory.wf (clobber m l n) = true := by
  induction l generalizing m n with
  | nil => exact h
  | cons a rest ih => exact ih _ _ (Memory.wf_write m a.toNat _ h a.isLt)

theorem read_clobber_other (m : List Host.Cell) (l : List Addr) (n : Nat) (b : Addr) (h : b ∉ l) :
    Memory.read (clobber m l n) b.toNat = Memory.read m b.toNat := by
  induction l generalizing m n with
  | nil => rfl
  | cons a rest ih =>
    simp only [List.mem_cons, not_or] at h
    simp only [clobber, ih _ _ h.2]
    exact Memory.read_write_other m a.toNat b.toNat _ fun e => h.1 (BitVec.eq_of_toNat_eq e)

end Sys2Proof.Machine
end

