-- ==== Sys2Proof/Laws/Port.lean ====
section
/-! SUPPORT. The laws of the master port: everything a block read or a block write can do (20_memory.md R60 to R74). -/

namespace Sys2Proof.Machine

/-- A choice is one of the values it is made from. -/
theorem choose_mem {α : Type} (x : α) (xs : List α) (n : Nat) : choose x xs n ∈ x :: xs := by
  unfold choose
  cases h : (x :: xs)[Config.raceChoice n % (xs.length + 1)]? with
  | none => simp
  | some y => exact List.mem_of_getElem? h

@[simp] theorem choose_single {α : Type} (x : α) (n : Nat) : choose x [] n = x := by simpa using choose_mem x [] n

theorem mem_valuesAt {α : Type} (l : List (Addr × α)) (a : Addr) (x : α) : x ∈ valuesAt l a ↔ (a, x) ∈ l := by
  simp [valuesAt]

theorem valuesAt_cons {α : Type} (l : List (Addr × α)) (a b : Addr) (x : α) :
    valuesAt ((b, x) :: l) a = if b = a then x :: valuesAt l a else valuesAt l a := by
  by_cases h : b = a <;> simp [valuesAt, h]

@[simp] theorem valuesAt_nil {α : Type} (a : Addr) : valuesAt ([] : List (Addr × α)) a = [] := rfl

theorem valuesAt_forget_self {α : Type} (l : List (Addr × α)) (a : Addr) : valuesAt (forget l a) a = [] := by
  simp [valuesAt, forget, List.filter_filter]

theorem forget_all {α : Type} (l : List (Addr × α)) (a : Addr) (p : Addr × α → Bool) (h : l.all p = true) : (forget l a).all p = true := by
  simp only [forget, List.all_eq_true, List.mem_filter] at h ⊢
  exact fun x hx => h x hx.1

/-- A block read has a step exactly where the platform admits it (R69). -/
theorem State.blockRead_isSome (s : State) (a : Addr) : (s.blockRead a).isSome = s.admits .read a := by
  unfold State.blockRead
  split
  · split <;> simp_all
  · simp_all

/-- Everything a block read can do: it returns the byte memory holds or, of a byte the host raced for, one of the racing values,
and it changes nothing but the count of free values drawn (R72, R74). -/
theorem State.blockRead_some {s t : State} {a : Addr} {c : Byte} (h : s.blockRead a = some (c, t)) :
    s.admits .read a = true ∧ (∃ n, t = { s with vis := { s.vis with draws := n } }) ∧
      (valuesAt s.vis.racing a = [] ∧ c = s.byteAt a ∧ t = s ∨ c ∈ valuesAt s.vis.racing a) := by
  unfold State.blockRead at h
  split at h
  · refine ⟨‹_›, ?_⟩
    split at h
    · cases h; exact ⟨⟨s.vis.draws, rfl⟩, .inl ⟨‹_›, rfl, rfl⟩⟩
    · rename_i v vs hv
      cases h
      exact ⟨⟨s.vis.draws + 1, rfl⟩, .inr (hv ▸ choose_mem v vs s.vis.draws)⟩
  · cases h

/-- A block read of a byte nobody raced for (R72). -/
theorem State.blockRead_plain (s : State) (a : Addr) (h : s.admits .read a = true) (hr : valuesAt s.vis.racing a = []) :
    s.blockRead a = some (s.byteAt a, s) := by
  simp [State.blockRead, h, hr]

/-- Everything a block write can do (R69). -/
theorem State.blockWrite_eq_some (s t : State) (a : Addr) (v : Byte) :
    s.blockWrite a v = some t ↔ s.admits .write a = true ∧ t = s.blockPut a v := by
  unfold State.blockWrite
  split
  · exact ⟨fun h => ⟨‹_›, (Option.some.inj h).symm⟩, fun h => congrArg some h.2.symm⟩
  · exact ⟨fun h => (nomatch h), fun h => absurd h.1 ‹_›⟩

theorem State.blockWrite_admitted (s : State) (a : Addr) (v : Byte) (h : s.admits .write a = true) :
    s.blockWrite a v = some (s.blockPut a v) := by
  simp [State.blockWrite, h]

theorem valuesAt_append {α : Type} (l m : List (Addr × α)) (a : Addr) : valuesAt (l ++ m) a = valuesAt l a ++ valuesAt m a := by
  simp [valuesAt]

/-- Of an output byte of the running command only what it held during that command may still be seen (R74 second bullet). -/
theorem State.olderAt_of_output (s : State) (a : Addr) (hb : s.busy = true) (h : s.work.outputRegion.contains a = true) :
    s.olderAt a = valuesAt s.vis.stale a := by
  simp [State.olderAt, hb, h]

/-- While idle, whatever no completion point has ended may be seen (R73). -/
theorem State.olderAt_of_idle (s : State) (a : Addr) (hb : s.busy = false) : s.olderAt a = valuesAt s.vis.stale a ++ valuesAt s.vis.older a := by
  simp [State.olderAt, hb]

/-- Outside the abandoned regions the host may see what memory holds (R212). -/
theorem State.seenAt_of_kept (s : State) (a : Addr) (h : ∀ r ∈ s.vis.abandoned, r.contains a = false) : s.seenAt a = .value (s.byteAt a) := by
  unfold State.seenAt
  rw [if_neg]
  simpa using h

/-- Everything a host read of a byte with a definite value can return: that value, or one that may still be seen (R73, R74). -/
theorem State.hostSees_of_kept (s : State) (a : Addr) (b : Byte) (h : s.seenAt a = .value b) (ho : .any ∉ s.olderAt a) :
    (s.hostSees a).1 = b ∨ .value (s.hostSees a).1 ∈ s.olderAt a := by
  unfold State.hostSees
  rw [h]
  split
  · rename_i e _; cases e; exact .inl rfl
  · have hm := choose_mem (StaleValue.value b) (s.olderAt a) s.vis.draws
    dsimp only
    generalize choose (StaleValue.value b) (s.olderAt a) s.vis.draws = x at hm ⊢
    cases x with
    | value c => simpa [StaleValue.byte] using hm
    | any => exact absurd (by simpa using hm) ho

/-- A platform with no hole admits every access (R69). -/
theorem State.admits_of_no_hole (s : State) (k : AccessKind) (a : Addr) (h : s.denied = []) : s.admits k a = true := by
  simp [State.admits, h]

/-- Admission depends on the platform alone. -/
theorem State.admits_congr {s t : State} (h : t.denied = s.denied) (k : AccessKind) (a : Addr) : t.admits k a = s.admits k a := by
  simp [State.admits, h]

/-- The address `i` places after the base of a region lies in it exactly when `i` is below its size (R64). -/
theorem Region.contains_add (base i : Addr) (n : Nat) : Region.contains ⟨base, n⟩ (base + i) = decide (i.toNat < n) := by
  have : base + i - base = i := by rw [BitVec.add_comm, BitVec.add_sub_cancel]
  simp [Region.contains, this]

/-- What no step rule of the block changes: the argument registers, the latched arguments, the platform and the interleaving. -/
structure SameFixed (s t : State) : Prop where
  args     : t.args = s.args
  denied   : t.denied = s.denied
  stuck    : t.stuck = s.stuck
  schedule : t.schedule = s.schedule
  replies  : t.replies = s.replies
  padReq   : t.work.padReq = s.work.padReq
  wIn      : t.work.wIn = s.work.wIn
  wLen     : t.work.wLen = s.work.wLen
  wOut     : t.work.wOut = s.work.wOut
  wCap     : t.work.wCap = s.work.wCap

theorem SameFixed.refl (s : State) : SameFixed s s := ⟨rfl, rfl, rfl, rfl, rfl, rfl, rfl, rfl, rfl, rfl⟩

theorem SameFixed.trans {s t u : State} (h : SameFixed s t) (g : SameFixed t u) : SameFixed s u :=
  ⟨g.args.trans h.args, g.denied.trans h.denied, g.stuck.trans h.stuck, g.schedule.trans h.schedule, g.replies.trans h.replies, g.padReq.trans h.padReq,
    g.wIn.trans h.wIn, g.wLen.trans h.wLen, g.wOut.trans h.wOut, g.wCap.trans h.wCap⟩

end Sys2Proof.Machine
end

