-- ==== Sys2Proof/Laws/Buffers.lean ====
section
/-! SUPPORT. Buffers read as lists of bytes, and buffers that lie apart (20_memory.md R64; 70_reset_and_hazards.md R224). -/

namespace Sys2Proof.Machine

@[simp] theorem State.bytesFrom_length (s : State) (base : Addr) (n : Nat) : (s.bytesFrom base n).length = n := by simp [State.bytesFrom]

theorem State.bytesFrom_getElem? (s : State) (base : Addr) (n i : Nat) (h : i < n) :
    (s.bytesFrom base n)[i]? = some (s.byteAt (base + BitVec.ofNat 32 i)) := by
  simp [State.bytesFrom, List.getElem?_range h]

/-- A buffer holds a list if each byte is the list's. -/
theorem State.bytesFrom_eq (s : State) (base : Addr) (n : Nat) (l : List Byte) (hl : l.length = n)
    (h : ∀ i, i < n → s.byteAt (base + BitVec.ofNat 32 i) = l.getD i 0#8) : s.bytesFrom base n = l := by
  apply List.ext_getElem?
  intro i
  by_cases hi : i < n
  · rw [State.bytesFrom_getElem? _ _ _ _ hi, h i hi, List.getD_eq_getElem?_getD, List.getElem?_eq_getElem (hl ▸ hi)]
    rfl
  · rw [List.getElem?_eq_none (by rw [State.bytesFrom_length]; omega), List.getElem?_eq_none (by omega)]

/-- A byte of one buffer lies outside a buffer apart from it. -/
theorem Region.apart_at {base out : Addr} {n c : Nat} (h : Region.apart ⟨base, n⟩ ⟨out, c⟩) (hn : n ≤ 2 ^ 32) (i : Nat) (hi : i < n) :
    Region.contains ⟨out, c⟩ (base + BitVec.ofNat 32 i) = false := by
  by_contra hc
  refine h (base + BitVec.ofNat 32 i) ⟨?_, by simpa using hc⟩
  rw [Region.contains_add]
  simp
  omega

/-- Regions that do not wrap, one below the other, are apart. -/
theorem Region.apart_of_below (r q : Region) (h : r.base.toNat + r.size ≤ q.base.toNat) (hq : q.base.toNat + q.size ≤ 2 ^ 32) : Region.apart r q := by
  rintro a ⟨h1, h2⟩
  simp only [Region.contains, decide_eq_true_eq, BitVec.toNat_sub] at h1 h2
  have := a.isLt
  have := r.base.isLt
  have := q.base.isLt
  omega

/-- What is left of a region without an address does not hold the address. -/
theorem Region.without_self (r : Region) (a : Addr) : ∀ q ∈ r.without a, q.contains a = false := by
  intro q hq
  unfold Region.without at hq
  split at hq
  · simp only [List.mem_cons, List.not_mem_nil, or_false] at hq
    rcases hq with rfl | rfl
    · simp [Region.contains]
    · have : a - (a + 1#32) = 0xFFFFFFFF#32 := by
        apply BitVec.eq_of_toNat_eq
        simp only [BitVec.toNat_sub, BitVec.toNat_add, BitVec.toNat_ofNat]
        have := a.isLt
        omega
      simp only [Region.contains, this]
      simp
  · simp_all

end Sys2Proof.Machine
end

