-- ==== Sys2Proof/Laws/Codec.lean ====
section
/-! SUPPORT. The laws of the tables (30_encoding.md R81 to R86): one lemma per way a byte is classified. -/

namespace Sys2Proof.Machine

/-- LOOKUP undoes ALPHABET (R84). -/
theorem lookup_alphabet (i : Symbol) : lookup (alphabet i) = some i := by
  revert i; decide

/-- ALPHABET gives no typo digit, separator or `=` (R82). -/
theorem classify_alphabet (i : Symbol) : classify (alphabet i) = .sym i := by
  revert i; decide

theorem classify_padByte : classify padByte = .pad := by decide

/-- The class PAD is `=` (R86). -/
theorem classify_eq_pad {c : Byte} : classify c = .pad ↔ c = padByte := by
  unfold classify
  split
  · simp_all
  · split
    · simp_all
    · split <;> simp_all

/-- The class SEP is the separators (R86). -/
theorem classify_eq_sep {c : Byte} : classify c = .sep ↔ c ≠ padByte ∧ isSeparator c = true := by
  unfold classify
  split
  · simp_all
  · split
    · simp_all
    · split <;> simp_all

/-- The class SYM is what LOOKUP knows after typo correction (R86). -/
theorem classify_eq_sym {c : Byte} {v : Symbol} :
    classify c = .sym v ↔ c ≠ padByte ∧ isSeparator c = false ∧ lookup (typo c) = some v := by
  unfold classify
  split
  · simp_all
  · split
    · simp_all
    · split <;> simp_all

/-- The class BAD is the rest (R86). -/
theorem classify_eq_bad {c : Byte} : classify c = .bad ↔ c ≠ padByte ∧ isSeparator c = false ∧ lookup (typo c) = none := by
  unfold classify
  split
  · simp_all
  · split
    · simp_all
    · split <;> simp_all

/-- The separators as a list (R83, R108). -/
theorem isSeparator_iff (c : Byte) : isSeparator c = true ↔ c ∈ [0x20#8, 0x09#8, 0x0D#8, 0x0A#8, 0x2D#8] := by
  simp [isSeparator, or_assoc]

theorem padByte_not_separator : isSeparator padByte = false := by decide

end Sys2Proof.Machine
end

