-- ==== Sys2Proof/Laws/Commands.lean ====
section
/-! SUPPORT. What a command word does when it reaches the block: the fields of a word, acceptance in each of its cases, and the values
of STATUS (42_control.md R160 to R164; 41_encode.md R131; 60_exceptions.md R203). -/

namespace Sys2Proof

/-! ### Command words and their fields -/

theorem CommandFields.toWord_ofWord (w : Word) : (CommandFields.ofWord w).toWord = w := by
  simp only [CommandFields.ofWord, CommandFields.toWord]
  ext k hk
  simp
  grind

theorem CommandFields.ofWord_toWord (f : CommandFields) : CommandFields.ofWord f.toWord = f := by
  obtain ⟨op, pad, rsv⟩ := f
  simp only [CommandFields.ofWord, CommandFields.toWord, CommandFields.mk.injEq]
  refine ⟨?_, ?_, ?_⟩ <;> ext k hk <;> simp <;> grind

/-- Legal fields are those of one instruction (R90). -/
theorem CommandFields.instr_iff (f : CommandFields) (i : Instr) : f.fault = none ∧ f.instr = .ok i ↔ f = i.fields := by
  obtain ⟨op, pad, rsv⟩ := f
  by_cases h : rsv = 0#29
  · subst h
    revert op pad
    cases i <;> decide
  · cases i <;> simp [CommandFields.fault, Instr.fields, h]

namespace Machine

variable {s : State}

/-! ### Acceptance -/

theorem whenIdle_of_idle (f : State → State) (h : s.busy = false) : whenIdle f s = .next (f s) := by simp [whenIdle, h]

theorem whenIdle_of_busy (f : State → State) (h : s.busy = true) : whenIdle f s = .next s := by simp [whenIdle, h]

/-- No command touches a busy block (R164). -/
theorem exec_of_busy (i : Instr) (h : s.busy = true) : exec i s = .next s := by
  cases i <;> exact whenIdle_of_busy _ h

theorem exec_encode_of_idle (pad : Bool) (h : s.busy = false) : exec (if pad then .encPad else .enc) s = .next (s.acceptEncode pad) := by
  cases pad <;> exact whenIdle_of_idle _ h

theorem exec_dec_of_idle (h : s.busy = false) : exec .dec s = .next s.acceptDecode := whenIdle_of_idle _ h

/-- The three ways an ENCODE's acceptance goes, in the order of the checks (R131, R188). -/
theorem acceptEncode_cases (s : State) (pad : Bool) :
    (2 ^ 28 ≤ s.args.inLen.toNat ∧ s.acceptEncode pad = (s.encodeLatch pad).raiseError .invalidLength) ∨
    (s.args.inLen.toNat < 2 ^ 28 ∧ s32 s.args.outCap ≤ 0 ∧ s.acceptEncode pad = (s.encodeLatch pad).raiseError .invalidCapacity) ∨
    (s.args.inLen.toNat < 2 ^ 28 ∧ 0 < s32 s.args.outCap ∧
      s.acceptEncode pad = (s.encodeLatch pad).goto (if s.args.inLen = 0#32 then .encData else .encInit)) := by
  unfold State.acceptEncode State.encodeStart
  split
  · rename_i h
    exact .inl ⟨of_decide_eq_true h, rfl⟩
  · rename_i h
    have hl : s.args.inLen.toNat < 2 ^ 28 := Nat.not_le.mp fun hh => h (decide_eq_true hh)
    split
    · rename_i hc
      exact .inr (.inl ⟨hl, of_decide_eq_true hc, rfl⟩)
    · rename_i hc
      exact .inr (.inr ⟨hl, not_le.mp fun hh => hc (decide_eq_true hh), rfl⟩)

/-- A host write to CMD hands the word to the command dispatch (R31). -/
theorem step_commandWrite {w : Word} {rest : List Event} (h : s.schedule = .regWrite 0x00 .word w :: rest) :
    step s = commandWrite w { s with schedule := rest } := by
  simp [step, h, eventStep, hostRegWrite, accessedReg, regAt, Config.windowBytes]

/-! ### STATUS -/

theorem statusWord_of_idle (h : s.busy = false) :
    s.statusWord = 0#24 ++ s.result.errField ++ 0#1 ++ BitVec.ofBool s.result.err ++ BitVec.ofBool s.result.done ++ 0#1 := by
  simp [State.statusWord, h]

/-- STATUS after a success (R185). -/
theorem statusWord_success (h : s.busy = false) {n : Word} (hr : s.result = ⟨true, false, none, n⟩) : s.statusWord = 0x00000002#32 := by
  rw [statusWord_of_idle h, hr]; simp only [Result.errField]; decide

/-- STATUS after an error (R186). -/
theorem statusWord_error (h : s.busy = false) {n : Word} {c : ErrorCode} (hr : s.result = ⟨true, true, some c, n⟩) :
    s.statusWord = 0x00000006#32 ||| (c.number.setWidth 32 <<< 4) := by
  rw [statusWord_of_idle h, hr]; cases c <;> simp only [Result.errField] <;> decide

/-- STATUS with nothing recorded, idle (R203). -/
theorem statusWord_cleared (h : s.busy = false) (hr : s.result = Result.cleared) : s.statusWord = 0x00000000#32 := by
  rw [statusWord_of_idle h, hr]; decide

/-- STATUS while a command runs (R203). -/
theorem statusWord_running (h : s.busy = true) (hr : s.result = Result.cleared) : s.statusWord = 0x00000001#32 := by
  simp only [State.statusWord, h, hr]; decide

end Machine

end Sys2Proof
end

