-- ==== Sys2Proof/Laws/Rules.lean ====
section
/-! SUPPORT. What each step rule of the block can do, said once: one inversion lemma per rule of 41_encode.md and 40_decode.md. -/

namespace Sys2Proof.Machine

variable {s t : State}

/-- ENC_INIT (R134). -/
theorem encInit_some (h : encInit s = some t) : ∃ c u, s.blockRead (s.work.inByte 0#32) = some (c, u) ∧
    t = { u with work := { u.work with acc := c.setWidth 13, bits := 8#4, cur := 1#32, fsm := .encData } } := by
  simp only [encInit, Option.map_eq_some_iff, Prod.exists] at h
  obtain ⟨c, u, hr, rfl⟩ := h
  exact ⟨c, u, hr, rfl⟩

/-- The refill (R137), the zero-fill (R138), or nothing. -/
theorem encRefill_some (h : encRefill s = some t) :
    (5#4 ≤ s.work.bits ∧ t = s) ∨
    (¬ 5#4 ≤ s.work.bits ∧ s.work.moreInput = true ∧ ∃ c u, s.blockRead (s.work.inByte s.work.cur) = some (c, u) ∧
      t = { u with work := { u.work.shiftInByte c with cur := u.work.cur + 1#32 } }) ∨
    (¬ 5#4 ≤ s.work.bits ∧ s.work.moreInput = false ∧ t = { s with work := s.work.zeroFill }) := by
  unfold encRefill at h
  split at h
  · cases h; exact .inl ⟨‹_›, rfl⟩
  · split at h
    · simp only [Option.map_eq_some_iff, Prod.exists] at h
      obtain ⟨c, u, hr, rfl⟩ := h
      exact .inr (.inl ⟨‹_›, ‹_›, c, u, hr, rfl⟩)
    · cases h; exact .inr (.inr ⟨‹_›, by simpa using ‹¬ s.work.moreInput = true›, rfl⟩)

/-- One character emitted (R139, R140). -/
theorem encEmit_some (h : encEmit s = some t) : s.admits .write (s.work.outSlot s.work.cnt) = true ∧
    t = { s.blockPut (s.work.outSlot s.work.cnt) (alphabet s.work.topSymbol) with
      work := { s.work with cnt := s.work.cnt + 1#32, bits := s.work.bits - 5#4 } } := by
  simp only [encEmit, Option.map_eq_some_iff, State.blockWrite_eq_some] at h
  obtain ⟨u, ⟨ha, rfl⟩, rfl⟩ := h
  exact ⟨ha, rfl⟩

/-- ENC_DATA (R136): an iteration, or the step that leaves the loop. -/
theorem encData_some (h : encData s = some t) :
    (s.work.dataLoop = true ∧ ∃ u, encRefill s = some u ∧ encEmit u = some t) ∨
    (s.work.dataLoop = false ∧ t = s.goto .encPad) := by
  unfold encData at h
  split at h
  · obtain ⟨u, hu, ht⟩ := Option.bind_eq_some_iff.mp h
    exact .inl ⟨‹_›, u, hu, ht⟩
  · cases h; exact .inr ⟨by simpa using ‹¬ s.work.dataLoop = true›, rfl⟩

/-- ENC_PAD (R141). -/
theorem encPad_some (h : encPad s = some t) :
    (s.work.padLoop = true ∧ s.admits .write (s.work.outSlot s.work.cnt) = true ∧
      t = { s.blockPut (s.work.outSlot s.work.cnt) padByte with work := { s.work with cnt := s.work.cnt + 1#32 } }) ∨
    (s.work.padLoop = false ∧ t = s.goto .encFin) := by
  unfold encPad at h
  split at h
  · simp only [Option.map_eq_some_iff, State.blockWrite_eq_some] at h
    obtain ⟨u, ⟨ha, rfl⟩, rfl⟩ := h
    exact .inl ⟨‹_›, ha, rfl⟩
  · cases h; exact .inr ⟨by simpa using ‹¬ s.work.padLoop = true›, rfl⟩

/-- ENC_FIN (R142). -/
theorem encFin_some (h : encFin s = some t) :
    (s.work.complete = true ∧ s.work.roomLeft = true ∧ s.admits .write (s.work.outSlot s.work.cnt) = true ∧
      t = (s.blockPut (s.work.outSlot s.work.cnt) nul).finish s.work.cnt) ∨
    ((s.work.complete && s.work.roomLeft) = false ∧ s.admits .write (s.work.outSlot (s.work.wCap - 1#32)) = true ∧
      t = (s.blockPut (s.work.outSlot (s.work.wCap - 1#32)) nul).raiseError .bufferTooSmall) := by
  unfold encFin at h
  split at h
  · rename_i hc
    simp only [Bool.and_eq_true] at hc
    simp only [Option.map_eq_some_iff, State.blockWrite_eq_some] at h
    obtain ⟨u, ⟨ha, rfl⟩, rfl⟩ := h
    exact .inl ⟨hc.1, hc.2, ha, rfl⟩
  · rename_i hc
    simp only [Option.map_eq_some_iff, State.blockWrite_eq_some] at h
    obtain ⟨u, ⟨ha, rfl⟩, rfl⟩ := h
    exact .inr ⟨by simpa using hc, ha, rfl⟩

/-- Emission (R113) and consumption (R114) of a data byte. -/
theorem decEmit_some (h : decEmit s = some t) :
    (8#4 ≤ s.work.bits ∧ s.work.roomLeft = true ∧ s.admits .write (s.work.outSlot s.work.cnt) = true ∧
      t = { s.blockPut (s.work.outSlot s.work.cnt) s.work.topByte with
        work := { s.work with cnt := s.work.cnt + 1#32, bits := s.work.bits - 8#4 } }) ∨
    (8#4 ≤ s.work.bits ∧ s.work.roomLeft = false ∧ t = { s with work := { s.work with bits := s.work.bits - 8#4 } }) ∨
    (¬ 8#4 ≤ s.work.bits ∧ t = s) := by
  unfold decEmit at h
  split at h
  · split at h
    · simp only [Option.map_eq_some_iff, State.blockWrite_eq_some] at h
      obtain ⟨u, ⟨ha, rfl⟩, rfl⟩ := h
      exact .inl ⟨‹_›, ‹_›, ha, rfl⟩
    · cases h; exact .inr (.inl ⟨‹_›, by simpa using ‹¬ s.work.roomLeft = true›, rfl⟩)
  · cases h; exact .inr (.inr ⟨‹_›, rfl⟩)

/-- A byte outside a padding run that is no separator (R109 to R114). -/
theorem decSymbol_some {c : Byte} (h : decSymbol s c = some t) :
    (lookup (typo c) = none ∧ t = s.raiseError .invalidCharacter) ∨
    (∃ v, lookup (typo c) = some v ∧ decEmit { s with work := s.work.shiftInSymbol v } = some t) := by
  unfold decSymbol at h
  split at h
  · cases h; exact .inl ⟨‹_›, rfl⟩
  · exact .inr ⟨_, ‹_›, h⟩

/-- The dispatch of a byte (R105). -/
theorem decByte_some {c : Byte} (h : decByte s c = some t) :
    (c = padByte ∧ t = { s with work := s.work.padStep }) ∨
    (c ≠ padByte ∧ s.work.padStart = true ∧ t = s.raiseError .invalidCharacter) ∨
    (c ≠ padByte ∧ s.work.padStart = false ∧ isSeparator c = true ∧ t = s) ∨
    (c ≠ padByte ∧ s.work.padStart = false ∧ isSeparator c = false ∧ decSymbol s c = some t) := by
  unfold decByte at h
  split at h
  · cases h; exact .inl ⟨‹_›, rfl⟩
  · split at h
    · cases h; exact .inr (.inl ⟨‹_›, ‹_›, rfl⟩)
    · have hp : s.work.padStart = false := by simpa using ‹¬ s.work.padStart = true›
      split at h
      · cases h; exact .inr (.inr (.inl ⟨‹_›, hp, ‹_›, rfl⟩))
      · exact .inr (.inr (.inr ⟨‹_›, hp, by simpa using ‹¬ isSeparator c = true›, h⟩))

/-- DEC_SCAN (R103, R104). -/
theorem decScan_some (h : decScan s = some t) :
    (s.work.moreInput = true ∧ ∃ c u, s.blockRead (s.work.inByte s.work.cur) = some (c, u) ∧
      decByte { u with work := { u.work with cur := u.work.cur + 1#32 } } c = some t) ∨
    (s.work.moreInput = false ∧ t = s.goto .decFin) := by
  unfold decScan at h
  split at h
  · obtain ⟨⟨c, u⟩, hr, hb⟩ := Option.bind_eq_some_iff.mp h
    exact .inl ⟨‹_›, c, u, hr, hb⟩
  · cases h; exact .inr ⟨by simpa using ‹¬ s.work.moreInput = true›, rfl⟩

/-- DEC_FIN (R115). -/
theorem decFin_some (h : decFin s = some t) :
    (s.work.roomLeft = true ∧ s.admits .write (s.work.outSlot s.work.cnt) = true ∧
      t = (s.blockPut (s.work.outSlot s.work.cnt) nul).finish s.work.cnt) ∨
    (s.work.roomLeft = false ∧ t = s.finish s.work.cnt) := by
  unfold decFin at h
  split at h
  · simp only [Option.map_eq_some_iff, State.blockWrite_eq_some] at h
    obtain ⟨u, ⟨ha, rfl⟩, rfl⟩ := h
    exact .inl ⟨‹_›, ha, rfl⟩
  · cases h; exact .inr ⟨by simpa using ‹¬ s.work.roomLeft = true›, rfl⟩

/-- What a block turn can do: nothing while idle or stuck, a fault past the end of the input, becoming stuck, or the rule FSM
chooses and, if that ends the command, its races settled (R22, R69, R214). -/
theorem blockStep_cases (s : State) :
    ((s.work.fsm = .idle ∨ s.stuck = true) ∧ blockStep s = .next s) ∨
    (s.work.fsm = .decScan ∧ s.work.wLen < s.work.cur ∧ blockStep s = .fault .scanPastEnd) ∨
    (s.work.fsm ≠ .idle ∧ ¬ (s.work.fsm = .decScan ∧ s.work.wLen < s.work.cur) ∧ blockRule s = none ∧ blockStep s = .next s.getStuck) ∨
    (∃ t, s.work.fsm ≠ .idle ∧ ¬ (s.work.fsm = .decScan ∧ s.work.wLen < s.work.cur) ∧ blockRule s = some t ∧
      blockStep s = .next t.afterStep) := by
  unfold blockStep
  split
  · exact .inl ⟨‹_›, rfl⟩
  · rename_i hn
    have hi : s.work.fsm ≠ .idle := fun h => hn (.inl h)
    split
    · rename_i hp; exact .inr (.inl ⟨hp.1, hp.2, rfl⟩)
    · cases hb : blockRule s with
      | none => exact .inr (.inr (.inl ⟨hi, ‹_›, rfl, rfl⟩))
      | some t => exact .inr (.inr (.inr ⟨t, hi, ‹_›, rfl, rfl⟩))

/-- A turn of a stuck block (R69). -/
theorem blockStep_of_stuck (h : s.stuck = true) : blockStep s = .next s := by simp [blockStep, h]

/-- A turn of a block whose step is not admitted (R69). -/
theorem blockStep_of_none (hf : s.work.fsm ≠ .idle) (hc : ¬ (s.work.fsm = .decScan ∧ s.work.wLen < s.work.cur)) (hb : blockRule s = none) :
    blockStep s = .next s.getStuck := by
  cases hs : s.stuck
  · simp [blockStep, hf, hs, hc, hb]
  · rw [blockStep_of_stuck hs]
    cases s
    simp_all [State.getStuck]

/-- A turn of a block that has a step. -/
theorem blockStep_of_rule (hf : s.work.fsm ≠ .idle) (hs : s.stuck = false) (hc : ¬ (s.work.fsm = .decScan ∧ s.work.wLen < s.work.cur))
    (hb : blockRule s = some t) : blockStep s = .next t.afterStep := by
  simp [blockStep, hf, hs, hc, hb]

theorem State.afterStep_of_busy (h : s.busy = true) : s.afterStep = s := by simp [State.afterStep, h]

theorem State.afterStep_of_idle (h : s.busy = false) : s.afterStep = s.settleRaces := by simp [State.afterStep, h]

/-- A turn of a block whose FSM and CUR are known. -/
theorem blockStep_at (s : State) {f : Fsm} (hf : s.work.fsm = f) (hi : f ≠ .idle) (hst : s.stuck = false) (hd : f ≠ .decScan ∨ s.work.cur.toNat ≤ s.work.wLen.toNat)
    {t : State} (hb : blockRule s = some t) : blockStep s = .next t.afterStep := by
  apply blockStep_of_rule (hf ▸ hi) hst _ hb
  rintro ⟨h1, h2⟩
  rcases hd with hd | hd
  · exact hd (hf.symm.trans h1)
  · simp only [BitVec.lt_def] at h2; omega

/-- The end of a command changes no byte that the host left alone (R74 third bullet). -/
theorem byteAt_of_ended (s u : State) (hc : u.vis.clobbered = s.vis.clobbered) (hb : u.busy = false) (b : Addr) (h : b ∉ s.vis.clobbered) :
    u.afterStep.byteAt b = u.byteAt b := by
  rw [State.afterStep_of_idle hb]
  exact read_clobber_other _ _ _ _ (hc ▸ h)

/-! ### Conditions and extracted bits, in numbers -/

theorem Work.moreInput_iff (w : Work) : w.moreInput = true ↔ w.cur.toNat < w.wLen.toNat := by
  simp [Work.moreInput, BitVec.lt_def]

theorem Work.roomLeft_iff (w : Work) : w.roomLeft = true ↔ w.cnt.toNat < w.wCap.toNat := by
  simp [Work.roomLeft, BitVec.lt_def]

/-- The data loop goes on (R136). -/
theorem Work.dataLoop_iff (w : Work) :
    w.dataLoop = true ↔ (w.cnt.toNat < w.wCap.toNat ∧ (0 < w.bits.toNat ∨ w.cur.toNat < w.wLen.toNat)) := by
  simp [Work.dataLoop, Work.roomLeft, Work.moreInput, BitVec.lt_def]

/-- The padding loop goes on (R141). -/
theorem Work.padLoop_iff (w : Work) :
    w.padLoop = true ↔ (w.padReq = true ∧ w.cnt.toNat % 8 ≠ 0 ∧ w.cnt.toNat < w.wCap.toNat) := by
  simp [Work.padLoop, Work.roomLeft, Work.wholeGroup, BitVec.lt_def, and_assoc]

/-- The completeness test (R142). -/
theorem Work.complete_iff (w : Work) :
    w.complete = true ↔ (w.bits = 0#4 ∧ w.wLen.toNat ≤ w.cur.toNat ∧ (w.padReq = false ∨ w.cnt.toNat % 8 = 0)) := by
  simp [Work.complete, Work.moreInput, Work.wholeGroup, BitVec.lt_def, and_assoc]

/-- The index taken from ACC, as a quotient (R139). -/
theorem Work.topSymbol_eq (w : Work) (b : Nat) (h : w.bits.toNat = b) : w.topSymbol = BitVec.ofNat 5 (w.acc.toNat / 2 ^ (b - 5)) := by
  apply BitVec.eq_of_toNat_eq
  simp [Work.topSymbol, Nat.shiftRight_eq_div_pow, h]

/-- The data byte taken from ACC, as a quotient (R113). -/
theorem Work.topByte_eq (w : Work) (b : Nat) (h : w.bits.toNat = b) : w.topByte = BitVec.ofNat 8 (w.acc.toNat / 2 ^ (b - 8)) := by
  apply BitVec.eq_of_toNat_eq
  simp [Work.topByte, Nat.shiftRight_eq_div_pow, h]

end Sys2Proof.Machine
end

