-- ==== Sys2Proof/Laws/Invariant.lean ====
section
/-! SUPPORT. Every step rule of the block, and every other move, keeps the invariant (10_state.md R23, R24, R32, R37, R41). -/

namespace Sys2Proof.Machine

variable {s t u : State}

/-! ### The invariant taken apart and put together -/

theorem Result.inv_cleared : Result.cleared.inv = true := by decide

/-- While a command runs nothing is recorded, and the races concern its own buffers. -/
theorem State.Inv.running (h : s.Inv) (hb : s.busy = true) :
    s.result = Result.cleared ∧ s.vis.racing.all (fun p => s.work.inputRegion.contains p.1) = true ∧
      s.vis.clobbered.all s.work.outputRegion.contains = true := by
  obtain ⟨-, -, hr, hi⟩ := h
  simp only [State.invRun, hb, if_true, Bool.and_eq_true, Bool.not_eq_true'] at hi
  refine ⟨?_, hi.1.2, hi.2⟩
  simpa [Result.inv, hi.1.1] using hr

/-- While no command runs there is no race. -/
theorem State.Inv.resting (h : s.Inv) (hb : s.busy = false) : s.vis.racing = [] ∧ s.vis.clobbered = [] := by
  have := h.2.2.2
  simp only [State.invRun, hb, Bool.false_eq_true, if_false, Bool.and_eq_true, List.isEmpty_iff] at this
  exact this.1

/-- A block that runs no command is not stuck (R69). -/
theorem State.Inv.awake (h : s.Inv) (hb : s.busy = false) : s.stuck = false := by
  have := h.2.2.2
  simp only [State.invRun, hb, Bool.false_eq_true, if_false, Bool.and_eq_true, Bool.not_eq_true'] at this
  exact this.2

theorem State.Inv.of_running (hm : Memory.wf s.mem = true) (hw : s.work.inv = true) (hb : s.busy = true)
    (hr : s.result = Result.cleared) (hra : s.vis.racing.all (fun p => s.work.inputRegion.contains p.1) = true)
    (hcl : s.vis.clobbered.all s.work.outputRegion.contains = true) : s.Inv := by
  refine ⟨hm, hw, hr ▸ Result.inv_cleared, ?_⟩
  simp only [State.invRun, hb, if_true, hr, hra, hcl]
  rfl

theorem Work.inv_of_idle {w : Work} (h : w.fsm = .idle) : w.inv = true := by simp [Work.inv, h]

theorem State.Inv.of_resting (hm : Memory.wf s.mem = true) (hb : s.busy = false) (hr : s.result.inv = true)
    (hra : s.vis.racing = []) (hcl : s.vis.clobbered = []) (hst : s.stuck = false) : s.Inv :=
  ⟨hm, Work.inv_of_idle ((State.not_busy_iff s).mp hb), hr, by simp [State.invRun, hb, hra, hcl, hst]⟩

/-- A step that ends its command keeps the invariant. -/
theorem State.Inv.of_ended (hm : Memory.wf s.mem = true) (hb : s.busy = false) (hr : s.result.inv = true) (hst : s.stuck = false) : s.afterStep.Inv := by
  rw [State.afterStep_of_idle hb]
  exact State.Inv.of_resting (wf_clobber _ _ _ hm) hb hr rfl rfl hst

/-- A step that goes on with the command: the latched arguments, the record and the clobbered bytes as before, the races
those before or fewer. -/
theorem State.Inv.goes_on (h : s.Inv) (hb : s.busy = true) (hm : Memory.wf t.mem = true) (hw : t.work.inv = true) (htb : t.busy = true)
    (hres : t.result = s.result) (hin : t.work.inputRegion = s.work.inputRegion) (hout : t.work.outputRegion = s.work.outputRegion)
    (hra : t.vis.racing = s.vis.racing ∨ ∃ a, t.vis.racing = forget s.vis.racing a) (hcl : t.vis.clobbered = s.vis.clobbered) :
    t.afterStep.Inv := by
  obtain ⟨hr, hr1, hr2⟩ := h.running hb
  rw [State.afterStep_of_busy htb]
  refine State.Inv.of_running hm hw htb (hres.trans hr) ?_ ?_
  · rw [hin]
    rcases hra with e | ⟨a, e⟩
    · rw [e]; exact hr1
    · rw [e]; exact forget_all _ a _ hr1
  · rw [hcl, hout]; exact hr2

/-! ### What the invariant says in each state -/

theorem Work.encodeArgs_iff {w : Work} : w.encodeArgs = true ↔
    w.wLen.toNat < Config.encLenLimit ∧ 0 < w.wCap.toNat ∧ w.wCap.toNat < 2 ^ 31 := by
  simp only [Work.encodeArgs, Bool.and_eq_true, decide_eq_true_eq, and_assoc]

/-- An ENCODE about to read its first byte. -/
theorem Work.inv_encInit {w : Work} (h : w.fsm = .encInit) : w.inv = true ↔
    w.encodeArgs = true ∧ w.bits = 0#4 ∧ w.cnt = 0#32 ∧ w.cur = 0#32 ∧ 0 < w.wLen.toNat := by
  simp only [Work.inv, h, Bool.and_eq_true, decide_eq_true_eq, and_assoc]

/-- An ENCODE in its data loop, its padding loop or its last step. -/
theorem Work.inv_encRun {w : Work} (h : w.fsm = .encData ∨ w.fsm = .encPad ∨ w.fsm = .encFin) : w.inv = true ↔
    w.encodeArgs = true ∧ w.bits.toNat ≤ 8 ∧ w.cnt ≤ w.wCap ∧ w.cur ≤ w.wLen := by
  rcases h with h | h | h <;> simp only [Work.inv, h, Bool.and_eq_true, decide_eq_true_eq, and_assoc]

/-- A scanning DECODE. -/
theorem Work.inv_decScan {w : Work} (h : w.fsm = .decScan) : w.inv = true ↔
    w.wCap.toNat < 2 ^ 31 ∧ w.bits.toNat ≤ 7 ∧ w.cnt ≤ w.wCap ∧ w.cur ≤ w.wLen ∧ (w.padStart = true → w.bits ≠ 0#4) := by
  simp only [Work.inv, h, Bool.and_eq_true, decide_eq_true_eq, Bool.or_eq_true, Bool.not_eq_true', and_assoc]
  cases w.padStart <;> simp

/-- A DECODE in its last step. -/
theorem Work.inv_decFin {w : Work} (h : w.fsm = .decFin) : w.inv = true ↔
    w.wCap.toNat < 2 ^ 31 ∧ w.bits.toNat ≤ 7 ∧ w.cnt ≤ w.wCap ∧ w.cur = w.wLen := by
  simp only [Work.inv, h, Bool.and_eq_true, decide_eq_true_eq, and_assoc]

theorem zero_le_word (v : Word) : 0#32 ≤ v := by simp [BitVec.le_def]

/-! ### The encoder's rules -/

theorem State.busy_of_fsm {s : State} {f : Fsm} (h : s.work.fsm = f) (hf : f ≠ .idle) : s.busy = true :=
  (State.busy_iff s).mpr (h ▸ hf)

theorem encInit_keeps (h : s.Inv) (hf : s.work.fsm = .encInit) (hs : encInit s = some t) : t.afterStep.Inv := by
  obtain ⟨c, u, hr, rfl⟩ := encInit_some hs
  obtain ⟨-, ⟨n, rfl⟩, -⟩ := State.blockRead_some hr
  obtain ⟨hargs, -, hc, -, hl⟩ := (Work.inv_encInit hf).mp h.2.1
  refine h.goes_on (State.busy_of_fsm hf (by decide)) h.1 ?_ rfl rfl rfl rfl (.inl rfl) rfl
  refine (Work.inv_encRun (.inl rfl)).mpr ⟨hargs, by simp, ?_, ?_⟩
  · exact hc ▸ zero_le_word _
  · simp only [BitVec.le_def, BitVec.toNat_ofNat]; omega

/-- The refill leaves at least 5 and at most 12 valid bits, reads within the input, and writes nothing. -/
theorem encRefill_spec {s : State} (hs : encRefill s = some u) (hb : s.work.bits.toNat ≤ 8) (hc : s.work.cur ≤ s.work.wLen) :
    5 ≤ u.work.bits.toNat ∧ u.work.bits.toNat ≤ 12 ∧ u.work.cur ≤ u.work.wLen ∧ u.work.cnt = s.work.cnt ∧ u.work.fsm = s.work.fsm ∧
      SameFixed s u ∧ u.mem = s.mem ∧ u.result = s.result ∧ u.vis.racing = s.vis.racing ∧ u.vis.clobbered = s.vis.clobbered := by
  rcases encRefill_some hs with ⟨h5, rfl⟩ | ⟨h5, hm, c, v, hr, rfl⟩ | ⟨h5, hm, rfl⟩
  · exact ⟨by simpa [BitVec.le_def] using h5, by omega, hc, rfl, rfl, SameFixed.refl _, rfl, rfl, rfl, rfl⟩
  · obtain ⟨-, ⟨n, rfl⟩, -⟩ := State.blockRead_some hr
    simp only [Work.moreInput, decide_eq_true_eq, BitVec.lt_def] at hm
    simp only [BitVec.le_def, Nat.not_le] at h5
    have h5' : s.work.bits.toNat < 5 := h5
    refine ⟨?_, ?_, ?_, rfl, rfl, ⟨rfl, rfl, rfl, rfl, rfl, rfl, rfl, rfl, rfl, rfl⟩, rfl, rfl, rfl, rfl⟩
    · simp only [Work.shiftInByte_bits, BitVec.toNat_add, BitVec.toNat_ofNat]; omega
    · simp only [Work.shiftInByte_bits, BitVec.toNat_add, BitVec.toNat_ofNat]; omega
    · simp only [BitVec.le_def, BitVec.toNat_add, BitVec.toNat_ofNat, Work.shiftInByte_wLen]
      have := s.work.wLen.isLt
      omega
  · exact ⟨by simp, by simp, hc, rfl, rfl, ⟨rfl, rfl, rfl, rfl, rfl, rfl, rfl, rfl, rfl, rfl⟩, rfl, rfl, rfl, rfl⟩

theorem Work.count_succ {w : Work} (h : w.roomLeft = true) : w.cnt + 1#32 ≤ w.wCap := by
  simp only [Work.roomLeft, decide_eq_true_eq, BitVec.lt_def] at h
  have := w.wCap.isLt
  simp only [BitVec.le_def, BitVec.toNat_add, BitVec.toNat_ofNat]
  omega

theorem encData_keeps (h : s.Inv) (hf : s.work.fsm = .encData) (hs : encData s = some t) : t.afterStep.Inv := by
  have hb := State.busy_of_fsm hf (by decide)
  obtain ⟨hargs, hbits, hcnt, hcur⟩ := (Work.inv_encRun (.inl hf)).mp h.2.1
  rcases encData_some hs with ⟨hl, u, hu, ht⟩ | ⟨-, rfl⟩
  · obtain ⟨h5, h12, hcu, hcn, hfu, hfix, hmem, hres, hra, hcl⟩ := encRefill_spec hu hbits hcur
    obtain ⟨-, rfl⟩ := encEmit_some ht
    refine h.goes_on hb (State.wf_blockPut u _ _ (hmem ▸ h.1)) ?_ (State.busy_of_fsm (hfu.trans hf) (by decide)) hres ?_ ?_
      (.inr ⟨u.work.outSlot u.work.cnt, ?_⟩) hcl
    · have hroom : u.work.roomLeft = true := by
        simp only [Work.dataLoop, Bool.and_eq_true] at hl
        simpa [Work.roomLeft, hcn, hfix.wCap] using hl.1
      refine (Work.inv_encRun (w := { u.work with cnt := u.work.cnt + 1#32, bits := u.work.bits - 5#4 }) (.inl (hfu.trans hf))).mpr
        ⟨?_, ?_, Work.count_succ hroom, hcu⟩
      · simpa [Work.encodeArgs, hfix.wLen, hfix.wCap] using hargs
      · have : (u.work.bits - 5#4).toNat = u.work.bits.toNat - 5 := by
          rw [BitVec.toNat_sub]; simp only [BitVec.toNat_ofNat]; omega
        exact this ▸ (by omega : u.work.bits.toNat - 5 ≤ 8)
    · simp [Work.inputRegion, hfix.wIn, hfix.wLen]
    · simp [Work.outputRegion, hfix.wOut, hfix.wCap]
    · simp [hra]
  · refine h.goes_on hb h.1 ?_ rfl rfl rfl rfl (.inl rfl) rfl
    exact (Work.inv_encRun (.inr (.inl rfl))).mpr ⟨hargs, hbits, hcnt, hcur⟩

theorem encPad_keeps (h : s.Inv) (hf : s.work.fsm = .encPad) (hs : encPad s = some t) : t.afterStep.Inv := by
  have hb := State.busy_of_fsm hf (by decide)
  obtain ⟨hargs, hbits, hcnt, hcur⟩ := (Work.inv_encRun (.inr (.inl hf))).mp h.2.1
  rcases encPad_some hs with ⟨hl, -, rfl⟩ | ⟨-, rfl⟩
  · refine h.goes_on hb (State.wf_blockPut s _ _ h.1) ?_ hb rfl rfl rfl (.inr ⟨_, rfl⟩) rfl
    simp only [Work.padLoop, Bool.and_eq_true] at hl
    exact (Work.inv_encRun (w := { s.work with cnt := s.work.cnt + 1#32 }) (.inr (.inl hf))).mpr ⟨hargs, hbits, Work.count_succ hl.2, hcur⟩
  · refine h.goes_on hb h.1 ?_ rfl rfl rfl rfl (.inl rfl) rfl
    exact (Work.inv_encRun (.inr (.inr rfl))).mpr ⟨hargs, hbits, hcnt, hcur⟩

theorem encFin_keeps (h : s.Inv) (hst : s.stuck = false) (hs : encFin s = some t) : t.afterStep.Inv := by
  rcases encFin_some hs with ⟨-, -, -, rfl⟩ | ⟨-, -, rfl⟩
  · exact State.Inv.of_ended (State.wf_blockPut s _ _ h.1) rfl rfl hst
  · exact State.Inv.of_ended (State.wf_blockPut s _ _ h.1) rfl rfl hst

/-! ### The decoder's rules -/

theorem dropByte_lt (b : BitCount) : (dropByte b).toNat ≤ 7 := by
  unfold dropByte
  split
  · rename_i h
    simp only [BitVec.le_def, BitVec.toNat_ofNat] at h
    rw [BitVec.toNat_sub]
    simp only [BitVec.toNat_ofNat]
    have := b.isLt
    omega
  · rename_i h
    simp only [BitVec.le_def, BitVec.toNat_ofNat] at h
    omega

/-- Emission and consumption keep CNT within the capacity and leave at most 7 valid bits. -/
theorem decEmit_spec (hs : decEmit s = some u) (hb : s.work.bits.toNat ≤ 12) (hcnt : s.work.cnt ≤ s.work.wCap) :
    u.work.bits.toNat ≤ 7 ∧ u.work.cnt ≤ u.work.wCap ∧ u.work.cur = s.work.cur ∧ u.work.fsm = s.work.fsm ∧
      u.work.padStart = s.work.padStart ∧ SameFixed s u ∧ u.result = s.result ∧ u.vis.clobbered = s.vis.clobbered ∧
      (u.vis.racing = s.vis.racing ∨ ∃ a, u.vis.racing = forget s.vis.racing a) ∧
      (Memory.wf s.mem = true → Memory.wf u.mem = true) := by
  have hsub : 8#4 ≤ s.work.bits → (s.work.bits - 8#4).toNat ≤ 7 := fun h8 => by
    simp only [BitVec.le_def, BitVec.toNat_ofNat] at h8
    rw [BitVec.toNat_sub]; simp only [BitVec.toNat_ofNat]; omega
  rcases decEmit_some hs with ⟨h8, hr, -, rfl⟩ | ⟨h8, -, rfl⟩ | ⟨h8, rfl⟩
  · exact ⟨hsub h8, Work.count_succ hr, rfl, rfl, rfl, ⟨rfl, rfl, rfl, rfl, rfl, rfl, rfl, rfl, rfl, rfl⟩, rfl, rfl, .inr ⟨_, rfl⟩,
      State.wf_blockPut s _ _⟩
  · exact ⟨hsub h8, hcnt, rfl, rfl, rfl, ⟨rfl, rfl, rfl, rfl, rfl, rfl, rfl, rfl, rfl, rfl⟩, rfl, rfl, .inl rfl, id⟩
  · refine ⟨?_, hcnt, rfl, rfl, rfl, SameFixed.refl _, rfl, rfl, .inl rfl, id⟩
    simp only [BitVec.le_def, BitVec.toNat_ofNat] at h8
    omega

theorem decByte_keeps {c : Byte} (h : s.Inv) (hst : s.stuck = false) (hf : s.work.fsm = .decScan) (hs : decByte s c = some t) : t.afterStep.Inv := by
  have hb := State.busy_of_fsm hf (by decide)
  obtain ⟨hcap, hbits, hcnt, hcur, hpad⟩ := (Work.inv_decScan hf).mp h.2.1
  rcases decByte_some hs with ⟨-, rfl⟩ | ⟨-, -, rfl⟩ | ⟨-, -, -, rfl⟩ | ⟨-, hp, -, hy⟩
  · refine h.goes_on hb h.1 ?_ hb rfl rfl rfl (.inl rfl) rfl
    exact (Work.inv_decScan (w := s.work.padStep) hf).mpr ⟨hcap, dropByte_lt _, hcnt, hcur, by simp⟩
  · exact State.Inv.of_ended h.1 rfl rfl hst
  · rw [State.afterStep_of_busy hb]; exact h
  · rcases decSymbol_some hy with ⟨-, rfl⟩ | ⟨v, -, he⟩
    · exact State.Inv.of_ended h.1 rfl rfl hst
    · obtain ⟨hb7, hc, hcu, hfu, hpu, hfix, hres, hcl, hra, hwf⟩ := decEmit_spec he
        (by simp only [Work.shiftInSymbol_bits, BitVec.toNat_add, BitVec.toNat_ofNat]; omega) hcnt
      have hfu' : t.work.fsm = .decScan := hfu.trans hf
      refine h.goes_on hb (hwf h.1) ?_ (State.busy_of_fsm hfu' (by decide)) hres ?_ ?_ hra hcl
      · refine (Work.inv_decScan hfu').mpr ⟨?_, hb7, hc, ?_, fun hp' => absurd (hpu.symm.trans hp') (by simp [hp])⟩
        · rw [hfix.wCap]; exact hcap
        · rw [hcu, hfix.wLen]; exact hcur
      · simp [Work.inputRegion, hfix.wIn, hfix.wLen]
      · simp [Work.outputRegion, hfix.wOut, hfix.wCap]

theorem decScan_keeps (h : s.Inv) (hst : s.stuck = false) (hf : s.work.fsm = .decScan) (hs : decScan s = some t) : t.afterStep.Inv := by
  have hb := State.busy_of_fsm hf (by decide)
  have hw := (Work.inv_decScan hf).mp h.2.1
  obtain ⟨hcap, hbits, hcnt, hcur, hpad⟩ := hw
  rcases decScan_some hs with ⟨hm, c, u, hr, hb'⟩ | ⟨hm, rfl⟩
  · obtain ⟨-, ⟨n, rfl⟩, -⟩ := State.blockRead_some hr
    refine decByte_keeps (s := { s with vis := { s.vis with draws := n }, work := { s.work with cur := s.work.cur + 1#32 } }) ?_ hst hf hb'
    obtain ⟨hres, hra, hcl⟩ := h.running hb
    refine State.Inv.of_running h.1
      ((Work.inv_decScan (w := { s.work with cur := s.work.cur + 1#32 }) hf).mpr ⟨hcap, hbits, hcnt, ?_, hpad⟩) hb hres hra hcl
    simp only [Work.moreInput, decide_eq_true_eq, BitVec.lt_def] at hm
    have := s.work.wLen.isLt
    simp only [BitVec.le_def, BitVec.toNat_add, BitVec.toNat_ofNat]
    omega
  · refine h.goes_on hb h.1 ?_ rfl rfl rfl rfl (.inl rfl) rfl
    refine (Work.inv_decFin rfl).mpr ⟨hcap, hbits, hcnt, ?_⟩
    simp only [Work.moreInput, decide_eq_false_iff_not, BitVec.lt_def, BitVec.le_def] at hm hcur
    exact BitVec.eq_of_toNat_eq (show s.work.cur.toNat = s.work.wLen.toNat by omega)

theorem decFin_keeps (h : s.Inv) (hst : s.stuck = false) (hs : decFin s = some t) : t.afterStep.Inv := by
  rcases decFin_some hs with ⟨-, -, rfl⟩ | ⟨-, rfl⟩
  · exact State.Inv.of_ended (State.wf_blockPut s _ _ h.1) rfl rfl hst
  · exact State.Inv.of_ended h.1 rfl rfl hst

/-! ### The other moves -/

/-- The invariant does not look at the interleaving. -/
theorem State.Inv.with_schedule (h : s.Inv) (l : List Event) : State.Inv { s with schedule := l } := h

theorem State.Inv.with_replies (h : s.Inv) (l : List Reply) : State.Inv { s with replies := l } := h

theorem State.Inv.with_args (h : s.Inv) (g : Args) : State.Inv { s with args := g } := h

/-- A block that becomes stuck is busy (R69). -/
theorem getStuck_keeps (h : s.Inv) (hb : s.busy = true) : s.getStuck.Inv := by
  obtain ⟨hr, hra, hcl⟩ := h.running hb
  exact State.Inv.of_running h.1 h.2.1 hb hr hra hcl

theorem platformReset_keeps (h : s.Inv) : s.platformReset.Inv :=
  State.Inv.of_resting h.1 rfl Result.inv_cleared rfl rfl rfl

theorem clearResult_keeps (h : s.Inv) (hb : s.busy = false) : s.clearResult.Inv :=
  State.Inv.of_resting h.1 hb Result.inv_cleared (h.resting hb).1 (h.resting hb).2 (h.awake hb)

theorem illegal_keeps (h : s.Inv) (hb : s.busy = false) : (s.raiseError .illegalCommand).Inv :=
  State.Inv.of_resting h.1 rfl rfl (h.resting hb).1 (h.resting hb).2 (h.awake hb)

theorem s32_pos_bounds {v : Word} (h : ¬ s32 v ≤ 0) : 0 < v.toNat ∧ v.toNat < 2 ^ 31 := by
  simp only [s32, BitVec.toInt_eq_toNat_cond] at h
  have := v.isLt
  split at h <;> omega

theorem acceptEncode_keeps (pad : Bool) (h : s.Inv) (hb : s.busy = false) : (s.acceptEncode pad).Inv := by
  unfold State.acceptEncode State.encodeStart
  split
  · exact State.Inv.of_resting h.1 rfl rfl rfl rfl (h.awake hb)
  · rename_i hlen
    split
    · exact State.Inv.of_resting h.1 rfl rfl rfl rfl (h.awake hb)
    · rename_i hcap
      have hl : s.args.inLen.toNat < Config.encLenLimit := by
        simp only [lengthTooLong, decide_eq_true_eq, Nat.not_le] at hlen
        exact hlen
      simp only [capacityNotPositive, decide_eq_true_eq] at hcap
      have hc := s32_pos_bounds (v := s.args.outCap) hcap
      have hargs : (s.encodeLatch pad).work.encodeArgs = true := Work.encodeArgs_iff.mpr ⟨hl, hc⟩
      split
      · refine State.Inv.of_running h.1 ?_ rfl rfl rfl rfl
        exact (Work.inv_encRun (.inl rfl)).mpr ⟨hargs, by simp, zero_le_word _, zero_le_word _⟩
      · rename_i hne
        refine State.Inv.of_running h.1 ?_ rfl rfl rfl rfl
        refine (Work.inv_encInit rfl).mpr ⟨hargs, rfl, rfl, rfl, ?_⟩
        have : s.args.inLen ≠ 0#32 := hne
        exact Nat.pos_of_ne_zero fun e => this (BitVec.eq_of_toNat_eq e)

theorem decodeCapacity_lt (v : Word) : (decodeCapacity v).toNat < 2 ^ 31 := by
  unfold decodeCapacity
  split
  · simp
  · exact (s32_pos_bounds ‹_›).2

theorem acceptDecode_keeps (h : s.Inv) : s.acceptDecode.Inv := by
  refine State.Inv.of_running h.1 ((Work.inv_decScan rfl).mpr ⟨decodeCapacity_lt _, by simp, zero_le_word _, zero_le_word _, by simp⟩)
    rfl rfl rfl rfl

theorem hostRead_keeps (a : Addr) (h : s.Inv) : (s.hostRead a).Inv := by
  have hv : (s.hostSees a).2.racing = s.vis.racing ∧ (s.hostSees a).2.clobbered = s.vis.clobbered := by
    unfold State.hostSees; split <;> exact ⟨rfl, rfl⟩
  refine ⟨h.1, h.2.1, h.2.2.1, ?_⟩
  have := h.2.2.2
  unfold State.invRun at this ⊢
  rw [State.hostRead_busy, State.hostRead_vis, hv.1, hv.2]
  exact this

theorem hostWrite_keeps (a : Addr) (v : Byte) (h : s.Inv) : (s.hostWrite a v).Inv := by
  cases hb : s.busy
  · obtain ⟨h1, h2⟩ := h.resting hb
    exact State.Inv.of_resting (State.wf_hostWrite s a v h.1) hb h.2.2.1 (by simp [State.hostWrite, hb, h1])
      (by simp [State.hostWrite, hb, h2]) (h.awake hb)
  · obtain ⟨hres, hra, hcl⟩ := h.running hb
    refine State.Inv.of_running (State.wf_hostWrite s a v h.1) h.2.1 hb hres ?_ ?_
    · simp only [State.hostWrite, hb, Bool.true_and, State.putByte_work]
      split
      · rename_i hi
        simpa only [List.all_cons, hi, Bool.true_and] using hra
      · exact hra
    · simp only [State.hostWrite, hb, Bool.true_and, State.putByte_work]
      split
      · rename_i hi
        simpa only [List.all_cons, hi, Bool.true_and] using hcl
      · exact hcl

theorem writeReg_keeps (r : HostReg) (v : Word) (h : s.Inv) : (s.writeReg r v).Inv := by
  cases r <;> exact h

theorem seenDone_keeps (h : s.Inv) : s.seenDone.Inv := by
  unfold State.seenDone
  split
  · exact h
  · exact h

theorem hostReadReg_keeps (off : Nat) (r : HostReg) (h : s.Inv) : (s.hostReadReg off r).Inv := by
  unfold State.hostReadReg
  dsimp only
  split
  · exact seenDone_keeps h
  · exact h

end Sys2Proof.Machine
end

