-- ==== Sys2Proof/Laws/Run.lean ====
section
/-! SUPPORT. Runs of a busy block: how block turns follow one another, and what one turn of a running command does when the host leaves
its buffers alone (70_reset_and_hazards.md R214, R226). -/

namespace Sys2Proof.Machine

/-- `k` turns lead from `a` to `t`, the block busy before each of them. -/
def Runs (a : State) (k : Nat) (t : State) : Prop :=
  core.run k a = .next t ∧ ∀ j, j < k → ∃ u, core.run j a = .next u ∧ u.busy = true

theorem EndsIn_iff {a t : State} {k : Nat} : EndsIn a k t ↔ Runs a k t ∧ t.busy = false :=
  ⟨fun h => ⟨⟨h.1, h.2.2⟩, h.2.1⟩, fun h => ⟨h.1.1, h.2, h.1.2⟩⟩

theorem run_succ {a b : State} (hs : step a = .next b) (k : Nat) : core.run (k + 1) a = core.run k b := by
  have h : core.step a = .next b := hs
  simp only [Host.Core.run, h]

theorem Runs.zero (a : State) : Runs a 0 a := ⟨rfl, fun j h => absurd h (Nat.not_lt_zero j)⟩

theorem Runs.cons {a b t : State} {k : Nat} (hb : a.busy = true) (hs : step a = .next b) (h : Runs b k t) : Runs a (k + 1) t := by
  refine ⟨(run_succ hs k).trans h.1, fun j hj => ?_⟩
  cases j with
  | zero => exact ⟨a, rfl, hb⟩
  | succ j =>
    obtain ⟨u, hu, hub⟩ := h.2 j (by omega)
    exact ⟨u, (run_succ hs j).trans hu, hub⟩

theorem Runs.trans {a t u : State} {k l : Nat} (h : Runs a k t) (g : Runs t l u) : Runs a (k + l) u := by
  induction k generalizing a with
  | zero =>
    obtain ⟨h, -⟩ := h
    injection h with h
    subst h
    rw [Nat.zero_add]
    exact g
  | succ k ih =>
    obtain ⟨u0, h0, hb⟩ := h.2 0 (Nat.zero_lt_succ k)
    injection h0 with h0
    subst h0
    cases hs : step a with
    | next b =>
      rw [show k + 1 + l = k + l + 1 by omega]
      refine Runs.cons hb hs (ih ⟨(run_succ hs k).symm.trans h.1, fun j hj => ?_⟩)
      obtain ⟨u1, h1, hb1⟩ := h.2 (j + 1) (by omega)
      exact ⟨u1, (run_succ hs j).symm.trans h1, hb1⟩
    | fault r =>
      have h1 := h.1
      have h2 : core.step a = .fault r := hs
      simp only [Host.Core.run, h2] at h1
      cases h1
    | refused r =>
      have h1 := h.1
      have h2 : core.step a = .refused r := hs
      simp only [Host.Core.run, h2] at h1
      cases h1

end Sys2Proof.Machine
end

