-- ==== Sys2Proof/Laws/Stream.lean ====
section
/-! SUPPORT. The laws of the bit streams behind ENCODE and DECODE (20_memory.md R63; 41_encode.md R144; 40_decode.md R120): which byte or
index a bit belongs to, streams of joined lists, and the bits of the symbols and bytes cut from a stream. -/

namespace Sys2Proof.Machine

/-! ### Bits of bytes and of indices -/

theorem streamBit_at (d : List Byte) (q r : Nat) (h : r < 8) : streamBit d (8 * q + r) = (d.getD q 0#8).getMsbD r := by
  unfold streamBit
  rw [show (8 * q + r) / 8 = q by omega, show (8 * q + r) % 8 = r by omega]

theorem symbolBit_at (vs : List Symbol) (q r : Nat) (h : r < 5) : symbolBit vs (5 * q + r) = (vs.getD q 0#5).getMsbD r := by
  unfold symbolBit
  rw [show (5 * q + r) / 5 = q by omega, show (5 * q + r) % 5 = r by omega]

/-- Past the end the stream is 0, the zero-fill of R138. -/
theorem streamBit_past (d : List Byte) (k : Nat) (h : 8 * d.length ≤ k) : streamBit d k = false := by
  unfold streamBit
  rw [List.getD_eq_default _ _ (by omega)]
  simp

theorem streamBit_append_left (d e : List Byte) (k : Nat) (h : k < 8 * d.length) : streamBit (d ++ e) k = streamBit d k := by
  unfold streamBit
  rw [List.getD_append _ _ _ _ (by omega)]

theorem streamBit_append_right (d e : List Byte) (k : Nat) : streamBit (d ++ e) (8 * d.length + k) = streamBit e k := by
  unfold streamBit
  rw [List.getD_append_right _ _ _ _ (by omega), show (8 * d.length + k) / 8 - d.length = k / 8 by omega,
    show (8 * d.length + k) % 8 = k % 8 by omega]

theorem symbolBit_append_left (vs ws : List Symbol) (k : Nat) (h : k < 5 * vs.length) : symbolBit (vs ++ ws) k = symbolBit vs k := by
  unfold symbolBit
  rw [List.getD_append _ _ _ _ (by omega)]

/-- The five bits a new index adds to the stream. -/
theorem symbolBit_snoc (vs : List Symbol) (v : Symbol) (r : Nat) (h : r < 5) : symbolBit (vs ++ [v]) (5 * vs.length + r) = v.getMsbD r := by
  rw [symbolBit_at _ _ _ h, List.getD_append_right _ _ _ _ (Nat.le_refl _)]
  simp

/-! ### A value from its bits, the first uppermost -/

theorem textSymbol_bit (d : List Byte) (j r : Nat) (h : r < 5) : (textSymbol d j).getMsbD r = streamBit d (5 * j + r) := by
  rw [textSymbol, BitVec.getMsbD_ofBoolListBE]
  interval_cases r <;> rfl

theorem decodedByte_bit (vs : List Symbol) (j r : Nat) (h : r < 8) : (decodedByte vs j).getMsbD r = symbolBit vs (8 * j + r) := by
  rw [decodedByte, BitVec.getMsbD_ofBoolListBE]
  interval_cases r <;> rfl

theorem eq_of_msbs {w : Nat} {x y : BitVec w} (h : ∀ r, r < w → x.getMsbD r = y.getMsbD r) : x = y :=
  BitVec.eq_of_getMsbD_eq h

/-- A symbol is what its five bits say. -/
theorem textSymbol_eq {d : List Byte} {j : Nat} {v : Symbol} (h : ∀ r, r < 5 → v.getMsbD r = streamBit d (5 * j + r)) : v = textSymbol d j :=
  eq_of_msbs fun r hr => (h r hr).trans (textSymbol_bit d j r hr).symm

/-- A byte is what its eight bits say. -/
theorem decodedByte_eq {vs : List Symbol} {j : Nat} {c : Byte} (h : ∀ r, r < 8 → c.getMsbD r = symbolBit vs (8 * j + r)) : c = decodedByte vs j :=
  eq_of_msbs fun r hr => (h r hr).trans (decodedByte_bit vs j r hr).symm

/-! ### Texts -/

@[simp] theorem encText_length (d : List Byte) : (encText d).length = (8 * d.length + 4) / 5 := by simp [encText, textLength]

theorem encText_getD (d : List Byte) (j : Nat) (c : Byte) (h : j < textLength d.length) : (encText d).getD j c = alphabet (textSymbol d j) := by
  simp [encText, List.getD_eq_getElem?_getD, List.getElem?_range h]

@[simp] theorem symbolsOf_nil : symbolsOf [] = [] := rfl

theorem symbolsOf_append (x y : List Byte) : symbolsOf (x ++ y) = symbolsOf x ++ symbolsOf y := List.filterMap_append ..

theorem symbolsOf_singleton (c : Byte) : symbolsOf [c] = (match classify c with
    | .sym v => [v]
    | _      => []) := by
  simp only [symbolsOf, List.filterMap_cons, List.filterMap_nil]
  cases classify c <;> rfl

/-- The text of any data is symbols only. -/
theorem plainText_encText (d : List Byte) : plainText (encText d) = true := by
  simp [plainText, encText, classify_alphabet]

/-- The symbols of a text are those it was made from. -/
theorem symbolsOf_encText (d : List Byte) : symbolsOf (encText d) = (List.range (textLength d.length)).map (textSymbol d) := by
  unfold symbolsOf encText
  rw [List.filterMap_map, ← List.filterMap_eq_map]
  congr 1
  funext j
  simp [classify_alphabet]

/-- The bits of a text's symbols are the bits of its data. -/
theorem symbolBit_encText (d : List Byte) (k : Nat) (h : k < 5 * textLength d.length) : symbolBit (symbolsOf (encText d)) k = streamBit d k := by
  rw [symbolsOf_encText, show k = 5 * (k / 5) + k % 5 by omega, symbolBit_at _ _ _ (by omega)]
  rw [List.getD_eq_getElem?_getD, List.getElem?_map, List.getElem?_range (by omega)]
  exact textSymbol_bit d (k / 5) (k % 5) (by omega)

@[simp] theorem decodedBytes_length (vs : List Symbol) : (decodedBytes vs).length = 5 * vs.length / 8 := by simp [decodedBytes]

theorem decodedBytes_getD (vs : List Symbol) (j : Nat) (c : Byte) (h : j < 5 * vs.length / 8) : (decodedBytes vs).getD j c = decodedByte vs j := by
  simp [decodedBytes, List.getD_eq_getElem?_getD, List.getElem?_range h]

/-- A byte whose bits are all there does not change when more symbols follow. -/
theorem decodedByte_append (vs ws : List Symbol) (j : Nat) (h : j < 5 * vs.length / 8) : decodedByte (vs ++ ws) j = decodedByte vs j :=
  decodedByte_eq fun r hr => (decodedByte_bit (vs ++ ws) j r hr).trans (symbolBit_append_left vs ws _ (by omega))

end Sys2Proof.Machine
end

