-- ==== Sys2Proof/Laws/EncoderRun.lean ====
section
/-! SUPPORT. The encoder's loops (41_encode.md R134 to R141): what ACC holds, what has been written, and where the data loop and the padding loop
end. -/

namespace Sys2Proof.Machine

/-! ### What a command has written -/

/-- The first `n` bytes of `out` stand from `base` on, and the rest of memory is as in `s`. -/
structure Written (s : State) (base : Addr) (out : List Byte) (n : Nat) (u : State) : Prop where
  wf   : Memory.wf u.mem = true
  done : ∀ j, j < n → u.byteAt (base + BitVec.ofNat 32 j) = out.getD j 0#8
  kept : ∀ b : Addr, Region.contains ⟨base, n⟩ b = false → u.byteAt b = s.byteAt b

theorem Region.contains_mono {base b : Addr} {m n : Nat} (h : m ≤ n) (hb : Region.contains ⟨base, n⟩ b = false) : Region.contains ⟨base, m⟩ b = false := by
  simp only [Region.contains, decide_eq_false_iff_not] at hb ⊢
  omega

theorem Written.start {s u : State} (base : Addr) (out : List Byte) (hm : u.mem = s.mem) (h : Memory.wf s.mem = true) : Written s base out 0 u :=
  ⟨hm ▸ h, fun _ hj => absurd hj (Nat.not_lt_zero _), fun b _ => State.byteAt_congr hm b⟩

theorem Written.congr {s u v : State} {base : Addr} {out : List Byte} {n : Nat} (h : Written s base out n u) (hm : v.mem = u.mem) : Written s base out n v :=
  ⟨hm ▸ h.wf, fun j hj => (State.byteAt_congr hm _).trans (h.done j hj), fun b hb => (State.byteAt_congr hm b).trans (h.kept b hb)⟩

/-- What is written agrees with a longer output too. -/
theorem Written.extend {s u : State} {base : Addr} {out : List Byte} {n : Nat} (h : Written s base out n u) (more : List Byte) (hn : n ≤ out.length) :
    Written s base (out ++ more) n u :=
  ⟨h.wf, fun j hj => (h.done j hj).trans (List.getD_append _ _ _ _ (by omega)).symm, h.kept⟩

/-- The address of the next slot, counted in Nat. -/
theorem slot_ne {base : Addr} {i j : Nat} (hi : i < 2 ^ 32) (hj : j < 2 ^ 32) (h : i ≠ j) : base + BitVec.ofNat 32 i ≠ base + BitVec.ofNat 32 j := by
  intro e
  have := congrArg BitVec.toNat e
  simp only [BitVec.toNat_add, BitVec.toNat_ofNat] at this
  omega

theorem Written.put {s u v : State} {base : Addr} {out : List Byte} {n : Nat} {c : Byte} (h : Written s base out n u)
    (hn : n < 2 ^ 32) (hc : c = out.getD n 0#8) (hm : v.mem = (u.blockPut (base + BitVec.ofNat 32 n) c).mem) : Written s base out (n + 1) v := by
  refine ⟨hm ▸ State.wf_blockPut u _ c h.wf, fun j hj => ?_, fun b hb => ?_⟩
  · rw [State.byteAt_congr hm]
    by_cases e : j = n
    · subst e; rw [State.byteAt_blockPut_self u _ c h.wf, hc]
    · rw [State.byteAt_blockPut_other u _ _ c (slot_ne (by omega) hn e)]
      exact h.done j (by omega)
  · rw [State.byteAt_congr hm, State.byteAt_blockPut_other u _ _ c]
    · exact h.kept b (Region.contains_mono (Nat.le_succ n) hb)
    · intro e
      rw [e, Region.contains_add] at hb
      simp only [BitVec.toNat_ofNat, decide_eq_false_iff_not] at hb
      omega

/-! ### A running command that nobody disturbs -/

/-- From the accepted state `a` on: what a command never changes, and no host write raced with it. -/
structure Calm (a u : State) : Prop where
  fixed : SameFixed a u
  idleBus : a.schedule = []
  free : a.stuck = false
  racing : u.vis.racing = []
  clobbered : u.vis.clobbered = []

theorem Calm.reads {a u : State} (h : Calm a u) {x : Addr} (ha : a.admits .read x = true) : u.readsPlainly x :=
  ⟨(State.admits_congr h.fixed.denied _ _).trans ha, by rw [h.racing]; rfl⟩

theorem Calm.awake {a u : State} (h : Calm a u) : u.stuck = false := h.fixed.stuck.trans h.free

theorem Calm.step {a u : State} (h : Calm a u) : step u = blockStep u := by
  rw [Sys2Proof.Machine.step, h.fixed.schedule, h.idleBus]

/-! ### The data loop -/

/-- The bits `ACC` holds: the stream's, from bit `5 * cnt` on. -/
def HoldsBits (d : List Byte) (cnt : Nat) (acc : Acc) (bits : Nat) : Prop :=
  ∀ i, i < bits → acc.getLsbD i = streamBit d (5 * cnt + bits - 1 - i)

theorem HoldsBits.refill {d : List Byte} {cnt bits cur : Nat} {acc : Acc} {c : Byte} (h : HoldsBits d cnt acc bits) (hb : bits < 5)
    (hcur : 5 * cnt + bits = 8 * cur) (hc : c = d.getD cur 0#8) : HoldsBits d cnt ((acc <<< 8) ||| c.setWidth 13) (bits + 8) := by
  intro i hi
  simp only [BitVec.getLsbD_or, BitVec.getLsbD_shiftLeft, BitVec.getLsbD_setWidth]
  by_cases h8 : i < 8
  · have e : 5 * cnt + (bits + 8) - 1 - i = 8 * cur + (7 - i) := by omega
    rw [e, streamBit_at _ _ _ (by omega), ← hc, BitVec.getMsbD_eq_getLsbD]
    have : 8 - 1 - (7 - i) = i := by omega
    simp [h8, this, show i < 13 by omega, show 7 - i < 8 by omega]
  · have e : 5 * cnt + (bits + 8) - 1 - i = 5 * cnt + bits - 1 - (i - 8) := by omega
    rw [e, ← h (i - 8) (by omega)]
    simp [h8, show i < 13 by omega, BitVec.getLsbD_of_ge c i (by omega)]

theorem HoldsBits.fill {d : List Byte} {cnt bits : Nat} {acc : Acc} (h : HoldsBits d cnt acc bits) (hb : bits < 5)
    (hend : 8 * d.length ≤ 5 * cnt + bits) : HoldsBits d cnt (acc <<< (5 - bits)) 5 := by
  intro i hi
  simp only [BitVec.getLsbD_shiftLeft]
  by_cases h5 : i < 5 - bits
  · rw [streamBit_past _ _ (by omega)]
    simp [h5]
  · rw [show 5 * cnt + 5 - 1 - i = 5 * cnt + bits - 1 - (i - (5 - bits)) by omega, ← h (i - (5 - bits)) (by omega)]
    simp [h5, show i < 13 by omega]

theorem HoldsBits.symbol {d : List Byte} {cnt : Nat} {w : Work} (h : HoldsBits d cnt w.acc w.bits.toNat) (hb : 5 ≤ w.bits.toNat) :
    w.topSymbol = textSymbol d cnt := by
  refine textSymbol_eq fun r hr => ?_
  have hlt := w.bits.isLt
  rw [BitVec.getMsbD_eq_getLsbD, Work.topSymbol, BitVec.getLsbD_setWidth, BitVec.getLsbD_ushiftRight]
  rw [show w.bits.toNat - 5 + (5 - 1 - r) = w.bits.toNat - 1 - r by omega, h _ (by omega)]
  simp only [hr, show 5 - 1 - r < 5 by omega, decide_true, Bool.true_and]
  congr 1
  omega

theorem HoldsBits.taken {d : List Byte} {cnt bits : Nat} {acc : Acc} (h : HoldsBits d cnt acc bits) (hb : 5 ≤ bits) :
    HoldsBits d (cnt + 1) acc (bits - 5) := by
  intro i hi
  rw [h i (by omega)]
  congr 1
  omega

/-- One iteration of the data loop whose refill leaves the working registers `w` (R136 to R140). -/
theorem encData_turn {u : State} {w : Work} (hf : u.work.fsm = .encData) (hst : u.stuck = false) (hl : u.work.dataLoop = true)
    (hr : encRefill u = some { u with work := w }) (hwf : w.fsm = .encData) (hwo : w.wOut = u.work.wOut) (hwc : w.cnt = u.work.cnt)
    (ha : u.admits .write (u.work.wOut + u.work.cnt) = true) :
    blockStep u = .next { u.blockPut (u.work.wOut + u.work.cnt) (alphabet w.topSymbol) with
      work := { w with cnt := u.work.cnt + 1#32, bits := w.bits - 5#4 } } := by
  have hs : w.outSlot w.cnt = u.work.wOut + u.work.cnt := by rw [Work.outSlot, hwo, hwc]
  have hb : blockRule u = some { u.blockPut (u.work.wOut + u.work.cnt) (alphabet w.topSymbol) with
      work := { w with cnt := u.work.cnt + 1#32, bits := w.bits - 5#4 } } := by
    simp only [blockRule, hf, encData, hl, if_true, hr, Option.bind_some, encEmit, hs]
    rw [State.blockWrite_admitted _ _ _ (by exact ha)]
    simp only [Option.map_some, State.blockPut_work, hwc]
    rfl
  rw [blockStep_at u hf (by decide) hst (.inl (by decide)) hb, State.afterStep_of_busy]
  simp [State.busy, hwf]

/-- The refill of an iteration, in each of its three cases (R137, R138). -/
theorem encRefill_few {u : State} (h5 : u.work.bits.toNat < 5) (hm : u.work.cur.toNat < u.work.wLen.toNat)
    (hr : u.readsPlainly (u.work.wIn + u.work.cur)) :
    encRefill u = some { u with work := { u.work.shiftInByte (u.byteAt (u.work.wIn + u.work.cur)) with cur := u.work.cur + 1#32 } } := by
  unfold encRefill
  rw [if_neg (by simp [BitVec.le_def]; omega), if_pos ((Work.moreInput_iff _).mpr hm)]
  simp only [Work.inByte]
  rw [State.blockRead_plain u _ hr.1 hr.2]
  rfl

theorem encRefill_end {u : State} (h5 : u.work.bits.toNat < 5) (hm : u.work.wLen.toNat ≤ u.work.cur.toNat) :
    encRefill u = some { u with work := u.work.zeroFill } := by
  unfold encRefill
  rw [if_neg (by simp [BitVec.le_def]; omega), if_neg (by rw [Work.moreInput_iff]; omega)]

theorem encRefill_enough {u : State} (h5 : 5 ≤ u.work.bits.toNat) : encRefill u = some { u with work := u.work } := by
  unfold encRefill
  rw [if_pos (by simp [BitVec.le_def]; omega)]

/-- A point of the data loop: `cur` bytes read of the data `d`, `cnt` characters of `out` written. -/
structure EncPoint (s a : State) (d out : List Byte) (cur cnt : Nat) (u : State) : Prop where
  calm : Calm a u
  fsm  : u.work.fsm = .encData
  curEq : u.work.cur = BitVec.ofNat 32 cur
  cntEq : u.work.cnt = BitVec.ofNat 32 cnt
  read : cur ≤ d.length
  room : cnt ≤ a.work.wCap.toNat
  few  : u.work.bits.toNat ≤ 8
  pos  : 5 * cnt + u.work.bits.toNat = 8 * cur ∨ (cur = d.length ∧ cnt = textLength d.length ∧ u.work.bits.toNat = 0)
  acc  : HoldsBits d cnt u.work.acc u.work.bits.toNat
  written : Written s a.work.wOut out cnt u

/-- What the loop's runs assume of the accepted state `a`, the data and the text: the data fit the length and stand in the input
region, whose bytes no write of the command reaches, and the accesses it may make are admitted. -/
structure EncGround (s a : State) (d out : List Byte) : Prop where
  len  : a.work.wLen.toNat = d.length
  small : d.length < 2 ^ 28
  cap  : a.work.wCap.toNat < 2 ^ 31
  text : ∀ j, j < textLength d.length → out.getD j 0#8 = alphabet (textSymbol d j)
  data : ∀ i, i < d.length → s.byteAt (a.work.wIn + BitVec.ofNat 32 i) = d.getD i 0#8
  apart : ∀ i, i < d.length → Region.contains ⟨a.work.wOut, a.work.wCap.toNat⟩ (a.work.wIn + BitVec.ofNat 32 i) = false
  reads : ∀ i, i < d.length → 8 * i / 5 < a.work.wCap.toNat → a.admits .read (a.work.wIn + BitVec.ofNat 32 i) = true
  writes : ∀ j, j < a.work.wCap.toNat → a.admits .write (a.work.wOut + BitVec.ofNat 32 j) = true

theorem EncPoint.input {s a u : State} {d out : List Byte} {cur cnt : Nat} (g : EncGround s a d out) (h : EncPoint s a d out cur cnt u)
    (i : Nat) (hi : i < d.length) : u.byteAt (a.work.wIn + BitVec.ofNat 32 i) = d.getD i 0#8 :=
  (h.written.kept _ (Region.contains_mono h.room (g.apart i hi))).trans (g.data i hi)

/-- One iteration: one more character written (R136 to R140). -/
theorem EncPoint.next {s a u : State} {d out : List Byte} {cur cnt : Nat} (g : EncGround s a d out) (h : EncPoint s a d out cur cnt u)
    (hl : cnt < textLength d.length) (hc : cnt < a.work.wCap.toNat) :
    ∃ (v : State) (cur' : Nat), step u = .next v ∧ EncPoint s a d out cur' (cnt + 1) v := by
  have f := h.calm.fixed
  have hcap := g.cap
  have hsm := g.small
  have hcntN : u.work.cnt.toNat = cnt := by rw [h.cntEq]; simp; omega
  have hrd := h.read
  have hcurN : u.work.cur.toNat = cur := by rw [h.curEq]; simp; omega
  have hlenN : u.work.wLen.toNat = d.length := by rw [f.wLen, g.len]
  have hpos : 5 * cnt + u.work.bits.toNat = 8 * cur := by
    rcases h.pos with hp | hp
    · exact hp
    · omega
  have hslot : u.work.wOut + u.work.cnt = a.work.wOut + BitVec.ofNat 32 cnt := by rw [f.wOut, h.cntEq]
  have ha : u.admits .write (u.work.wOut + u.work.cnt) = true := by
    rw [hslot, State.admits_congr f.denied]; exact g.writes cnt hc
  have hloop : u.work.dataLoop = true := by
    rw [Work.dataLoop_iff, hcntN, hcurN, hlenN, f.wCap]
    refine ⟨hc, ?_⟩
    unfold textLength at hl
    omega
  -- what every refill leads to
  have go : ∀ (w : Work) (cur' : Nat), encRefill u = some { u with work := w } → SameFixed u { u with work := w } → w.fsm = .encData →
      w.cnt = u.work.cnt → w.cur = BitVec.ofNat 32 cur' → cur' ≤ d.length → 5 ≤ w.bits.toNat → w.bits.toNat ≤ 13 →
      HoldsBits d cnt w.acc w.bits.toNat →
      (5 * cnt + w.bits.toNat = 8 * cur' ∨ (cur' = d.length ∧ cnt + 1 = textLength d.length ∧ w.bits.toNat = 5)) →
      ∃ (v : State) (cur' : Nat), step u = .next v ∧ EncPoint s a d out cur' (cnt + 1) v := by
    intro w cur' hr hfx hwf hwc hwcur hle h5 h13 hacc hpos'
    have hsub : (w.bits - 5#4).toNat = w.bits.toNat - 5 := by
      rw [BitVec.toNat_sub]; simp; omega
    refine ⟨_, cur', h.calm.step.trans (encData_turn h.fsm h.calm.awake hloop hr hwf hfx.wOut hwc ha), ?_⟩
    refine ⟨⟨f.trans ⟨hfx.args, hfx.denied, hfx.stuck, hfx.schedule, hfx.replies, hfx.padReq, hfx.wIn, hfx.wLen, hfx.wOut, hfx.wCap⟩, h.calm.idleBus, h.calm.free, ?_, ?_⟩,
      hwf, hwcur, ?_, hle, by omega, ?_, ?_, ?_, ?_⟩
    · show forget u.vis.racing _ = []
      rw [h.calm.racing]; rfl
    · exact h.calm.clobbered
    · show u.work.cnt + 1#32 = _
      rw [h.cntEq]
      apply BitVec.eq_of_toNat_eq
      simp
    · show (w.bits - 5#4).toNat ≤ 8
      omega
    · show 5 * (cnt + 1) + (w.bits - 5#4).toNat = 8 * cur' ∨ (cur' = d.length ∧ cnt + 1 = textLength d.length ∧ (w.bits - 5#4).toNat = 0)
      omega
    · show HoldsBits d (cnt + 1) w.acc (w.bits - 5#4).toNat
      rw [hsub]; exact hacc.taken h5
    · refine h.written.put (by omega) (c := alphabet w.topSymbol) ?_ (by rw [← hslot])
      rw [g.text cnt hl, hacc.symbol h5]
  by_cases h5 : u.work.bits.toNat < 5
  · by_cases hm : cur < d.length
    · have hread : u.readsPlainly (u.work.wIn + u.work.cur) := by
        rw [f.wIn, h.curEq]; exact h.calm.reads (g.reads cur hm (by omega))
      have hbyte : u.byteAt (u.work.wIn + u.work.cur) = d.getD cur 0#8 := by
        rw [f.wIn, h.curEq]; exact h.input g cur hm
      have hb : (u.work.bits + 8#4).toNat = u.work.bits.toNat + 8 := by simp; omega
      refine go _ (cur + 1) (encRefill_few h5 (by omega) hread) ⟨rfl, rfl, rfl, rfl, rfl, rfl, rfl, rfl, rfl, rfl⟩ h.fsm rfl ?_ (by omega) ?_ ?_ ?_ (.inl ?_)
      · show u.work.cur + 1#32 = _
        rw [h.curEq]; apply BitVec.eq_of_toNat_eq; simp
      · show 5 ≤ (u.work.bits + 8#4).toNat
        omega
      · show (u.work.bits + 8#4).toNat ≤ 13
        omega
      · show HoldsBits d cnt _ (u.work.bits + 8#4).toNat
        rw [hb]; exact h.acc.refill h5 hpos hbyte
      · show 5 * cnt + (u.work.bits + 8#4).toNat = 8 * (cur + 1)
        omega
    · refine go _ cur (encRefill_end h5 (by omega)) ⟨rfl, rfl, rfl, rfl, rfl, rfl, rfl, rfl, rfl, rfl⟩ h.fsm rfl h.curEq h.read (by simp) (by simp) ?_ (.inr ⟨by omega, ?_, by simp⟩)
      · show HoldsBits d cnt (u.work.acc <<< (5 - u.work.bits.toNat)) 5
        exact h.acc.fill h5 (by omega)
      · unfold textLength at hl ⊢; omega
  · have hfew := h.few
    exact go u.work cur (encRefill_enough (by omega)) (SameFixed.refl _) h.fsm rfl h.curEq h.read (by omega) (by omega) h.acc (.inl hpos)

/-- Where the data loop ends: all characters written or the capacity used up (R136). -/
theorem EncPoint.run {s a u : State} {d out : List Byte} {cur cnt : Nat} (g : EncGround s a d out) (h : EncPoint s a d out cur cnt u) (k : Nat)
    (hk : cnt + k = min a.work.wCap.toNat (textLength d.length)) :
    ∃ (v : State) (cur' : Nat), Runs u k v ∧ EncPoint s a d out cur' (cnt + k) v := by
  induction k generalizing u cur cnt with
  | zero => exact ⟨u, cur, Runs.zero u, h⟩
  | succ k ih =>
    obtain ⟨v, cur1, hs, hp⟩ := h.next g (by omega) (by omega)
    obtain ⟨w, cur2, hr, hq⟩ := ih hp (by omega)
    refine ⟨w, cur2, Runs.cons (State.busy_of_fsm h.fsm (by decide)) hs hr, ?_⟩
    rw [show cnt + (k + 1) = cnt + 1 + k by omega]
    exact hq

/-! ### The padding loop -/

/-- A point of the padding loop: `cnt` bytes of `out` written, of which the characters are all or fill the capacity. -/
structure PadPoint (s a : State) (d out : List Byte) (cnt : Nat) (u : State) : Prop where
  calm : Calm a u
  fsm  : u.work.fsm = .encPad
  cntEq : u.work.cnt = BitVec.ofNat 32 cnt
  room : cnt ≤ a.work.wCap.toNat
  low  : min a.work.wCap.toNat (textLength d.length) ≤ cnt
  all  : textLength d.length ≤ a.work.wCap.toNat → u.work.bits = 0#4 ∧ u.work.cur = u.work.wLen
  written : Written s a.work.wOut out cnt u

/-- The step that leaves the data loop (R136). -/
theorem EncPoint.leave {s a u : State} {d out : List Byte} {cur cnt : Nat} (g : EncGround s a d out) (h : EncPoint s a d out cur cnt u)
    (hk : cnt = min a.work.wCap.toNat (textLength d.length)) : ∃ v : State, step u = .next v ∧ PadPoint s a d out cnt v := by
  have f := h.calm.fixed
  have hcap := g.cap
  have hsm := g.small
  have hcntN : u.work.cnt.toNat = cnt := by rw [h.cntEq]; simp; omega
  have hrd := h.read
  have hcurN : u.work.cur.toNat = cur := by rw [h.curEq]; simp; omega
  have hlenN : u.work.wLen.toNat = d.length := by rw [f.wLen, g.len]
  have hpos := h.pos
  have hfew := h.few
  have hlow : textLength d.length ≤ a.work.wCap.toNat → u.work.bits.toNat = 0 ∧ cur = d.length := by
    intro hle
    have : cnt = textLength d.length := by omega
    unfold textLength at this hpos
    omega
  have hloop : ¬ u.work.dataLoop = true := by
    rw [Work.dataLoop_iff, hcntN, hcurN, hlenN, f.wCap]
    rintro ⟨h1, h2⟩
    have := hlow (by omega)
    omega
  have hb : blockRule u = some (u.goto .encPad) := by
    simp only [blockRule, h.fsm, encData, hloop]; rfl
  refine ⟨u.goto .encPad, ?_, ?_⟩
  · rw [h.calm.step, blockStep_at u h.fsm (by decide) h.calm.awake (.inl (by decide)) hb, State.afterStep_of_busy rfl]
  · refine ⟨⟨f.trans ⟨rfl, rfl, rfl, rfl, rfl, rfl, rfl, rfl, rfl, rfl⟩, h.calm.idleBus, h.calm.free, h.calm.racing, h.calm.clobbered⟩, rfl, h.cntEq, h.room, by omega, ?_, h.written.congr rfl⟩
    intro hle
    obtain ⟨h0, h1⟩ := hlow hle
    refine ⟨BitVec.eq_of_toNat_eq (by simpa using h0), BitVec.eq_of_toNat_eq ?_⟩
    show u.work.cur.toNat = u.work.wLen.toNat
    omega

/-- The padding loop goes on exactly while the whole text is not there and capacity remains (R141). -/
theorem padLoop_at {s a u : State} {d : List Byte} {pad : Bool} {cnt : Nat} (h : PadPoint s a d (fullText pad d) cnt u) (hcap : a.work.wCap.toNat < 2 ^ 31)
    (hp : a.work.padReq = pad) (hle : cnt ≤ (fullText pad d).length ∨ a.work.wCap.toNat ≤ cnt) :
    u.work.padLoop = true ↔ cnt < (fullText pad d).length ∧ cnt < a.work.wCap.toNat := by
  have f := h.calm.fixed
  have hroom := h.room
  have hcntN : u.work.cnt.toNat = cnt := by rw [h.cntEq]; simp; omega
  have hlow := h.low
  rw [Work.padLoop_iff, f.padReq, hp, hcntN, f.wCap]
  cases pad
  · simp only [fullText, Bool.false_eq_true, if_false, encText_length]
    unfold textLength at hlow
    simp
    omega
  · simp only [fullText, if_true, List.length_append, List.length_replicate, encText_length, padCount] at hle ⊢
    unfold textLength at hlow
    simp
    omega

/-- One `=` appended (R141). -/
theorem PadPoint.next {s a u : State} {d : List Byte} {pad : Bool} {cnt : Nat} (g : EncGround s a d (fullText pad d)) (h : PadPoint s a d (fullText pad d) cnt u)
    (hp : a.work.padReq = pad) (hl : cnt < (fullText pad d).length) (hc : cnt < a.work.wCap.toNat) :
    ∃ v : State, step u = .next v ∧ PadPoint s a d (fullText pad d) (cnt + 1) v := by
  have f := h.calm.fixed
  have hcap := g.cap
  have hloop := (padLoop_at h hcap hp (.inl (by omega))).mpr ⟨hl, hc⟩
  have hslot : u.work.wOut + u.work.cnt = a.work.wOut + BitVec.ofNat 32 cnt := by rw [f.wOut, h.cntEq]
  have ha : u.admits .write (u.work.wOut + u.work.cnt) = true := by
    rw [hslot, State.admits_congr f.denied]; exact g.writes cnt hc
  have hb : blockRule u = some { u.blockPut (u.work.wOut + u.work.cnt) padByte with work := { u.work with cnt := u.work.cnt + 1#32 } } := by
    simp only [blockRule, h.fsm, encPad, hloop, if_true, Work.outSlot, State.blockWrite_admitted _ _ _ ha]; simp [h.fsm]
  have hch : padByte = (fullText pad d).getD cnt 0#8 := by
    have hlow := h.low
    cases pad
    · simp only [fullText, Bool.false_eq_true, if_false, encText_length] at hl
      unfold textLength at hlow
      omega
    · simp only [fullText, if_true, List.length_append, List.length_replicate, encText_length] at hl ⊢
      unfold textLength at hlow
      rw [List.getD_append_right _ _ _ _ (by simp; omega), List.getD_eq_getElem _ _ (by simp; omega)]
      simp
  have hs : step u = .next { u.blockPut (u.work.wOut + u.work.cnt) padByte with work := { u.work with cnt := u.work.cnt + 1#32 } } := by
    rw [h.calm.step, blockStep_at u h.fsm (by decide) h.calm.awake (.inl (by decide)) hb, State.afterStep_of_busy (by simp [State.busy, h.fsm])]
  refine ⟨_, hs, ⟨⟨f.trans ⟨rfl, rfl, rfl, rfl, rfl, rfl, rfl, rfl, rfl, rfl⟩, h.calm.idleBus, h.calm.free, ?_, h.calm.clobbered⟩, h.fsm, ?_, by omega, ?_, h.all, ?_⟩⟩
  · show forget u.vis.racing _ = []
    rw [h.calm.racing]; rfl
  · show u.work.cnt + 1#32 = _
    rw [h.cntEq]; apply BitVec.eq_of_toNat_eq; simp
  · have := h.low
    omega
  · exact h.written.put (by omega) hch (by rw [← hslot])

theorem PadPoint.run {s a u : State} {d : List Byte} {pad : Bool} {cnt : Nat} (g : EncGround s a d (fullText pad d)) (h : PadPoint s a d (fullText pad d) cnt u)
    (hp : a.work.padReq = pad) (k : Nat) (hk : cnt + k = min a.work.wCap.toNat (fullText pad d).length) :
    ∃ v : State, Runs u k v ∧ PadPoint s a d (fullText pad d) (cnt + k) v := by
  induction k generalizing u cnt with
  | zero => exact ⟨u, Runs.zero u, h⟩
  | succ k ih =>
    obtain ⟨v, hs, hq⟩ := h.next g hp (by omega) (by omega)
    obtain ⟨w, hr, hq'⟩ := ih hq (by omega)
    refine ⟨w, Runs.cons (State.busy_of_fsm h.fsm (by decide)) hs hr, ?_⟩
    rw [show cnt + (k + 1) = cnt + 1 + k by omega]
    exact hq'

end Sys2Proof.Machine
end

