-- ==== Sys2Proof/Laws/DecoderRun.lean ====
section
/-! SUPPORT. The decoder's scan (40_decode.md R103 to R114): one turn in each case of the byte read, what ACC holds, what has been written, and
the control of the scan apart from the data. -/

namespace Sys2Proof.Machine

/-! ### One turn, case by case -/

/-- The scanning block with its byte consumed (R104). -/
def State.consumed (u : State) : State := { u with work := { u.work with cur := u.work.cur + 1#32 } }

theorem decScan_turn {u t : State} (hf : u.work.fsm = .decScan) (hst : u.stuck = false) (hm : u.work.cur.toNat < u.work.wLen.toNat)
    (hr : u.readsPlainly (u.work.wIn + u.work.cur)) (ht : decByte u.consumed (u.byteAt (u.work.wIn + u.work.cur)) = some t) :
    blockStep u = .next t.afterStep := by
  refine blockStep_at u hf (by decide) hst (.inr (by omega)) ?_
  simp only [blockRule, hf, decScan, Work.inByte]
  rw [if_pos ((Work.moreInput_iff _).mpr hm), State.blockRead_plain u _ hr.1 hr.2]
  exact ht

theorem decByte_pad (u : State) : decByte u padByte = some { u with work := u.work.padStep } := rfl

theorem decByte_inPadding {u : State} {c : Byte} (hne : c ≠ padByte) (hp : u.work.padStart = true) :
    decByte u c = some (u.raiseError .invalidCharacter) := by
  simp [decByte, hne, hp]

theorem decByte_separator {u : State} {c : Byte} (hp : u.work.padStart = false) (hs : isSeparator c = true) : decByte u c = some u := by
  have hne : c ≠ padByte := fun e => by rw [e] at hs; exact absurd hs (by decide)
  simp [decByte, hne, hp, hs]

theorem decByte_bad {u : State} {c : Byte} (hne : c ≠ padByte) (hp : u.work.padStart = false) (hs : isSeparator c = false) (hl : lookup (typo c) = none) :
    decByte u c = some (u.raiseError .invalidCharacter) := by
  simp [decByte, hne, hp, hs, decSymbol, hl]

theorem decByte_symbol {u : State} {c : Byte} {v : Symbol} (hne : c ≠ padByte) (hp : u.work.padStart = false) (hs : isSeparator c = false)
    (hl : lookup (typo c) = some v) : decByte u c = decEmit { u with work := u.work.shiftInSymbol v } := by
  simp [decByte, hne, hp, hs, decSymbol, hl]

theorem decEmit_put {u : State} (h8 : 8 ≤ u.work.bits.toNat) (hr : u.work.roomLeft = true) (ha : u.admits .write (u.work.outSlot u.work.cnt) = true) :
    decEmit u = some { u.blockPut (u.work.outSlot u.work.cnt) u.work.topByte with
      work := { u.work with cnt := u.work.cnt + 1#32, bits := u.work.bits - 8#4 } } := by
  simp [decEmit, BitVec.le_def, h8, hr, State.blockWrite_admitted _ _ _ ha]

theorem decEmit_full {u : State} (h8 : 8 ≤ u.work.bits.toNat) (hr : u.work.roomLeft = false) :
    decEmit u = some { u with work := { u.work with bits := u.work.bits - 8#4 } } := by
  simp [decEmit, BitVec.le_def, h8, hr]

theorem decEmit_few {u : State} (h8 : u.work.bits.toNat < 8) : decEmit u = some u := by
  have : ¬ 8 ≤ u.work.bits.toNat := by omega
  simp [decEmit, BitVec.le_def, this]

theorem dropByte_toNat (b : BitCount) : (dropByte b).toNat = if 8 ≤ b.toNat then b.toNat - 8 else b.toNat := by
  have := b.isLt
  unfold dropByte
  simp only [BitVec.le_def, BitVec.toNat_ofNat]
  split <;> simp [BitVec.toNat_sub]
  omega

/-! ### The control of the scan -/

/-- BITS and PADSTART after a byte, or `none` for INVALID_CHARACTER: they depend on the bytes alone (R105 to R114). -/
def scanControl (bits : BitCount) (padStart : Bool) (c : Byte) : Option (BitCount × Bool) :=
  if c = padByte then some (dropByte (bits + 5#4), decide (dropByte (bits + 5#4) ≠ 0#4))
  else if padStart then none
  else if isSeparator c then some (bits, padStart)
  else match lookup (typo c) with
    | none   => none
    | some _ => some (dropByte (bits + 5#4), padStart)

/-- A point of the scan: `cur` bytes consumed. -/
structure ScanPoint (a : State) (cur : Nat) (u : State) : Prop where
  calm : Calm a u
  fsm  : u.work.fsm = .decScan
  curEq : u.work.cur = BitVec.ofNat 32 cur
  read : cur ≤ a.work.wLen.toNat
  few  : u.work.bits.toNat ≤ 7
  room : u.work.cnt.toNat ≤ a.work.wCap.toNat

/-- What a turn does to memory: it writes only inside the output region (R65). -/
abbrev KeepsOutside (a u v : State) : Prop := ∀ b : Addr, a.work.outputRegion.contains b = false → v.byteAt b = u.byteAt b

/-- One turn of the scan: the next point or INVALID_CHARACTER, as `scanControl` says. -/
theorem ScanPoint.next {a u : State} {cur : Nat} (h : ScanPoint a cur u) (hlt : cur < a.work.wLen.toNat)
    (hrd : a.admits .read (a.work.wIn + BitVec.ofNat 32 cur) = true)
    (hwr : ∀ j, j < a.work.wCap.toNat → a.admits .write (a.work.wOut + BitVec.ofNat 32 j) = true) :
    ∃ v : State, step u = .next v ∧
      match scanControl u.work.bits u.work.padStart (u.byteAt (a.work.wIn + BitVec.ofNat 32 cur)) with
      | none => v.busy = false ∧ v.statusWord = 0x00000016#32 ∧ v.work.cur = BitVec.ofNat 32 (cur + 1) ∧ v.work.bits = u.work.bits ∧
          v.work.padStart = u.work.padStart
      | some (b, p) => ScanPoint a (cur + 1) v ∧ v.work.bits = b ∧ v.work.padStart = p ∧ KeepsOutside a u v := by
  have f := h.calm.fixed
  have hlen : a.work.wLen.toNat < 2 ^ 32 := a.work.wLen.isLt
  have hcurN : u.work.cur.toNat = cur := by rw [h.curEq]; simp; omega
  have hin : u.work.wIn + u.work.cur = a.work.wIn + BitVec.ofNat 32 cur := by rw [f.wIn, h.curEq]
  have hcur1 : u.work.cur + 1#32 = BitVec.ofNat 32 (cur + 1) := by rw [h.curEq]; apply BitVec.eq_of_toNat_eq; simp
  have turn : ∀ t, decByte u.consumed (u.byteAt (a.work.wIn + BitVec.ofNat 32 cur)) = some t → step u = .next t.afterStep := by
    intro t ht
    rw [h.calm.step]
    refine decScan_turn h.fsm h.calm.awake (by rw [f.wLen]; omega) (by rw [hin]; exact h.calm.reads hrd) (by rw [hin]; exact ht)
  have fail : ∀ c, decByte u.consumed c = some (u.consumed.raiseError .invalidCharacter) → c = u.byteAt (a.work.wIn + BitVec.ofNat 32 cur) →
      ∃ v : State, step u = .next v ∧ v.busy = false ∧ v.statusWord = 0x00000016#32 ∧ v.work.cur = BitVec.ofNat 32 (cur + 1) ∧
        v.work.bits = u.work.bits ∧ v.work.padStart = u.work.padStart := by
    intro c hc e
    subst e
    refine ⟨_, turn _ hc, ?_⟩
    rw [State.afterStep_of_idle rfl]
    exact ⟨rfl, (statusWord_error (c := .invalidCharacter) (n := u.work.cnt) rfl rfl).trans (by decide), hcur1, rfl, rfl⟩
  have go : ∀ (w : Work), SameFixed u { u with work := w } → w.fsm = .decScan → w.cur = u.work.cur + 1#32 → w.bits.toNat ≤ 7 → w.cnt = u.work.cnt →
      decByte u.consumed (u.byteAt (a.work.wIn + BitVec.ofNat 32 cur)) = some { u with work := w } →
      ∃ v : State, step u = .next v ∧ ScanPoint a (cur + 1) v ∧ v.work.bits = w.bits ∧ v.work.padStart = w.padStart ∧ KeepsOutside a u v := by
    intro w hfx hwf hwcur hwb hwc hd
    refine ⟨_, turn _ hd, ?_⟩
    rw [State.afterStep_of_busy (by simp [State.busy, hwf])]
    exact ⟨⟨⟨f.trans hfx, h.calm.idleBus, h.calm.free, h.calm.racing, h.calm.clobbered⟩, hwf, hwcur.trans hcur1, by omega, hwb, by rw [hwc]; exact h.room⟩, rfl, rfl,
      fun _ _ => rfl⟩
  have hfew := h.few
  generalize hc : u.byteAt (a.work.wIn + BitVec.ofNat 32 cur) = c at turn fail go
  have hdrop : (dropByte (u.work.bits + 5#4)).toNat ≤ 7 := by
    rw [dropByte_toNat]
    have : (u.work.bits + 5#4).toNat = u.work.bits.toNat + 5 := by simp; omega
    split <;> omega
  unfold scanControl
  by_cases hpad : c = padByte
  · rw [if_pos hpad]
    subst hpad
    exact go { u.consumed.work.padStep with } ⟨rfl, rfl, rfl, rfl, rfl, rfl, rfl, rfl, rfl, rfl⟩ h.fsm rfl hdrop rfl (decByte_pad _)
  · rw [if_neg hpad]
    cases hps : u.work.padStart
    · simp only [Bool.false_eq_true, if_false]
      have hps' : u.consumed.work.padStart = false := hps
      cases hsep : isSeparator c
      · simp only [Bool.false_eq_true, if_false]
        cases hl : lookup (typo c) with
        | none =>
          obtain ⟨v, h1, h2, h3, h4, h5, h6⟩ := fail c (decByte_bad hpad hps' hsep hl) rfl
          exact ⟨v, h1, h2, h3, h4, h5, h6.trans hps⟩
        | some v =>
          have hbits : (u.work.bits + 5#4).toNat = u.work.bits.toNat + 5 := by simp; omega
          have hd := decByte_symbol (u := u.consumed) hpad hps' hsep hl
          by_cases h8 : 8 ≤ u.work.bits.toNat + 5
          · have hdb : dropByte (u.work.bits + 5#4) = u.work.bits + 5#4 - 8#4 := by
              unfold dropByte; rw [if_pos (by simp only [BitVec.le_def]; rw [hbits]; exact h8)]
            cases hroom : u.work.roomLeft
            · have he := decEmit_full (u := { u.consumed with work := u.consumed.work.shiftInSymbol v }) (by show 8 ≤ (u.work.bits + 5#4).toNat; omega) hroom
              obtain ⟨v', h1, h2, h3, h4, h5⟩ := go { u.consumed.work.shiftInSymbol v with bits := u.work.bits + 5#4 - 8#4 }
                ⟨rfl, rfl, rfl, rfl, rfl, rfl, rfl, rfl, rfl, rfl⟩ h.fsm rfl (by rw [← hdb]; exact hdrop) rfl (hd.trans he)
              exact ⟨v', h1, h2, by rw [h3, hdb], h4.trans hps, h5⟩
            · have hroomN := (Work.roomLeft_iff _).mp hroom
              rw [f.wCap] at hroomN
              have hslot : u.work.outSlot u.work.cnt = a.work.wOut + BitVec.ofNat 32 u.work.cnt.toNat := by
                rw [Work.outSlot, f.wOut]; simp
              have ha : u.admits .write (u.work.outSlot u.work.cnt) = true := by
                rw [hslot, State.admits_congr f.denied]; exact hwr _ hroomN
              have he := decEmit_put (u := { u.consumed with work := u.consumed.work.shiftInSymbol v }) (by show 8 ≤ (u.work.bits + 5#4).toNat; omega) hroom ha
              refine ⟨_, turn _ (hd.trans he), ?_⟩
              rw [State.afterStep_of_busy (by simp [State.busy, State.consumed, h.fsm])]
              refine ⟨⟨⟨f.trans ⟨rfl, rfl, rfl, rfl, rfl, rfl, rfl, rfl, rfl, rfl⟩, h.calm.idleBus, h.calm.free, ?_, h.calm.clobbered⟩, h.fsm, hcur1, by omega, ?_, ?_⟩, ?_, hps, ?_⟩
              · show forget u.vis.racing _ = []
                rw [h.calm.racing]; rfl
              · show (u.work.bits + 5#4 - 8#4).toNat ≤ 7
                rw [← hdb]; exact hdrop
              · show (u.work.cnt + 1#32).toNat ≤ _
                have := a.work.wCap.isLt
                simp; omega
              · show u.work.bits + 5#4 - 8#4 = _
                rw [hdb]
              · intro b hb
                refine State.byteAt_blockPut_other u _ b _ ?_
                intro e
                rw [show b = u.work.outSlot u.work.cnt from e, hslot, Work.outputRegion, Region.contains_add] at hb
                have := a.work.wCap.isLt
                simp at hb
                omega
          · have hdb : dropByte (u.work.bits + 5#4) = u.work.bits + 5#4 := by
              unfold dropByte; rw [if_neg (by simp only [BitVec.le_def]; rw [hbits]; exact h8)]
            have he := decEmit_few (u := { u.consumed with work := u.consumed.work.shiftInSymbol v }) (by show (u.work.bits + 5#4).toNat < 8; omega)
            obtain ⟨v', h1, h2, h3, h4, h5⟩ := go (u.consumed.work.shiftInSymbol v)
              ⟨rfl, rfl, rfl, rfl, rfl, rfl, rfl, rfl, rfl, rfl⟩ h.fsm rfl (by show (u.work.bits + 5#4).toNat ≤ 7; rw [← hdb]; exact hdrop) rfl (hd.trans he)
            exact ⟨v', h1, h2, by rw [hdb]; exact h3, h4.trans hps, h5⟩
      · simp only [if_true]
        obtain ⟨v, h1, h2, h3, h4, h5⟩ := go u.consumed.work ⟨rfl, rfl, rfl, rfl, rfl, rfl, rfl, rfl, rfl, rfl⟩ h.fsm rfl hfew rfl (decByte_separator hps' hsep)
        exact ⟨v, h1, h2, h3, h4.trans hps, h5⟩
    · simp only [if_true]
      obtain ⟨v, h1, h2, h3, h4, h5, h6⟩ := fail c (decByte_inPadding hpad hps) rfl
      exact ⟨v, h1, h2, h3, h4, h5, h6.trans hps⟩

/-- The end of the input: DEC_SCAN, then DEC_FIN, and the command has succeeded (R103, R115). -/
theorem ScanPoint.finish {a u : State} (h : ScanPoint a a.work.wLen.toNat u)
    (hwr : ∀ j, j < a.work.wCap.toNat → a.admits .write (a.work.wOut + BitVec.ofNat 32 j) = true) :
    ∃ t : State, Runs u 2 t ∧ t.busy = false ∧ t.statusWord = 0x00000002#32 ∧ t.result.count = u.work.cnt ∧ t.work = { u.work with fsm := .idle } ∧
      KeepsTheRest u t ∧ (u.work.cnt.toNat < a.work.wCap.toNat → t.mem = (u.blockPut (a.work.wOut + u.work.cnt) nul).mem) ∧
      (a.work.wCap.toNat ≤ u.work.cnt.toNat → t.mem = u.mem) := by
  have f := h.calm.fixed
  have hend : u.work.cur = u.work.wLen := by rw [h.curEq, f.wLen]; simp
  have hb1 : blockRule u = some (u.goto .decFin) := by
    simp only [blockRule, h.fsm, decScan]; rw [if_neg (by rw [Work.moreInput_iff, hend]; omega)]
  have hs1 : step u = .next (u.goto .decFin) := by
    rw [h.calm.step, blockStep_at u h.fsm (by decide) h.calm.awake (.inr (by rw [hend])) hb1, State.afterStep_of_busy rfl]
  have hs2 : step (u.goto .decFin) = blockStep (u.goto .decFin) := by
    rw [Sys2Proof.Machine.step]; show (match u.schedule with | [] => _ | e :: rest => _) = _; rw [f.schedule, h.calm.idleBus]
  have ends : ∀ v : State, blockRule (u.goto .decFin) = some v → v.busy = false → v.result = ⟨true, false, none, u.work.cnt⟩ → v.vis.clobbered = [] →
      v.work = { u.work with fsm := .idle } → KeepsTheRest u v →
      Runs u 2 v.afterStep ∧ v.afterStep.busy = false ∧ v.afterStep.statusWord = 0x00000002#32 ∧ v.afterStep.result.count = u.work.cnt ∧
        v.afterStep.work = { u.work with fsm := .idle } ∧ KeepsTheRest u v.afterStep ∧ v.afterStep.mem = v.mem := by
    intro v hv hb hr hc hw hk
    have hst := hs2.trans (blockStep_at (f := .decFin) (u.goto .decFin) rfl (by decide) h.calm.awake (.inl (by decide)) hv)
    refine ⟨Runs.cons (State.busy_of_fsm h.fsm (by decide)) hs1 (Runs.cons rfl hst (Runs.zero _)), ?_⟩
    rw [State.afterStep_of_idle hb]
    exact ⟨hb, statusWord_success hb hr, by show v.result.count = _; rw [hr], hw, hk, by simp [State.settleRaces, hc, clobber]⟩
  cases hroom : u.work.roomLeft
  · have hn : ¬ u.work.cnt.toNat < a.work.wCap.toNat := by rw [← f.wCap, ← Work.roomLeft_iff, hroom]; decide
    have hb2 : blockRule (u.goto .decFin) = some ((u.goto .decFin).finish u.work.cnt) := by
      show decFin (u.goto .decFin) = _
      unfold decFin
      rw [if_neg (by show ¬ u.work.roomLeft = true; rw [hroom]; decide)]
      rfl
    obtain ⟨h1, h2, h3, h4, h5, h6, h7⟩ := ends _ hb2 rfl rfl h.calm.clobbered rfl ⟨rfl, rfl, rfl, rfl, rfl⟩
    exact ⟨_, h1, h2, h3, h4, h5, h6, fun hh => absurd hh hn, fun _ => h7⟩
  · have hn : u.work.cnt.toNat < a.work.wCap.toNat := by rw [← f.wCap, ← Work.roomLeft_iff, hroom]
    have hslot : u.work.outSlot u.work.cnt = a.work.wOut + u.work.cnt := by rw [Work.outSlot, f.wOut]
    have ha : u.admits .write (a.work.wOut + u.work.cnt) = true := by
      rw [State.admits_congr f.denied]; have := hwr _ hn; simpa using this
    have hb2 : blockRule (u.goto .decFin) = some (((u.goto .decFin).blockPut (a.work.wOut + u.work.cnt) nul).finish u.work.cnt) := by
      show decFin (u.goto .decFin) = _
      unfold decFin
      rw [if_pos (by exact hroom)]
      show Option.map _ ((u.goto .decFin).blockWrite (u.work.outSlot u.work.cnt) nul) = _
      rw [hslot, State.blockWrite_admitted _ _ _ (by exact ha)]; rfl
    obtain ⟨h1, h2, h3, h4, h5, h6, h7⟩ := ends _ hb2 rfl rfl h.calm.clobbered rfl ⟨rfl, rfl, rfl, rfl, rfl⟩
    exact ⟨_, h1, h2, h3, h4, h5, h6, fun _ => h7, fun hh => by omega⟩

/-! ### The symbols of a text -/

/-- The bits `ACC` holds: the last of the indices' stream. -/
def HoldsSymbolBits (vs : List Symbol) (acc : Acc) (bits : Nat) : Prop := ∀ i, i < bits → acc.getLsbD i = symbolBit vs (5 * vs.length - 1 - i)

theorem HoldsSymbolBits.shift {vs : List Symbol} {acc : Acc} {bits : Nat} (h : HoldsSymbolBits vs acc bits) (hb : bits ≤ 7) (hle : bits ≤ 5 * vs.length)
    (v : Symbol) : HoldsSymbolBits (vs ++ [v]) ((acc <<< 5) ||| v.setWidth 13) (bits + 5) := by
  intro i hi
  simp only [BitVec.getLsbD_or, BitVec.getLsbD_shiftLeft, BitVec.getLsbD_setWidth, List.length_append, List.length_singleton]
  by_cases h5 : i < 5
  · rw [show 5 * (vs.length + 1) - 1 - i = 5 * vs.length + (4 - i) by omega, symbolBit_snoc _ _ _ (by omega), BitVec.getMsbD_eq_getLsbD]
    rw [show 5 - 1 - (4 - i) = i by omega]
    simp [h5, show i < 13 by omega, show 4 - i < 5 by omega]
  · rw [show 5 * (vs.length + 1) - 1 - i = 5 * vs.length - 1 - (i - 5) by omega, symbolBit_append_left _ _ _ (by omega), ← h (i - 5) (by omega)]
    simp [h5, show i < 13 by omega, BitVec.getLsbD_of_ge v i (by omega)]

theorem HoldsSymbolBits.byte {vs : List Symbol} {w : Work} {j : Nat} (h : HoldsSymbolBits vs w.acc w.bits.toNat) (hb : 8 ≤ w.bits.toNat)
    (hj : 8 * j + w.bits.toNat = 5 * vs.length) : w.topByte = decodedByte vs j := by
  refine decodedByte_eq fun r hr => ?_
  have hlt := w.bits.isLt
  rw [BitVec.getMsbD_eq_getLsbD, Work.topByte, BitVec.getLsbD_setWidth, BitVec.getLsbD_ushiftRight]
  rw [show w.bits.toNat - 8 + (8 - 1 - r) = w.bits.toNat - 1 - r by omega, h _ (by omega)]
  simp only [hr, show 8 - 1 - r < 8 by omega, decide_true, Bool.true_and]
  congr 1
  omega

/-- A point of the scan of a piece `body` of the text, symbols and separators only, that begins at byte `start` with no bits left over
(R119): `cur` characters of it are consumed, the bytes `pre` of the pieces before it and those of its own are written, as many as fit,
and ACC holds the rest of its bits. -/
structure DecPoint (s a : State) (start : Nat) (pre body : List Byte) (cur : Nat) (u : State) : Prop where
  scan : ScanPoint a (start + cur) u
  cntEq : u.work.cnt = BitVec.ofNat 32 (min a.work.wCap.toNat (pre.length + 5 * (symbolsOf (body.take cur)).length / 8))
  bitsEq : u.work.bits.toNat = 5 * (symbolsOf (body.take cur)).length % 8
  acc : HoldsSymbolBits (symbolsOf (body.take cur)) u.work.acc u.work.bits.toNat
  unpadded : u.work.padStart = false
  written : Written s a.work.wOut (pre ++ decodedBytes (symbolsOf body))
    (min a.work.wCap.toNat (pre.length + 5 * (symbolsOf (body.take cur)).length / 8)) u

/-- One character of the text (R108, R112 to R114). -/
theorem DecPoint.next {s a u : State} {start : Nat} {pre body : List Byte} {cur : Nat} (h : DecPoint s a start pre body cur u) (hlt : cur < body.length)
    (hle : start + body.length ≤ a.work.wLen.toNat) (hplain : plainText body = true) (hcap : a.work.wCap.toNat < 2 ^ 31)
    (hbyte : u.byteAt (a.work.wIn + BitVec.ofNat 32 (start + cur)) = body[cur])
    (hrd : a.admits .read (a.work.wIn + BitVec.ofNat 32 (start + cur)) = true)
    (hwr : ∀ j, j < a.work.wCap.toNat → a.admits .write (a.work.wOut + BitVec.ofNat 32 j) = true) :
    ∃ v : State, step u = .next v ∧ DecPoint s a start pre body (cur + 1) v := by
  have f := h.scan.calm.fixed
  have hlen : a.work.wLen.toNat < 2 ^ 32 := a.work.wLen.isLt
  have hcurN : u.work.cur.toNat = start + cur := by rw [h.scan.curEq]; simp; omega
  have hin : u.work.wIn + u.work.cur = a.work.wIn + BitVec.ofNat 32 (start + cur) := by rw [f.wIn, h.scan.curEq]
  have hcur1 : u.work.cur + 1#32 = BitVec.ofNat 32 (start + (cur + 1)) := by rw [h.scan.curEq]; apply BitVec.eq_of_toNat_eq; simp; omega
  have turn : ∀ t, decByte u.consumed body[cur] = some t → step u = .next t.afterStep := by
    intro t ht
    rw [h.scan.calm.step]
    refine decScan_turn h.scan.fsm h.scan.calm.awake (by rw [f.wLen]; omega) (by rw [hin]; exact h.scan.calm.reads hrd) (by rw [hin, hbyte]; exact ht)
  have htake : symbolsOf (body.take (cur + 1)) = symbolsOf (body.take cur) ++ symbolsOf [body[cur]] := by
    rw [List.take_succ_eq_append_getElem hlt, symbolsOf_append]
  have hall : symbolsOf body = symbolsOf (body.take (cur + 1)) ++ symbolsOf (body.drop (cur + 1)) := by
    rw [← symbolsOf_append, List.take_append_drop]
  have hmem := List.getElem_mem hlt
  have hcls := (List.all_eq_true.mp hplain) _ hmem
  obtain ⟨hsc, hcnt, hbits, hacc, hpad, hw⟩ := h
  generalize hvs : symbolsOf (body.take cur) = vs at *
  cases hk : classify body[cur] with
  | pad => rw [hk] at hcls; cases hcls
  | bad => rw [hk] at hcls; cases hcls
  | sep =>
    have e : symbolsOf (body.take (cur + 1)) = vs := by rw [htake, symbolsOf_singleton, hk]; simp
    obtain ⟨-, hsep⟩ := classify_eq_sep.mp hk
    refine ⟨_, turn _ (decByte_separator hpad hsep), ?_⟩
    rw [State.afterStep_of_busy (by simp [State.busy, State.consumed, hsc.fsm])]
    refine ⟨⟨⟨f.trans ⟨rfl, rfl, rfl, rfl, rfl, rfl, rfl, rfl, rfl, rfl⟩, hsc.calm.idleBus, hsc.calm.free, hsc.calm.racing, hsc.calm.clobbered⟩, hsc.fsm, hcur1, by omega, hsc.few, hsc.room⟩,
      by rw [e]; exact hcnt, by rw [e]; exact hbits, by rw [e]; exact hacc, hpad, by rw [e]; exact hw.congr rfl⟩
  | sym v =>
    have e : symbolsOf (body.take (cur + 1)) = vs ++ [v] := by rw [htake, symbolsOf_singleton, hk]
    obtain ⟨hne, hsep, hlook⟩ := classify_eq_sym.mp hk
    have hd := decByte_symbol (u := u.consumed) hne hpad hsep hlook
    have hfew := hsc.few
    have hb5 : (u.work.bits + 5#4).toNat = u.work.bits.toNat + 5 := by simp; omega
    have hacc' : HoldsSymbolBits (vs ++ [v]) ((u.work.acc <<< 5) ||| v.setWidth 13) (u.work.bits + 5#4).toNat := by
      rw [hb5]; exact hacc.shift hfew (by omega) v
    have hl1 : (vs ++ [v]).length = vs.length + 1 := by simp
    by_cases h8 : 8 ≤ u.work.bits.toNat + 5
    · have hsub : (u.work.bits + 5#4 - 8#4).toNat = u.work.bits.toNat + 5 - 8 := by
        rw [BitVec.toNat_sub, hb5]; simp; omega
      have hkeep : HoldsSymbolBits (vs ++ [v]) ((u.work.acc <<< 5) ||| v.setWidth 13) (u.work.bits + 5#4 - 8#4).toNat :=
        fun i hi => hacc' i (by omega)
      by_cases hroomN : pre.length + 5 * vs.length / 8 < a.work.wCap.toNat
      · have hmin : min a.work.wCap.toNat (pre.length + 5 * vs.length / 8) = pre.length + 5 * vs.length / 8 := by omega
        have hcntN : u.work.cnt.toNat = pre.length + 5 * vs.length / 8 := by rw [hcnt, hmin]; simp; omega
        have hroom : u.work.roomLeft = true := by rw [Work.roomLeft_iff, hcntN, f.wCap]; exact hroomN
        have hslot : u.work.outSlot u.work.cnt = a.work.wOut + BitVec.ofNat 32 (pre.length + 5 * vs.length / 8) := by rw [Work.outSlot, f.wOut, hcnt, hmin]
        have ha : u.admits .write (u.work.outSlot u.work.cnt) = true := by rw [hslot, State.admits_congr f.denied]; exact hwr _ hroomN
        have he := decEmit_put (u := { u.consumed with work := u.consumed.work.shiftInSymbol v }) (by show 8 ≤ (u.work.bits + 5#4).toNat; omega) hroom ha
        refine ⟨_, turn _ (hd.trans he), ?_⟩
        rw [State.afterStep_of_busy (by simp [State.busy, State.consumed, hsc.fsm])]
        have hmin' : min a.work.wCap.toNat (pre.length + 5 * (vs.length + 1) / 8) = pre.length + 5 * vs.length / 8 + 1 := by omega
        refine ⟨⟨⟨f.trans ⟨rfl, rfl, rfl, rfl, rfl, rfl, rfl, rfl, rfl, rfl⟩, hsc.calm.idleBus, hsc.calm.free, ?_, hsc.calm.clobbered⟩, hsc.fsm, hcur1, by omega, ?_, ?_⟩, ?_, ?_, ?_, hpad, ?_⟩
        · show forget u.vis.racing _ = []
          rw [hsc.calm.racing]; rfl
        · show (u.work.bits + 5#4 - 8#4).toNat ≤ 7
          omega
        · show (u.work.cnt + 1#32).toNat ≤ _
          simp; omega
        · show u.work.cnt + 1#32 = _
          rw [e, hl1, hmin', hcnt, hmin]; apply BitVec.eq_of_toNat_eq; simp
        · show (u.work.bits + 5#4 - 8#4).toNat = _
          rw [e, hl1]; omega
        · rw [e]; exact hkeep
        · rw [e, hl1, hmin']
          rw [hmin] at hw
          refine hw.put (by omega) (c := Work.topByte (u.consumed.work.shiftInSymbol v)) ?_ (by rw [← hslot]; rfl)
          rw [HoldsSymbolBits.byte (vs := vs ++ [v]) (j := 5 * vs.length / 8) hacc' (by show 8 ≤ (u.work.bits + 5#4).toNat; omega)
            (by show _ + (u.work.bits + 5#4).toNat = _; rw [hl1]; omega)]
          have hj : 5 * vs.length / 8 < 5 * (vs ++ [v]).length / 8 := by rw [hl1]; omega
          rw [List.getD_append_right _ _ _ _ (by omega), show pre.length + 5 * vs.length / 8 - pre.length = 5 * vs.length / 8 by omega,
            hall, e, decodedBytes_getD _ _ _ (by rw [List.length_append]; omega), decodedByte_append _ _ _ hj]
      · have hmin : min a.work.wCap.toNat (pre.length + 5 * vs.length / 8) = a.work.wCap.toNat := by omega
        have hcntN : u.work.cnt.toNat = a.work.wCap.toNat := by rw [hcnt, hmin]; simp
        have hroom : u.work.roomLeft = false := by
          rw [← Bool.not_eq_true, Work.roomLeft_iff, hcntN, f.wCap]; omega
        have he := decEmit_full (u := { u.consumed with work := u.consumed.work.shiftInSymbol v }) (by show 8 ≤ (u.work.bits + 5#4).toNat; omega) hroom
        refine ⟨_, turn _ (hd.trans he), ?_⟩
        rw [State.afterStep_of_busy (by simp [State.busy, State.consumed, hsc.fsm])]
        have hmin' : min a.work.wCap.toNat (pre.length + 5 * (vs.length + 1) / 8) = a.work.wCap.toNat := by omega
        refine ⟨⟨⟨f.trans ⟨rfl, rfl, rfl, rfl, rfl, rfl, rfl, rfl, rfl, rfl⟩, hsc.calm.idleBus, hsc.calm.free, hsc.calm.racing, hsc.calm.clobbered⟩, hsc.fsm, hcur1, by omega, ?_, hsc.room⟩, ?_, ?_, ?_, hpad, ?_⟩
        · show (u.work.bits + 5#4 - 8#4).toNat ≤ 7
          omega
        · rw [e, hl1, hmin']; rw [hmin] at hcnt; exact hcnt
        · show (u.work.bits + 5#4 - 8#4).toNat = _
          rw [e, hl1]; omega
        · rw [e]; exact hkeep
        · rw [e, hl1, hmin']; rw [hmin] at hw; exact hw.congr rfl
    · have he := decEmit_few (u := { u.consumed with work := u.consumed.work.shiftInSymbol v }) (by show (u.work.bits + 5#4).toNat < 8; omega)
      have hdiv : 5 * (vs.length + 1) / 8 = 5 * vs.length / 8 := by omega
      refine ⟨_, turn _ (hd.trans he), ?_⟩
      rw [State.afterStep_of_busy (by simp [State.busy, State.consumed, hsc.fsm])]
      refine ⟨⟨⟨f.trans ⟨rfl, rfl, rfl, rfl, rfl, rfl, rfl, rfl, rfl, rfl⟩, hsc.calm.idleBus, hsc.calm.free, hsc.calm.racing, hsc.calm.clobbered⟩, hsc.fsm, hcur1, by omega, ?_, hsc.room⟩, ?_, ?_, ?_, hpad, ?_⟩
      · show (u.work.bits + 5#4).toNat ≤ 7
        omega
      · rw [e, hl1, hdiv]; exact hcnt
      · show (u.work.bits + 5#4).toNat = _
        rw [e, hl1]; omega
      · rw [e]; exact hacc'
      · rw [e, hl1, hdiv]; exact hw.congr rfl

/-! ### Padding runs and the pieces of a text -/

/-- A point of a padding run: `k` symbols and `=` since BITS was 0 last, and the bytes of `out` written, as many as fit (R106). -/
structure PaddingPoint (s a : State) (out : List Byte) (k cur : Nat) (u : State) : Prop where
  scan : ScanPoint a cur u
  cntEq : u.work.cnt = BitVec.ofNat 32 (min a.work.wCap.toNat out.length)
  bitsEq : u.work.bits.toNat = 5 * k % 8
  closed : u.work.bits = 0#4 → u.work.padStart = false
  written : Written s a.work.wOut out (min a.work.wCap.toNat out.length) u

/-- The end of a piece's symbols. -/
theorem DecPoint.toPadding {s a u : State} {start : Nat} {pre body : List Byte} (h : DecPoint s a start pre body body.length u) :
    PaddingPoint s a (pre ++ decodedBytes (symbolsOf body)) (symbolsOf body).length (start + body.length) u := by
  obtain ⟨h1, h2, h3, -, h5, h6⟩ := h
  rw [List.take_length] at h2 h3 h6
  have hl : (pre ++ decodedBytes (symbolsOf body)).length = pre.length + 5 * (symbolsOf body).length / 8 := by simp
  exact ⟨h1, hl ▸ h2, h3, fun _ => h5, hl ▸ h6⟩

/-- One `=` (R106). -/
theorem PaddingPoint.next {s a u : State} {out : List Byte} {k cur : Nat} (h : PaddingPoint s a out k cur u) (hlt : cur < a.work.wLen.toNat)
    (hbyte : u.byteAt (a.work.wIn + BitVec.ofNat 32 cur) = padByte) (hrd : a.admits .read (a.work.wIn + BitVec.ofNat 32 cur) = true) :
    ∃ v : State, step u = .next v ∧ PaddingPoint s a out (k + 1) (cur + 1) v := by
  have f := h.scan.calm.fixed
  have hlen := a.work.wLen.isLt
  have hfew := h.scan.few
  have hcurN : u.work.cur.toNat = cur := by rw [h.scan.curEq]; simp; omega
  have hin : u.work.wIn + u.work.cur = a.work.wIn + BitVec.ofNat 32 cur := by rw [f.wIn, h.scan.curEq]
  have hcur1 : u.work.cur + 1#32 = BitVec.ofNat 32 (cur + 1) := by rw [h.scan.curEq]; apply BitVec.eq_of_toNat_eq; simp
  have hb5 : (u.work.bits + 5#4).toNat = u.work.bits.toNat + 5 := by simp; omega
  have hdrop : (dropByte (u.work.bits + 5#4)).toNat = 5 * (k + 1) % 8 := by
    rw [dropByte_toNat, hb5, h.bitsEq]; split <;> omega
  have hst := decScan_turn h.scan.fsm h.scan.calm.awake (by rw [f.wLen]; omega) (by rw [hin]; exact h.scan.calm.reads hrd)
    (by rw [hin, hbyte]; exact decByte_pad u.consumed)
  rw [← h.scan.calm.step, State.afterStep_of_busy (by simp [State.busy, State.consumed, h.scan.fsm])] at hst
  refine ⟨_, hst, ⟨⟨f.trans ⟨rfl, rfl, rfl, rfl, rfl, rfl, rfl, rfl, rfl, rfl⟩, h.scan.calm.idleBus, h.scan.calm.free, h.scan.calm.racing, h.scan.calm.clobbered⟩,
    h.scan.fsm, hcur1, by omega, ?_, h.scan.room⟩, h.cntEq, hdrop, fun hz => ?_, h.written.congr rfl⟩
  · show (dropByte (u.work.bits + 5#4)).toNat ≤ 7
    omega
  · exact decide_eq_false (fun hne => hne hz)

/-- A completed padding run: the next piece begins with no bits left over (R119). -/
theorem PaddingPoint.toPiece {s a u : State} {out : List Byte} {k cur : Nat} (h : PaddingPoint s a out k cur u) (hk : k % 8 = 0) (body : List Byte) :
    DecPoint s a cur out body 0 u := by
  have h0 : u.work.bits.toNat = 0 := by rw [h.bitsEq]; omega
  refine ⟨h.scan, by simpa using h.cntEq, by simpa using h0, fun i hi => ?_, h.closed (BitVec.eq_of_toNat_eq (by simpa using h0)), ?_⟩
  · omega
  · simpa using h.written.extend (decodedBytes (symbolsOf body)) (Nat.min_le_right _ _)

/-- The input of a scan: `text` stands from byte `start` on, and no write to the output region changes it. -/
structure ReadsText (s a : State) (start : Nat) (text : List Byte) : Prop where
  fits : start + text.length ≤ a.work.wLen.toNat
  admitted : ∀ i, i < text.length → a.admits .read (a.work.wIn + BitVec.ofNat 32 (start + i)) = true
  bytes : ∀ (u : State) (out : List Byte) (c : Nat), c ≤ a.work.wCap.toNat → Written s a.work.wOut out c u →
    ∀ i, i < text.length → u.byteAt (a.work.wIn + BitVec.ofNat 32 (start + i)) = text.getD i 0#8

theorem ReadsText.left {s a : State} {start : Nat} {x y : List Byte} (h : ReadsText s a start (x ++ y)) : ReadsText s a start x := by
  have hl : (x ++ y).length = x.length + y.length := List.length_append
  refine ⟨by have := h.fits; omega, fun i hi => h.admitted i (by omega), fun u out c hc hw i hi => ?_⟩
  rw [h.bytes u out c hc hw i (by omega), List.getD_append _ _ _ _ hi]

theorem ReadsText.right {s a : State} {start : Nat} {x y : List Byte} (h : ReadsText s a start (x ++ y)) : ReadsText s a (start + x.length) y := by
  have hl : (x ++ y).length = x.length + y.length := List.length_append
  refine ⟨by have := h.fits; omega, fun i hi => ?_, fun u out c hc hw i hi => ?_⟩
  · rw [Nat.add_assoc]; exact h.admitted _ (by omega)
  · rw [Nat.add_assoc, h.bytes u out c hc hw _ (by omega), List.getD_append_right _ _ _ _ (by omega)]
    congr 1
    omega

/-- The scan of a piece's symbols and separators. -/
theorem DecPoint.run {s a : State} {start : Nat} {pre body : List Byte} (hin : ReadsText s a start body) (hplain : plainText body = true)
    (hcap : a.work.wCap.toNat < 2 ^ 31) (hwr : ∀ j, j < a.work.wCap.toNat → a.admits .write (a.work.wOut + BitVec.ofNat 32 j) = true) (k : Nat) :
    ∀ {u : State} {cur : Nat}, cur + k = body.length → DecPoint s a start pre body cur u → ∃ v, Runs u k v ∧ DecPoint s a start pre body body.length v := by
  induction k with
  | zero => intro u cur e h; rw [Nat.add_zero] at e; subst e; exact ⟨u, Runs.zero u, h⟩
  | succ k ih =>
    intro u cur e h
    have hlt : cur < body.length := by omega
    obtain ⟨v, hs, hv⟩ := h.next hlt hin.fits hplain hcap
      (by rw [hin.bytes u _ _ (Nat.min_le_left _ _) h.written cur hlt, List.getD_eq_getElem _ _ hlt]) (hin.admitted cur hlt) hwr
    obtain ⟨w, hr, hw⟩ := ih (by omega) hv
    exact ⟨w, Runs.cons (State.busy_of_fsm h.scan.fsm (by decide)) hs hr, hw⟩

/-- The scan of a run of `=`. -/
theorem PaddingPoint.run {s a : State} {out : List Byte} (m : Nat) :
    ∀ {u : State} {k cur : Nat}, ReadsText s a cur (List.replicate m padByte) → PaddingPoint s a out k cur u →
      ∃ v, Runs u m v ∧ PaddingPoint s a out (k + m) (cur + m) v := by
  induction m with
  | zero => intro u k cur _ h; exact ⟨u, Runs.zero u, h⟩
  | succ m ih =>
    intro u k cur hin h
    have h0 : 0 < (List.replicate (m + 1) padByte).length := by simp
    have hf := hin.fits
    rw [List.length_replicate] at hf
    obtain ⟨v, hs, hv⟩ := h.next (by omega) (hin.bytes u _ _ (Nat.min_le_left _ _) h.written 0 h0) (hin.admitted 0 h0)
    have htail : ReadsText s a (cur + 1) (List.replicate m padByte) := ReadsText.right (x := [padByte]) hin
    obtain ⟨w, hr, hw⟩ := ih htail hv
    refine ⟨w, Runs.cons (State.busy_of_fsm h.scan.fsm (by decide)) hs hr, ?_⟩
    rw [show k + (m + 1) = k + 1 + m by omega, show cur + (m + 1) = cur + 1 + m by omega]
    exact hw

/-- The scan of a piece. -/
theorem DecPoint.piece {s a u : State} {start : Nat} {pre : List Byte} {p : TextPiece} (hin : ReadsText s a start p.text) (hplain : plainText p.body = true)
    (hcap : a.work.wCap.toNat < 2 ^ 31) (hwr : ∀ j, j < a.work.wCap.toNat → a.admits .write (a.work.wOut + BitVec.ofNat 32 j) = true)
    (h : DecPoint s a start pre p.body 0 u) :
    ∃ v, Runs u p.text.length v ∧ PaddingPoint s a (pre ++ p.bytes) ((symbolsOf p.body).length + p.pads) (start + p.text.length) v := by
  have hl : p.text.length = p.body.length + p.pads := by simp [TextPiece.text]
  obtain ⟨v, hr, hv⟩ := DecPoint.run hin.left hplain hcap hwr p.body.length (Nat.zero_add _) h
  obtain ⟨w, hr2, hw⟩ := PaddingPoint.run p.pads hin.right hv.toPadding
  exact ⟨w, hl ▸ hr.trans hr2, by rw [hl, ← Nat.add_assoc]; exact hw⟩

/-- The scan of whole pieces, one after another (R119). -/
theorem DecPoint.pieces {s a : State} (hcap : a.work.wCap.toNat < 2 ^ 31)
    (hwr : ∀ j, j < a.work.wCap.toNat → a.admits .write (a.work.wOut + BitVec.ofNat 32 j) = true) (body : List Byte) (ps : List TextPiece) :
    ∀ {u : State} {start : Nat} {pre : List Byte}, ReadsText s a start (ps.flatMap TextPiece.text) → ps.all TextPiece.whole = true →
      (∀ b, DecPoint s a start pre b 0 u) →
      ∃ v, Runs u (ps.flatMap TextPiece.text).length v ∧
        DecPoint s a (start + (ps.flatMap TextPiece.text).length) (pre ++ ps.flatMap TextPiece.bytes) body 0 v := by
  induction ps with
  | nil => intro u start pre _ _ h; exact ⟨u, Runs.zero u, by simpa using h body⟩
  | cons p ps ih =>
    intro u start pre hin hall h
    rw [List.flatMap_cons] at hin
    rw [List.all_cons, Bool.and_eq_true] at hall
    have hp := hall.1
    simp only [TextPiece.whole, Bool.and_eq_true, decide_eq_true_eq] at hp
    obtain ⟨v, hr, hv⟩ := (h p.body).piece hin.left hp.1 hcap hwr
    obtain ⟨w, hr2, hw⟩ := ih hin.right hall.2 (hv.toPiece hp.2)
    refine ⟨w, ?_, ?_⟩
    · rw [List.flatMap_cons, List.length_append]; exact hr.trans hr2
    · rw [List.flatMap_cons, List.flatMap_cons, List.length_append, ← Nat.add_assoc, ← List.append_assoc]; exact hw

end Sys2Proof.Machine
end

