-- ==== Sys2Proof/Laws/Frames.lean ====
section
/-! SUPPORT. Frames: what a step rule of the block, and what a host event, leaves alone (20_memory.md R65; 10_state.md R28, R39). -/

namespace Sys2Proof.Machine

/-- What a step rule leaves alone: the fixed registers, every byte outside the output region, the clobbered bytes and, while the command
goes on, the record. -/
structure RuleFrame (s t : State) : Prop where
  fixed : SameFixed s t
  bytes : ∀ b : Addr, s.work.outputRegion.contains b = false → t.byteAt b = s.byteAt b
  clob : t.vis.clobbered = s.vis.clobbered
  res : t.busy = true → t.result = s.result

/-- An address outside the output region is no slot of it (R65). -/
theorem ne_outSlot (w : Work) (j : Word) (hj : j.toNat < w.wCap.toNat) (b : Addr) (hb : w.outputRegion.contains b = false) : b ≠ w.outSlot j := by
  intro e
  rw [e] at hb
  rw [show w.outputRegion.contains (w.outSlot j) = decide (j.toNat < w.wCap.toNat) from Region.contains_add _ _ _] at hb
  simp [hj] at hb

/-- A block read changes nothing but the count of free values drawn. -/
theorem blockRead_frame {s u : State} {a c} (h : s.blockRead a = some (c, u)) : SameFixed s u ∧ u.mem = s.mem ∧ u.result = s.result ∧ u.vis.clobbered = s.vis.clobbered ∧ u.work = s.work := by
  obtain ⟨_, ⟨n, rfl⟩, _⟩ := State.blockRead_some h
  exact ⟨⟨rfl,rfl,rfl,rfl,rfl,rfl,rfl,rfl,rfl,rfl⟩, rfl, rfl, rfl, rfl⟩

/-- A write to a slot changes no byte outside the output region. -/
theorem blockPut_frame (s : State) (j : Word) (v : Byte) (w : Work) (hj : j.toNat < s.work.wCap.toNat)
  (b : Addr) (hb : s.work.outputRegion.contains b = false) : State.byteAt ({s.blockPut (s.work.outSlot j) v with work := w}) b = s.byteAt b :=
  State.byteAt_blockPut_other s _ b v (ne_outSlot _ _ hj b hb)

theorem decEmit_frame {s t : State} (h : decEmit s = some t) : RuleFrame s t := by
  rcases decEmit_some h with ⟨_, hr, _, rfl⟩ | ⟨_, _, rfl⟩ | ⟨_, rfl⟩
  · exact ⟨⟨rfl,rfl,rfl,rfl,rfl,rfl,rfl,rfl,rfl,rfl⟩, fun b hb => blockPut_frame s _ _ _ ((Work.roomLeft_iff _).mp hr) b hb, rfl, fun _ => rfl⟩
  · exact ⟨⟨rfl,rfl,rfl,rfl,rfl,rfl,rfl,rfl,rfl,rfl⟩, fun b hb => rfl, rfl, fun _ => rfl⟩
  · exact ⟨SameFixed.refl _, fun b hb => rfl, rfl, fun _ => rfl⟩

theorem RuleFrame.of_eq {s s' t : State} (h : RuleFrame s' t) (hf : SameFixed s s') (hm : s'.mem = s.mem) (hc : s'.vis.clobbered = s.vis.clobbered) (hr : s'.result = s.result) : RuleFrame s t := by
  refine ⟨hf.trans h.fixed, fun b hb => ?_, h.clob.trans hc, fun hh => (h.res hh).trans hr⟩
  rw [h.bytes b (by rw [Work.outputRegion, hf.wOut, hf.wCap]; exact hb)]
  exact State.byteAt_congr hm b

theorem decByte_frame {s t : State} {c} (h : decByte s c = some t) : RuleFrame s t := by
  rcases decByte_some h with ⟨_, rfl⟩ | ⟨_, _, rfl⟩ | ⟨_, _, _, rfl⟩ | ⟨_, _, _, h⟩
  · exact ⟨⟨rfl,rfl,rfl,rfl,rfl,rfl,rfl,rfl,rfl,rfl⟩, fun b hb => rfl, rfl, fun _ => rfl⟩
  · exact ⟨⟨rfl,rfl,rfl,rfl,rfl,rfl,rfl,rfl,rfl,rfl⟩, fun b hb => rfl, rfl, fun h => by simp at h⟩
  · exact ⟨SameFixed.refl _, fun b hb => rfl, rfl, fun _ => rfl⟩
  · rcases decSymbol_some h with ⟨_, rfl⟩ | ⟨v, _, h⟩
    · exact ⟨⟨rfl,rfl,rfl,rfl,rfl,rfl,rfl,rfl,rfl,rfl⟩, fun b hb => rfl, rfl, fun h => by simp at h⟩
    · exact (decEmit_frame h).of_eq ⟨rfl,rfl,rfl,rfl,rfl,rfl,rfl,rfl,rfl,rfl⟩ rfl rfl rfl

/-- Every step rule, in a state of the invariant (R65). -/
theorem blockRule_frame {s t : State} (hi : s.work.inv = true) (hne : s.work.fsm ≠ .idle) (h : blockRule s = some t) : RuleFrame s t := by
  unfold blockRule at h
  split at h
  · exact absurd ‹_› hne
  · obtain ⟨c, u, hr, rfl⟩ := encInit_some h
    obtain ⟨f, m, r, cl, w⟩ := blockRead_frame hr
    exact ⟨f.trans ⟨rfl,rfl,rfl,rfl,rfl,rfl,rfl,rfl,rfl,rfl⟩, fun b _ => State.byteAt_congr m b, cl, fun _ => r⟩
  · rcases encData_some h with ⟨hl, u, hu, he⟩ | ⟨_, rfl⟩
    · obtain ⟨ha, rfl⟩ := encEmit_some he
      have hroom := ((Work.dataLoop_iff _).mp hl).1
      obtain ⟨hfx, hcn, hm, hres, hcl⟩ : SameFixed s u ∧ u.work.cnt = s.work.cnt ∧ u.mem = s.mem ∧ u.result = s.result ∧ u.vis.clobbered = s.vis.clobbered := by
        rcases encRefill_some hu with ⟨_, rfl⟩ | ⟨_, _, c, v, hr, rfl⟩ | ⟨_, _, rfl⟩
        · exact ⟨SameFixed.refl _, rfl, rfl, rfl, rfl⟩
        · obtain ⟨f, m, r, cl, w⟩ := blockRead_frame hr
          exact ⟨f.trans ⟨rfl,rfl,rfl,rfl,rfl,rfl,rfl,rfl,rfl,rfl⟩, by show v.work.cnt = _; rw [w], m, r, cl⟩
        · exact ⟨⟨rfl,rfl,rfl,rfl,rfl,rfl,rfl,rfl,rfl,rfl⟩, rfl, rfl, rfl, rfl⟩
      refine RuleFrame.of_eq (s' := u) ⟨⟨rfl,rfl,rfl,rfl,rfl,rfl,rfl,rfl,rfl,rfl⟩, fun b hb => blockPut_frame u _ _ _ ?_ b hb, rfl, fun _ => rfl⟩ hfx hm hcl hres
      rw [hcn, hfx.wCap]; exact hroom
    · exact ⟨⟨rfl,rfl,rfl,rfl,rfl,rfl,rfl,rfl,rfl,rfl⟩, fun b hb => rfl, rfl, fun _ => rfl⟩
  · rcases encPad_some h with ⟨hl, ha, rfl⟩ | ⟨_, rfl⟩
    · exact ⟨⟨rfl,rfl,rfl,rfl,rfl,rfl,rfl,rfl,rfl,rfl⟩, fun b hb => blockPut_frame s _ _ _ ((Work.padLoop_iff _).mp hl).2.2 b hb, rfl, fun _ => rfl⟩
    · exact ⟨⟨rfl,rfl,rfl,rfl,rfl,rfl,rfl,rfl,rfl,rfl⟩, fun b hb => rfl, rfl, fun _ => rfl⟩
  · rename_i hf
    rcases encFin_some h with ⟨_, hr, _, rfl⟩ | ⟨_, _, rfl⟩
    · exact ⟨⟨rfl,rfl,rfl,rfl,rfl,rfl,rfl,rfl,rfl,rfl⟩, fun b hb => (ne_outSlot _ _ ((Work.roomLeft_iff _).mp hr) b hb |> State.byteAt_blockPut_other s _ b _ : _), rfl, fun h => by simp at h⟩
    · have hcap := ((Work.encodeArgs_iff).mp ((Work.inv_encRun (.inr (.inr hf))).mp hi).1).2
      refine ⟨⟨rfl,rfl,rfl,rfl,rfl,rfl,rfl,rfl,rfl,rfl⟩, fun b hb => State.byteAt_blockPut_other s _ b _ (ne_outSlot _ _ ?_ b hb), rfl, fun h => by simp at h⟩
      rw [BitVec.toNat_sub]; simp; omega
  · rcases decScan_some h with ⟨_, c, u, hr, hd⟩ | ⟨_, rfl⟩
    · obtain ⟨f, m, r, cl, w⟩ := blockRead_frame hr
      exact (decByte_frame hd).of_eq (f.trans ⟨rfl,rfl,rfl,rfl,rfl,rfl,rfl,rfl,rfl,rfl⟩) m cl r
    · exact ⟨⟨rfl,rfl,rfl,rfl,rfl,rfl,rfl,rfl,rfl,rfl⟩, fun b hb => rfl, rfl, fun _ => rfl⟩
  · rcases decFin_some h with ⟨hr, _, rfl⟩ | ⟨_, rfl⟩
    · exact ⟨⟨rfl,rfl,rfl,rfl,rfl,rfl,rfl,rfl,rfl,rfl⟩, fun b hb => (ne_outSlot _ _ ((Work.roomLeft_iff _).mp hr) b hb |> State.byteAt_blockPut_other s _ b _ : _), rfl, fun h => by simp at h⟩
    · exact ⟨⟨rfl,rfl,rfl,rfl,rfl,rfl,rfl,rfl,rfl,rfl⟩, fun b hb => rfl, rfl, fun h => by simp at h⟩

/-- Every step rule leaves the latched arguments, the argument registers and the interleaving alone (R28). -/
theorem blockRule_fixed {s t : State} (h : blockRule s = some t) : SameFixed s t := by
  unfold blockRule at h
  split at h
  · cases h; exact SameFixed.refl _
  · obtain ⟨c, u, hr, rfl⟩ := encInit_some h
    exact (blockRead_frame hr).1.trans ⟨rfl,rfl,rfl,rfl,rfl,rfl,rfl,rfl,rfl,rfl⟩
  · rcases encData_some h with ⟨hl, u, hu, he⟩ | ⟨_, rfl⟩
    · obtain ⟨ha, rfl⟩ := encEmit_some he
      have : SameFixed s u := by
        rcases encRefill_some hu with ⟨_, rfl⟩ | ⟨_, _, c, v, hr, rfl⟩ | ⟨_, _, rfl⟩
        · exact SameFixed.refl _
        · exact (blockRead_frame hr).1.trans ⟨rfl,rfl,rfl,rfl,rfl,rfl,rfl,rfl,rfl,rfl⟩
        · exact ⟨rfl,rfl,rfl,rfl,rfl,rfl,rfl,rfl,rfl,rfl⟩
      exact this.trans ⟨rfl,rfl,rfl,rfl,rfl,rfl,rfl,rfl,rfl,rfl⟩
    · exact ⟨rfl,rfl,rfl,rfl,rfl,rfl,rfl,rfl,rfl,rfl⟩
  · rcases encPad_some h with ⟨hl, ha, rfl⟩ | ⟨_, rfl⟩ <;> exact ⟨rfl,rfl,rfl,rfl,rfl,rfl,rfl,rfl,rfl,rfl⟩
  · rcases encFin_some h with ⟨_, hr, _, rfl⟩ | ⟨_, _, rfl⟩ <;> exact ⟨rfl,rfl,rfl,rfl,rfl,rfl,rfl,rfl,rfl,rfl⟩
  · rcases decScan_some h with ⟨_, c, u, hr, hd⟩ | ⟨_, rfl⟩
    · obtain ⟨a,b,c,d,e,f,g,h,i,j⟩ := (decByte_frame hd).fixed
      exact (blockRead_frame hr).1.trans ⟨a,b,c,d,e,f,g,h,i,j⟩
    · exact ⟨rfl,rfl,rfl,rfl,rfl,rfl,rfl,rfl,rfl,rfl⟩
  · rcases decFin_some h with ⟨hr, _, rfl⟩ | ⟨_, rfl⟩ <;> exact ⟨rfl,rfl,rfl,rfl,rfl,rfl,rfl,rfl,rfl,rfl⟩

theorem hostReadReg_frame (s : State) (off r) : (s.hostReadReg off r).work = s.work ∧ (s.hostReadReg off r).result = s.result ∧
    (s.hostReadReg off r).stuck = s.stuck := by
  unfold State.hostReadReg State.seenDone
  split
  · split <;> exact ⟨rfl, rfl, rfl⟩
  · exact ⟨rfl, rfl, rfl⟩

theorem accessedReg_cmd {off size} (h : accessedReg off size = some .cmd) : off = 0 ∧ size = .word := by
  unfold accessedReg at h
  split at h
  · rename_i hh
    refine ⟨?_, hh.1⟩
    unfold regAt at h
    by_contra hne
    simp only [hne, if_false] at h
    repeat' (split at h; · cases h)
    cases h
  · cases h

theorem writeReg_frame (s : State) (r v) : (s.writeReg r v).work = s.work ∧ (s.writeReg r v).result = s.result ∧ (s.writeReg r v).stuck = s.stuck := by
  cases r <;> exact ⟨rfl, rfl, rfl⟩

/-- A host event leaves the working and the result registers alone, and a stuck block stuck, unless it is a write to CMD (R39). -/
theorem hostEvent_frame {s t : State} {e : Event} (hs : eventStep e s = .next t) (h1 : e ≠ .block) (h2 : e ≠ .reset) :
    (t.work = s.work ∧ t.result = s.result ∧ t.stuck = s.stuck) ∨ ∃ w, e = .regWrite 0 .word w ∧ commandWrite w s = .next t := by
  cases e with
  | block => exact absurd rfl h1
  | regWrite off size v =>
    simp only [eventStep, hostRegWrite] at hs
    split at hs
    · cases hs
    · rename_i hc; obtain ⟨rfl, rfl⟩ := accessedReg_cmd hc; exact .inr ⟨v, rfl, hs⟩
    · cases hs; exact .inl (writeReg_frame _ _ _)
  | regRead off size =>
    simp only [eventStep, hostRegRead] at hs
    split at hs
    · cases hs
    · cases hs; exact .inl (hostReadReg_frame _ _ _)
  | wait =>
    simp only [eventStep, hostWait] at hs
    have := hostReadReg_frame s 0x04 .status
    split at hs <;> cases hs <;> exact .inl this
  | memWrite a v => cases hs; exact .inl ⟨rfl, rfl, rfl⟩
  | memRead a => cases hs; exact .inl ⟨rfl, rfl, rfl⟩
  | reset => exact absurd rfl h2

end Sys2Proof.Machine
end

