-- ==== Sys2Proof/Laws/PerInstr.lean ====
section
/-! SUPPORT. Statements for all instructions, made per instruction. Family Encoding: the instruction is well formed and its command
word decodes to it (30_encoding.md R90). -/

namespace Sys2Proof.Laws.Encoding

/-- The instruction is well formed, and decoding its word gives it back. -/
def Statement (i : Instr) : Prop := i.wellFormed = true ∧ decode (encode i) = .ok i

theorem clr : Statement .clr := ⟨by decide, by decide⟩

theorem enc : Statement .enc := ⟨by decide, by decide⟩

theorem encPad : Statement .encPad := ⟨by decide, by decide⟩

theorem dec : Statement .dec := ⟨by decide, by decide⟩

end Sys2Proof.Laws.Encoding
end

