-- ==== Sys2Proof/Laws/Seen.lean ====
section
/-! SUPPORT. What a move can add to what the host may see of memory (20_memory.md R73, R74 second bullet; 70_reset_and_hazards.md R212). -/

namespace Sys2Proof.Machine

/-- What is left of a region lies in it. -/
theorem Region.without_sub {r q : Region} {a b : Addr} (hq : q ∈ r.without a) (h : q.contains b = true) : r.contains b = true := by
  unfold Region.without at hq
  split at hq
  · rename_i ha
    simp only [List.mem_cons, List.not_mem_nil, or_false] at hq
    simp only [Region.contains, decide_eq_true_eq, BitVec.toNat_sub] at ha h ⊢
    have := a.isLt; have := b.isLt; have := r.base.isLt
    rcases hq with rfl | rfl
    · simp only [BitVec.toNat_sub] at h; omega
    · simp only [BitVec.toNat_add, BitVec.toNat_ofNat, BitVec.toNat_sub] at h; omega
  · simp only [List.mem_singleton] at hq; exact hq ▸ h

/-- No reset has abandoned a command over the address (R212). -/
def Visibility.keeps (v : Visibility) (a : Addr) : Prop := ∀ r ∈ v.abandoned, r.contains a = false

theorem dropAbandoned_keeps {l : List Region} {a : Addr} (b : Addr) (h : ∀ r ∈ l, r.contains a = false) : ∀ r ∈ dropAbandoned l b, r.contains a = false := by
  intro q hq
  obtain ⟨r, hr, hq⟩ := List.mem_flatMap.mp hq
  by_contra hc
  have := Region.without_sub hq (by simpa using hc)
  simp [h r hr] at this

/-- What a move leaves of what may be seen: nothing is added but what the host could see of the byte before, and no region is abandoned. -/
structure SeenFrame (s t : State) : Prop where
  stale : ∀ p ∈ t.vis.stale, p ∈ s.vis.stale ∨ p.2 = s.seenAt p.1
  keeps : ∀ a : Addr, s.vis.keeps a → t.vis.keeps a

theorem SeenFrame.of_eq {s t : State} (hs : t.vis.stale = s.vis.stale) (ha : t.vis.abandoned = s.vis.abandoned) : SeenFrame s t :=
  ⟨fun _ hp => .inl (hs ▸ hp), fun a h => by unfold Visibility.keeps; rw [ha]; exact h⟩

/-- The frame of a move does not see a change that what may be seen does not depend on. -/
theorem SeenFrame.from_eq {s u t : State} (h : SeenFrame u t) (hs : u.vis.stale = s.vis.stale) (ha : u.vis.abandoned = s.vis.abandoned)
    (hm : u.mem = s.mem) : SeenFrame s t := by
  have e : ∀ a, u.seenAt a = s.seenAt a := fun a => by simp only [State.seenAt, State.byteAt, ha, hm]
  refine ⟨fun p hp => ?_, fun a hk => h.keeps a (by unfold Visibility.keeps; rw [ha]; exact hk)⟩
  have := h.stale p hp
  rwa [hs, e] at this

/-- A block write: what the host could see of the byte may still be seen (R73). -/
theorem blockPut_seen (s t : State) (b : Addr) (h : t.vis = s.vis.blockWrote b (s.seenAt b)) : SeenFrame s t := by
  constructor
  · intro p hp
    rw [h] at hp
    rcases List.mem_cons.mp hp with rfl | hp
    · exact .inr rfl
    · exact .inl hp
  · intro a hk
    unfold Visibility.keeps
    rw [h]
    exact dropAbandoned_keeps b hk

/-- A host write (R74). -/
theorem hostWrite_seen (s : State) (b : Addr) (v : Byte) : SeenFrame s (s.hostWrite b v) := by
  constructor
  · intro p hp
    simp only [State.hostWrite] at hp
    split at hp
    · rcases List.mem_cons.mp hp with rfl | hp
      · exact .inr rfl
      · exact .inl hp
    · exact .inl (List.mem_filter.mp hp).1
  · exact fun a hk => dropAbandoned_keeps b hk

/-- A block read adds nothing. -/
theorem blockRead_seen {s u : State} {b : Addr} {c : Byte} (h : s.blockRead b = some (c, u)) :
    u.vis.stale = s.vis.stale ∧ u.vis.abandoned = s.vis.abandoned ∧ u.mem = s.mem := by
  obtain ⟨_, ⟨n, rfl⟩, _⟩ := State.blockRead_some h
  exact ⟨rfl, rfl, rfl⟩

theorem decByte_seen {s t : State} {c : Byte} (h : decByte s c = some t) : SeenFrame s t := by
  rcases decByte_some h with ⟨_, rfl⟩ | ⟨_, _, rfl⟩ | ⟨_, _, _, rfl⟩ | ⟨_, _, _, h⟩
  · exact .of_eq rfl rfl
  · exact .of_eq rfl rfl
  · exact .of_eq rfl rfl
  · rcases decSymbol_some h with ⟨_, rfl⟩ | ⟨v, _, h⟩
    · exact .of_eq rfl rfl
    · rcases decEmit_some h with ⟨_, _, _, rfl⟩ | ⟨_, _, rfl⟩ | ⟨_, rfl⟩
      · exact blockPut_seen _ _ _ rfl
      · exact .of_eq rfl rfl
      · exact .of_eq rfl rfl

/-- Every step rule of the block. -/
theorem blockRule_seen {s t : State} (h : blockRule s = some t) : SeenFrame s t := by
  unfold blockRule at h
  split at h
  · cases h; exact .of_eq rfl rfl
  · obtain ⟨c, u, hr, rfl⟩ := encInit_some h
    obtain ⟨hs, ha, _⟩ := blockRead_seen hr
    exact .of_eq hs ha
  · rcases encData_some h with ⟨_, u, hu, he⟩ | ⟨_, rfl⟩
    · obtain ⟨_, rfl⟩ := encEmit_some he
      obtain ⟨hs, ha, hm⟩ : u.vis.stale = s.vis.stale ∧ u.vis.abandoned = s.vis.abandoned ∧ u.mem = s.mem := by
        rcases encRefill_some hu with ⟨_, rfl⟩ | ⟨_, _, c, v, hr, rfl⟩ | ⟨_, _, rfl⟩
        · exact ⟨rfl, rfl, rfl⟩
        · obtain ⟨hs, ha, hm⟩ := blockRead_seen hr; exact ⟨hs, ha, hm⟩
        · exact ⟨rfl, rfl, rfl⟩
      exact SeenFrame.from_eq (u := u) (blockPut_seen _ _ _ rfl) hs ha hm
    · exact .of_eq rfl rfl
  · rcases encPad_some h with ⟨_, _, rfl⟩ | ⟨_, rfl⟩
    · exact blockPut_seen _ _ _ rfl
    · exact .of_eq rfl rfl
  · rcases encFin_some h with ⟨_, _, _, rfl⟩ | ⟨_, _, rfl⟩ <;> exact blockPut_seen _ _ _ rfl
  · rcases decScan_some h with ⟨_, c, u, hr, hd⟩ | ⟨_, rfl⟩
    · obtain ⟨hs, ha, hm⟩ := blockRead_seen hr
      exact (decByte_seen hd).from_eq hs ha hm
    · exact .of_eq rfl rfl
  · rcases decFin_some h with ⟨_, _, rfl⟩ | ⟨_, rfl⟩
    · exact blockPut_seen _ _ _ rfl
    · exact .of_eq rfl rfl

/-- The block's turn. -/
theorem blockStep_seen {s t : State} (h : blockStep s = .next t) : SeenFrame s t := by
  rcases blockStep_cases s with ⟨_, e⟩ | ⟨_, _, e⟩ | ⟨_, _, _, e⟩ | ⟨u, _, _, hu, e⟩ <;> rw [e] at h <;> cases h
  · exact .of_eq rfl rfl
  · exact .of_eq rfl rfl
  · have := blockRule_seen hu
    unfold State.afterStep
    split
    · exact this
    · exact ⟨this.stale, this.keeps⟩

/-- A write to CMD leaves a busy block as it is (R164). -/
theorem commandWrite_of_busy {s t : State} {w : Word} (hb : s.busy = true) (h : commandWrite w s = .next t) : t = s := by
  unfold commandWrite at h
  split at h
  · rw [exec_of_busy _ hb] at h; cases h; rfl
  · rw [show illegalCommand s = _ from whenIdle_of_busy _ hb] at h; cases h; rfl

/-- A register read is no completion point while a command runs (R73). -/
theorem hostReadReg_seen {s : State} {off : Nat} {r : HostReg} (hb : s.busy = true) : SeenFrame s (s.hostReadReg off r) := by
  unfold State.hostReadReg State.seenDone
  split <;> simp only [hb] <;> exact .of_eq rfl rfl

/-- A host read of memory. -/
theorem hostRead_seen (s : State) (a : Addr) : SeenFrame s (s.hostRead a) := by
  have : (s.hostSees a).2.stale = s.vis.stale ∧ (s.hostSees a).2.abandoned = s.vis.abandoned := by
    unfold State.hostSees; split <;> exact ⟨rfl, rfl⟩
  exact .of_eq this.1 this.2

/-- Every step of a running command that does not end it. -/
theorem step_seen {s t : State} (h : step s = .next t) (hb : s.busy = true) (hb' : t.busy = true) : SeenFrame s t := by
  unfold step at h
  split at h
  · exact blockStep_seen h
  · rename_i e rest he
    have hr : State.busy { s with schedule := rest } = true := hb
    refine SeenFrame.from_eq (u := { s with schedule := rest }) ?_ rfl rfl rfl
    cases e with
    | block => exact blockStep_seen h
    | reset => cases h; simp at hb'
    | regWrite off size v =>
      simp only [eventStep, hostRegWrite] at h
      split at h
      · cases h
      · rw [commandWrite_of_busy hr h]; exact .of_eq rfl rfl
      · rename_i r _ _
        cases h; cases r <;> exact .of_eq rfl rfl
    | regRead off size =>
      simp only [eventStep, hostRegRead] at h
      split at h <;> cases h
      exact hostReadReg_seen hr
    | wait =>
      simp only [eventStep, hostWait, hr, if_true] at h
      have := hostReadReg_seen (off := 0x04) (r := .status) hr
      cases h
      exact SeenFrame.mk this.stale this.keeps
    | memWrite a v => cases h; exact hostWrite_seen _ _ _
    | memRead a => cases h; exact hostRead_seen _ _

end Sys2Proof.Machine
end

