-- ==== Sys2Proof/Tests/Slice0.lean ====
section
/-! SUPPORT. The model's own tests: the refusals of WellFormed, the command words bit by bit (30_encoding.md R87 to R90), single steps
against the worked examples of the spec, and a witness for the hypotheses of every obligation. -/

open Sys2Proof Sys2Proof.Machine

namespace Sys2Proof.Tests

/-! ### WellFormed: an ill-formed command for each check (R87, R88, R89) -/

theorem test_reserved_bits_refused : (CommandFields.mk 0b01#2 0#1 1#29).fault = some .reservedBits := by decide

theorem test_reserved_op_refused : (CommandFields.mk 0b11#2 0#1 0#29).fault = some .reservedOp := by decide

theorem test_pad_without_encode_refused : (CommandFields.mk 0b10#2 1#1 0#29).fault = some .padWithoutEncode := by decide

theorem test_pad_with_clear_refused : (CommandFields.mk 0b00#2 1#1 0#29).wellFormed = false := by decide

/-! ### Decoding: RSV[31:3], PAD[2], OP[1:0], written out (R87 to R90) -/

theorem test_decode_clr : decode 0b00000000000000000000000000000000#32 = .ok .clr := by decide

theorem test_decode_enc : decode 0b00000000000000000000000000000001#32 = .ok .enc := by decide

theorem test_decode_enc_pad : decode 0b00000000000000000000000000000101#32 = .ok .encPad := by decide

theorem test_decode_dec : decode 0b00000000000000000000000000000010#32 = .ok .dec := by decide

theorem test_decode_illegal : decode 0b00000000000000000000000000000011#32 = .error .reservedOp ∧
    decode 0b00000000000000000000000000000110#32 = .error .padWithoutEncode ∧
    decode 0b00000000000000000000000000001001#32 = .error .reservedBits ∧
    decode 0b10000000000000000000000000000010#32 = .error .reservedBits := by decide

theorem test_table_words : decodeTableWord 32 0x0 = some .clr ∧ decodeTableWord 32 0x1 = some .enc ∧ decodeTableWord 32 0x5 = some .encPad ∧
    decodeTableWord 32 0x2 = some .dec ∧ decodeTableWord 32 0x6 = none := by decide

/-! ### Small states -/

/-- An idle block with given argument registers and memory. -/
def idle (g : Args) (m : List Host.Cell) : State := { State.reset with args := g, mem := m }

/-- A block in a given state of its sequencing, its input at 0x100 and its output at 0x200. -/
def busyAt (f : Fsm) (acc : Acc) (bits : BitCount) (cnt cur len cap : Word) (m : List Host.Cell) : State :=
  { State.reset with
    mem := m
    work := { Work.reset with fsm := f, acc := acc, bits := bits, cnt := cnt, cur := cur, wIn := 0x100#32, wLen := len, wOut := 0x200#32, wCap := cap } }

/-- The same with PADREQ set. -/
def padded (s : State) : State := { s with work := { s.work with padReq := true } }

/-- The same inside a padding run. -/
def inPadding (s : State) : State := { s with work := { s.work with padStart := true } }

/-- The same on a platform that refuses one kind of access everywhere. -/
def without (k : AccessKind) (s : State) : State := { s with denied := [⟨⟨0#32, 2 ^ 32⟩, k⟩] }

/-- The same with given events to come. -/
def upcoming (l : List Event) (s : State) : State := { s with schedule := l }

/-- The byte at an address after one step. -/
def byteAfter (s : State) (a : Addr) : Option Byte := (outcomeState (step s)).map fun t => t.byteAt a

/-- The working registers after one step. -/
def workAfter (s : State) : Option Work := (outcomeState (step s)).map fun t => t.work

/-- STATUS and COUNT after one step. -/
def reportAfter (s : State) : Option (Word × Word) := (outcomeState (step s)).map fun t => (t.statusWord, t.result.count)

/-! ### One step of each instruction, against the spec's worked examples -/

/-- R161: STATUS = 0x16 and COUNT = 1, then `clr`. -/
theorem test_clr_clears : reportAfter ({ State.reset with result := ⟨true, true, some .invalidCharacter, 1#32⟩ }.withFetchWord 32 0x0) =
    some (0x00000000#32, 0#32) := by decide

/-- R213: ENCODE with the reset arguments completes with INVALID_CAPACITY. -/
theorem test_enc_after_reset : reportAfter (State.reset.withFetchWord 32 0x1) = some (0x00000036#32, 0#32) := by decide

/-- R134: data `f` gives ACC = 0x066 and BITS = 8. -/
theorem test_enc_init : (workAfter (busyAt .encInit 0#13 0#4 0#32 0#32 1#32 64#32 [(0x100, 0x66#8)])).map (fun w => (w.acc, w.bits, w.cur)) =
    some (0x066#13, 8#4, 1#32) := by decide

/-- R182: a length of 2^28 is INVALID_LENGTH, though the capacity is 0 too (R188). -/
theorem test_enc_pad_length : reportAfter ((idle ⟨0#32, 0x10000000#32, 0#32, 0#32⟩ []).withFetchWord 32 0x5) = some (0x00000026#32, 0#32) := by decide

/-- R141: after `MY`, the first `=` goes to slot 2. -/
theorem test_enc_pad_appends : byteAfter (padded (busyAt .encPad 0#13 0#4 2#32 1#32 1#32 64#32 [])) 0x202#32 = some 0x3D#8 := by decide

/-- R101: the reset capacity acts as 0, and the block starts scanning. -/
theorem test_dec_starts : reportAfter (State.reset.withFetchWord 32 0x2) = some (0x00000001#32, 0#32) := by decide

/-- R112, R113: ACC = 0b01100 with BITS = 5, then `Y`: the byte written is 0x66. -/
theorem test_dec_emits : byteAfter (busyAt .decScan 0b01100#13 5#4 0#32 1#32 2#32 64#32 [(0x101, 0x59#8)]) 0x200#32 = some 0x66#8 := by decide

/-- R166, R225: a DEC_SCAN stuck on a refused write stays stuck though the host makes the input byte a separator. -/
theorem test_stuck_stays : (let s := (without .write (busyAt .decScan 0#13 3#4 0#32 1#32 2#32 9#32 [(0x101, 0x59#8)])).getStuck.hostWrite 0x101#32 0x20#8
    blockStep s = .next s) := by rfl

/-- R162: 0x6 is illegal. -/
theorem test_illegal_word : reportAfter (State.reset.withFetchWord 32 0x6) = some (0x00000056#32, 0#32) := by decide

/-! ### Witnesses: every obligation's hypotheses can be met

One theorem for each obligation that has hypotheses, in the obligations' order, with a case for each clause at its boundary. -/

theorem witness_LegalWordsAreTheFourEncodings : decode 0x00000003#32 = .error .reservedOp ∧ State.reset.busy = false := by decide

theorem witness_StepRunsTheDecodedCommand :
    (upcoming [.memWrite 0x100#32 0x66#8, .block] State.reset).schedule = .memWrite 0x100#32 0x66#8 :: [.block] ∧
    ((State.reset.withFetchWord 32 0x5).schedule = .regWrite 0x00 .word 0x00000005#32 :: [] ∧ decode 0x00000005#32 = .ok .encPad) ∧
    (upcoming [.block] State.reset).schedule = .block :: [] ∧ State.reset.schedule = [] := by decide

theorem witness_CommandWriteWhileBusyIsIgnored :
    let s := upcoming [.regWrite 0x00 .word 0x00000002#32] (busyAt .encData 0#13 8#4 0#32 1#32 1#32 9#32 [])
    s.busy = true ∧ s.schedule = .regWrite 0x00 .word 0x00000002#32 :: [] := by decide

theorem witness_IllegalWordRecordsIllegalCommand :
    let s := upcoming [.regWrite 0x00 .word 0x00000006#32] State.reset
    s.busy = false ∧ s.schedule = .regWrite 0x00 .word 0x00000006#32 :: [] ∧
      ∀ i ∈ [Instr.clr, .enc, .encPad, .dec], (0x00000006#32 : Word) ≠ encode i := by decide

theorem witness_ClearClearsTheResultAlone : State.reset.busy = false ∧ (busyAt .decFin 0#13 0#4 0#32 0#32 0#32 0#32 []).busy = true := by decide

theorem witness_EncodeAcceptanceLatchesChecksAndStarts :
    (∀ g ∈ [Args.mk 0#32 0x10000000#32 0#32 0#32, ⟨0#32, 0x0FFFFFFF#32, 0#32, 0x80000000#32⟩, ⟨0#32, 0x0FFFFFFF#32, 0#32, 1#32⟩, ⟨0#32, 0#32, 0#32, 0x7FFFFFFF#32⟩],
      (idle g []).busy = false) ∧
    2 ^ 28 ≤ (0x10000000#32 : Word).toNat ∧ s32 0x80000000#32 ≤ 0 ∧ ¬ s32 0x7FFFFFFF#32 ≤ 0 ∧ ¬ s32 1#32 ≤ 0 := by decide

theorem witness_EncodePreconditionErrors :
    (idle ⟨0#32, 0x10000000#32, 0#32, 1#32⟩ []).busy = false ∧ 2 ^ 28 ≤ (idle ⟨0#32, 0x10000000#32, 0#32, 1#32⟩ []).args.inLen.toNat ∧
    (idle ⟨0#32, 0x0FFFFFFF#32, 0#32, 0#32⟩ []).args.inLen.toNat < 2 ^ 28 ∧ s32 (idle ⟨0#32, 0x0FFFFFFF#32, 0#32, 0#32⟩ []).args.outCap ≤ 0 := by decide

theorem witness_DecodeAcceptanceLatchesAndStarts : (idle ⟨0#32, 0xFFFFFFFF#32, 0#32, 0x80000000#32⟩ []).busy = false := by decide

theorem witness_AcceptanceFrame : ∀ i : Instr, ∃ t, exec i State.reset = .next t := by intro i; cases i <;> exact ⟨_, rfl⟩

theorem witness_EncInitLoadsTheFirstByte :
    let s := busyAt .encInit 0#13 0#4 0#32 0#32 1#32 64#32 [(0x100, 0x66#8)]
    s.work.fsm = .encInit ∧ s.stuck = false ∧ s.readsPlainly s.work.wIn := by decide

/-- With the capacity used up, and with no bit and no byte left. -/
theorem witness_EncDataLeavesTheLoop :
    ∀ s ∈ [busyAt .encData 0#13 8#4 1#32 1#32 2#32 1#32 [], busyAt .encData 0#13 0#4 2#32 1#32 1#32 9#32 []], s.work.fsm = .encData ∧ s.stuck = false ∧
      ¬ (s.work.cnt.toNat < s.work.wCap.toNat ∧ (0 < s.work.bits.toNat ∨ s.work.cur.toNat < s.work.wLen.toNat)) := by decide

/-- A refill with 4 bits left, a zero-fill with 1 bit left, and neither with 5 bits, each into the last slot. -/
theorem witness_EncDataEmitsOneCharacter :
    ∀ s ∈ [busyAt .encData 0xF#13 4#4 8#32 1#32 2#32 9#32 [(0x101, 0x6F#8)], busyAt .encData 1#13 1#4 8#32 2#32 2#32 9#32 [], busyAt .encData 0x1F#13 5#4 8#32 2#32 2#32 9#32 []],
      s.work.fsm = .encData ∧ s.stuck = false ∧ Memory.wf s.mem = true ∧ s.work.cnt.toNat < s.work.wCap.toNat ∧ (0 < s.work.bits.toNat ∨ s.work.cur.toNat < s.work.wLen.toNat) ∧
      s.admits .write (s.work.wOut + s.work.cnt) = true ∧
      (s.work.bits.toNat < 5 → s.work.cur.toNat < s.work.wLen.toNat → s.readsPlainly (s.work.wIn + s.work.cur)) := by decide

/-- The last `=` of a group into the last slot; and no padding asked for, a whole group, no room. -/
theorem witness_EncPadAppendsOrLeaves :
    (let s := padded (busyAt .encPad 0#13 0#4 7#32 1#32 1#32 8#32 [])
     s.work.fsm = .encPad ∧ s.stuck = false ∧ Memory.wf s.mem = true ∧ (s.work.padReq = true ∧ s.work.cnt.toNat % 8 ≠ 0 ∧ s.work.cnt.toNat < s.work.wCap.toNat) ∧
       s.admits .write (s.work.wOut + s.work.cnt) = true) ∧
    (∀ s ∈ [busyAt .encPad 0#13 0#4 7#32 1#32 1#32 8#32 [], padded (busyAt .encPad 0#13 0#4 8#32 1#32 1#32 9#32 []), padded (busyAt .encPad 0#13 0#4 7#32 1#32 1#32 7#32 [])],
      s.work.fsm = .encPad ∧ s.stuck = false ∧ Memory.wf s.mem = true ∧ ¬ (s.work.padReq = true ∧ s.work.cnt.toNat % 8 ≠ 0 ∧ s.work.cnt.toNat < s.work.wCap.toNat)) := by decide

/-- A complete text with one slot left, one with none, and a text cut short. -/
theorem witness_EncFinTerminatesTheText :
    (let s := padded (busyAt .encFin 0#13 0#4 8#32 1#32 1#32 9#32 [])
     s.work.fsm = .encFin ∧ s.stuck = false ∧ Memory.wf s.mem = true ∧ s.work.complete = true ∧ s.work.cnt.toNat < s.work.wCap.toNat ∧
       s.admits .write (s.work.wOut + s.work.cnt) = true ∧ s.vis.clobbered = []) ∧
    (∀ s ∈ [busyAt .encFin 0#13 0#4 8#32 5#32 5#32 8#32 [], busyAt .encFin 0#13 3#4 1#32 1#32 1#32 1#32 [], padded (busyAt .encFin 0#13 0#4 7#32 1#32 1#32 7#32 [])],
      s.work.fsm = .encFin ∧ s.stuck = false ∧ Memory.wf s.mem = true ∧ ¬ (s.work.complete = true ∧ s.work.cnt.toNat < s.work.wCap.toNat) ∧
        s.admits .write (s.work.wOut + (s.work.wCap - 1#32)) = true) := by decide

theorem witness_DecScanEndsTheInput :
    let s := busyAt .decScan 0#13 0#4 6#32 16#32 16#32 64#32 []
    s.work.fsm = .decScan ∧ s.stuck = false ∧ s.work.cur = s.work.wLen := by decide

/-- A `=` that completes its run (BITS = 3), one that opens it (BITS = 0), and BITS at its greatest. -/
theorem witness_DecScanCountsPadding :
    ∀ b ∈ [3#4, 0#4, 7#4], let s := busyAt .decScan 0#13 b 1#32 2#32 3#32 64#32 [(0x102, 0x3D#8)]
      s.work.fsm = .decScan ∧ s.stuck = false ∧ s.work.cur.toNat < s.work.wLen.toNat ∧ s.work.bits.toNat ≤ 7 ∧ s.readsPlainly (s.work.wIn + s.work.cur) ∧
        s.byteAt (s.work.wIn + s.work.cur) = 0x3D#8 := by decide

/-- A separator inside a padding run, and `9` and 0x00 outside one. -/
theorem witness_DecScanRaisesInvalidCharacter :
    (let s := inPadding (busyAt .decScan 0#13 7#4 1#32 2#32 3#32 64#32 [(0x102, 0x20#8)])
     s.work.fsm = .decScan ∧ s.stuck = false ∧ s.work.cur.toNat < s.work.wLen.toNat ∧ s.readsPlainly (s.work.wIn + s.work.cur) ∧
       s.byteAt (s.work.wIn + s.work.cur) = 0x20#8 ∧ (0x20#8 : Byte) ≠ 0x3D#8 ∧ s.work.padStart = true ∧ s.vis.clobbered = []) ∧
    (∀ c ∈ [(0x39#8 : Byte), 0x00#8], let s := busyAt .decScan 0#13 0#4 0#32 0#32 1#32 0#32 (Memory.write [] 0x100 c)
     s.work.fsm = .decScan ∧ s.stuck = false ∧ s.work.cur.toNat < s.work.wLen.toNat ∧ s.readsPlainly (s.work.wIn + s.work.cur) ∧
       s.byteAt (s.work.wIn + s.work.cur) = c ∧ c ≠ 0x3D#8 ∧ c ∉ [(0x20#8 : Byte), 0x09#8, 0x0D#8, 0x0A#8, 0x2D#8] ∧ lookup (typo c) = none) := by decide

theorem witness_DecScanSkipsSeparators :
    ∀ c ∈ [(0x20#8 : Byte), 0x09#8, 0x0D#8, 0x0A#8, 0x2D#8], let s := busyAt .decScan 0#13 5#4 0#32 1#32 2#32 64#32 [(0x101, c)]
      s.work.fsm = .decScan ∧ s.stuck = false ∧ s.work.cur.toNat < s.work.wLen.toNat ∧ s.readsPlainly (s.work.wIn + s.work.cur) ∧ s.work.padStart = false ∧
        s.byteAt (s.work.wIn + s.work.cur) = c := by decide

/-- A byte that is written into the last slot, one that finds no slot, and too few bits (BITS = 2 and 3 before). -/
theorem witness_DecScanShiftsInSymbols :
    ∀ s ∈ [busyAt .decScan 0b01100#13 3#4 0#32 1#32 2#32 1#32 [(0x101, 0x59#8)], busyAt .decScan 0b01100#13 7#4 1#32 1#32 2#32 1#32 [(0x101, 0x59#8)],
        busyAt .decScan 0b01100#13 2#4 0#32 1#32 2#32 1#32 [(0x101, 0x59#8)]],
      s.work.fsm = .decScan ∧ s.stuck = false ∧ Memory.wf s.mem = true ∧ s.work.cur.toNat < s.work.wLen.toNat ∧ s.work.bits.toNat ≤ 7 ∧ s.readsPlainly (s.work.wIn + s.work.cur) ∧
        s.byteAt (s.work.wIn + s.work.cur) = 0x59#8 ∧ classify 0x59#8 = .sym 24#5 ∧ s.work.padStart = false ∧
        (s.work.cnt.toNat < s.work.wCap.toNat → s.admits .write (s.work.wOut + s.work.cnt) = true) := by decide

theorem witness_DecFinTerminatesTheOutput :
    ∀ s ∈ [busyAt .decFin 0#13 2#4 1#32 2#32 2#32 2#32 [], busyAt .decFin 0#13 2#4 1#32 2#32 2#32 1#32 []],
      s.work.fsm = .decFin ∧ s.stuck = false ∧ Memory.wf s.mem = true ∧ (s.work.cnt.toNat < s.work.wCap.toNat → s.admits .write (s.work.wOut + s.work.cnt) = true) := by decide

/-- One state for each of the eight accesses. -/
theorem witness_UnadmittedAccessLeavesTheBlockStuck :
    (let s := without .read (busyAt .encInit 0#13 0#4 0#32 0#32 1#32 9#32 [])
     s.work.fsm = .encInit ∧ s.admits .read s.work.wIn = false) ∧
    (let s := without .read (busyAt .encData 0#13 3#4 1#32 1#32 2#32 9#32 [])
     s.work.fsm = .encData ∧ s.work.cnt.toNat < s.work.wCap.toNat ∧ s.work.bits.toNat < 5 ∧ s.work.cur.toNat < s.work.wLen.toNat ∧
       s.admits .read (s.work.wIn + s.work.cur) = false) ∧
    (let s := without .write (busyAt .encData 0#13 8#4 0#32 1#32 1#32 9#32 [])
     s.work.fsm = .encData ∧ s.work.cnt.toNat < s.work.wCap.toNat ∧ (0 < s.work.bits.toNat ∨ s.work.cur.toNat < s.work.wLen.toNat) ∧
       s.admits .write (s.work.wOut + s.work.cnt) = false) ∧
    (let s := without .write (padded (busyAt .encPad 0#13 0#4 2#32 1#32 1#32 9#32 []))
     s.work.fsm = .encPad ∧ s.work.padReq = true ∧ s.work.cnt.toNat % 8 ≠ 0 ∧ s.work.cnt.toNat < s.work.wCap.toNat ∧
       s.admits .write (s.work.wOut + s.work.cnt) = false) ∧
    (let s := without .write (busyAt .encFin 0#13 0#4 2#32 1#32 1#32 9#32 [])
     s.work.fsm = .encFin ∧ s.admits .write (s.work.wOut + (if s.work.complete = true ∧ s.work.cnt.toNat < s.work.wCap.toNat then s.work.cnt
       else s.work.wCap - 1#32)) = false) ∧
    (let s := without .read (busyAt .decScan 0#13 0#4 0#32 0#32 1#32 9#32 [])
     s.work.fsm = .decScan ∧ s.work.cur.toNat < s.work.wLen.toNat ∧ s.admits .read (s.work.wIn + s.work.cur) = false) ∧
    (let s := without .write (busyAt .decScan 0#13 3#4 0#32 1#32 2#32 9#32 [(0x101, 0x59#8)])
     s.work.fsm = .decScan ∧ s.work.cur.toNat < s.work.wLen.toNat ∧ s.readsPlainly (s.work.wIn + s.work.cur) ∧ s.work.padStart = false ∧
       classify (s.byteAt (s.work.wIn + s.work.cur)) = .sym 24#5 ∧ 3 ≤ s.work.bits.toNat ∧ s.work.bits.toNat ≤ 7 ∧ s.work.cnt.toNat < s.work.wCap.toNat ∧
       s.admits .write (s.work.wOut + s.work.cnt) = false) ∧
    (let s := without .write (busyAt .decFin 0#13 0#4 0#32 0#32 0#32 1#32 [])
     s.work.fsm = .decFin ∧ s.work.cnt.toNat < s.work.wCap.toNat ∧ s.admits .write (s.work.wOut + s.work.cnt) = false) := by decide

theorem witness_ArgumentRegisterReadsBackAsWritten :
    ∀ off ∈ [0x08, 0x0C, 0x10, 0x14], off ∈ [0x08, 0x0C, 0x10, 0x14] ∧
      (upcoming [.regWrite off .word 6#32, .regRead off .word] State.reset).schedule = .regWrite off .word 6#32 :: .regRead off .word :: [] := by decide

theorem witness_ReadOnlyRegistersIgnoreWrites :
    ∀ off ∈ [0x04, 0x18, 0x1C, 0x3C], (off = 0x04 ∨ off = 0x18 ∨ (off % 4 = 0 ∧ 0x1C ≤ off ∧ off ≤ 0x3C)) ∧
      (upcoming [.regWrite off .word 6#32] State.reset).schedule = .regWrite off .word 6#32 :: [] := by decide

theorem witness_RegisterReadReturnsTheValue :
    ∀ off ∈ [0x00, 0x04, 0x08, 0x0C, 0x10, 0x14, 0x18, 0x1C, 0x3C], off % 4 = 0 ∧ off < 64 ∧
      (upcoming [.regRead off .word] State.reset).schedule = .regRead off .word :: [] := by decide

/-- A halfword, an unaligned word and a word past the window; and the last word inside it. -/
theorem witness_BadRegisterAccessIsRefused :
    (∀ x ∈ [(0x00, AccessSize.half), (0x02, .word), (0x40, .word)], ¬ (x.2 = .word ∧ x.1 % 4 = 0 ∧ x.1 < 64) ∧
      (upcoming [.regWrite x.1 x.2 0#32] State.reset).schedule = .regWrite x.1 x.2 0#32 :: [] ∧
      (upcoming [.regRead x.1 x.2] State.reset).schedule = .regRead x.1 x.2 :: []) ∧
    (0x3C % 4 = 0 ∧ 0x3C < 64) := by decide

theorem witness_ResetSetsEveryRegister :
    (upcoming [.reset] (busyAt .decScan 5#13 5#4 1#32 1#32 2#32 9#32 [(0x200, 0x66#8)])).schedule = .reset :: [] := by decide

theorem witness_HostMemoryReadsBackWhileIdle :
    let s := upcoming [.memWrite 0x100#32 0x00#8, .memRead 0x100#32] (idle ⟨0#32, 0#32, 0#32, 0#32⟩ [(0x100, 0x66#8)])
    s.busy = false ∧ Memory.wf s.mem = true ∧ s.schedule = .memWrite 0x100#32 0x00#8 :: .memRead 0x100#32 :: [] := by decide

/-- The last byte of the input region. -/
theorem witness_RacingReadReturnsOldOrNew :
    let s := busyAt .encData 0#13 3#4 1#32 1#32 2#32 9#32 [(0x101, 0x6F#8)]
    s.busy = true ∧ s.work.inputRegion.contains 0x101#32 = true ∧ valuesAt s.vis.racing 0x101#32 = [] ∧
      ∃ c t, (s.hostWrite 0x101#32 0x70#8).blockRead 0x101#32 = some (c, t) := by
  refine ⟨by decide, by decide, by decide, ?_⟩
  have h := State.blockRead_isSome ((busyAt .encData 0#13 3#4 1#32 1#32 2#32 9#32 [(0x101, 0x6F#8)]).hostWrite 0x101#32 0x70#8) 0x101#32
  have h1 := Option.isSome_iff_exists.mp (h.trans (by decide))
  obtain ⟨⟨c, t⟩, e⟩ := h1
  exact ⟨c, t, e⟩

/-- The first output byte, with a value of this command to be seen there, one of an earlier command, and an abandoned region elsewhere. -/
theorem witness_HostReadDuringCommandSeesAValueHeld :
    let s : State := { busyAt .encData 0#13 8#4 0#32 1#32 1#32 9#32 [(0x200, 0x11#8)] with
      vis := { Visibility.quiet with stale := [(0x200#32, .value 0x22#8)], older := [(0x200#32, .any)], abandoned := [⟨0x300#32, 4⟩] } }
    Memory.wf s.mem = true ∧ (∀ r ∈ s.vis.abandoned, r.contains 0x200#32 = false) ∧ StaleValue.any ∉ s.olderAt 0x200#32 := by decide

/-- With an older value still to be seen, and an abandoned region elsewhere. -/
theorem witness_CompletionMakesWritesVisible :
    let s : State := upcoming [.regRead 0x04 .word, .memRead 0x200#32]
      { State.reset with result := ⟨true, false, none, 1#32⟩, mem := [(0x200, 0x66#8)], vis := { Visibility.quiet with stale := [(0x200#32, .value 0x11#8)], older := [(0x200#32, .value 0x22#8)], abandoned := [⟨0x300#32, 4⟩] } }
    s.busy = false ∧ s.result.done = true ∧ (∀ r ∈ s.vis.abandoned, r.contains 0x200#32 = false) ∧
      s.schedule = .regRead 0x04 .word :: .memRead 0x200#32 :: [] := by decide

theorem witness_TyposAndCaseMakeNoDifference : ∀ c ∈ [(0x41#8 : Byte), 0x5A#8], 0x41 ≤ c.toNat ∧ c.toNat ≤ 0x5A := by decide

/-- A running ENCODE, with a race and a clobbered byte, keeps the invariant and has a step. -/
def raced : State :=
  { busyAt .encData 0b110#13 3#4 1#32 1#32 2#32 9#32 [(0x100, 0x66#8), (0x101, 0x6F#8)] with
    vis := { Visibility.quiet with racing := [(0x101#32, 0x70#8), (0x101#32, 0x6F#8)], clobbered := [0x208#32] } }

theorem witness_StepKeepsTheInvariant : raced.Inv ∧ ∃ t, step raced = .next t :=
  ⟨by decide, _, rfl⟩

theorem witness_NoStepFaults : raced.Inv ∧ State.reset.Inv := by decide

/-- A state of the invariant for each of the eight values. -/
theorem witness_StatusTakesEightValues :
    (∀ r ∈ [Result.cleared, ⟨true, false, none, 0#32⟩, ⟨true, true, some .invalidCharacter, 0#32⟩, ⟨true, true, some .invalidLength, 0#32⟩,
        ⟨true, true, some .invalidCapacity, 0#32⟩, ⟨true, true, some .bufferTooSmall, 0#32⟩, ⟨true, true, some .illegalCommand, 0#32⟩],
      ({ State.reset with result := r } : State).Inv) ∧ raced.Inv ∧ raced.statusWord = 0x00000001#32 := by decide

theorem witness_BlockTurnWritesOnlyItsOutputRegion :
    raced.Inv ∧ (∃ t, blockStep raced = .next t) ∧ raced.work.outputRegion.contains 0x209#32 = false ∧ raced.work.outputRegion.contains 0x1FF#32 = false :=
  ⟨by decide, ⟨_, rfl⟩, by decide, by decide⟩

theorem witness_LatchedArgumentsChangeOnlyAtAcceptance :
    (∃ t, step raced = .next t) ∧ (∃ t, step (upcoming [.reset] raced) = .next t) ∧ ∃ t, step (State.reset.withFetchWord 32 0x1) = .next t :=
  ⟨⟨_, rfl⟩, ⟨_, rfl⟩, ⟨_, rfl⟩⟩

theorem witness_OnlyACommandWakesTheBlock : State.reset.busy = false ∧
    ((outcomeState (step (State.reset.withFetchWord 32 0x2))).map State.busy) = some true := by decide

theorem witness_NothingCancelsACommand :
    raced.busy = true ∧ Event.regWrite 0x00 .word 0x00000000#32 ≠ .block ∧ Event.regWrite 0x00 .word 0x00000000#32 ≠ .reset ∧
      ∃ t, step (raced.withFetchWord 32 0x0) = .next t :=
  ⟨by decide, by decide, by decide, _, rfl⟩

/-- `f` at 0x100, the output at 0x200: with `enc.pad`, 9 bytes hold the text `MY======` and its sentinel, and 8 do not. -/
def encodeJob (cap : Word) : State := idle ⟨0x100#32, 1#32, 0x200#32, cap⟩ [(0x100, 0x66#8)]

theorem encodeJob_apart (cap : Word) (h : cap.toNat ≤ 9) : (encodeJob cap).args.buffersApart cap.toNat :=
  Region.apart_of_below _ _ (show 0x100 + 1 ≤ 0x200 by decide) (show 0x200 + cap.toNat ≤ 2 ^ 32 by omega)

theorem witness_EncodeWritesTheText :
    ∀ cap ∈ [(9#32 : Word), 8#32], let s := encodeJob cap
      s.busy = false ∧ s.stuck = false ∧ s.schedule = [] ∧ Memory.wf s.mem = true ∧ s.args.inLen.toNat < 2 ^ 28 ∧ 0 < s32 s.args.outCap ∧
        s.args.buffersApart s.args.outCap.toNat ∧
        (∀ i, i < s.args.inLen.toNat → 8 * i / 5 < s.args.outCap.toNat → s.admits .read (s.args.inAddr + BitVec.ofNat 32 i) = true) ∧
        (∀ j, j < s.args.outCap.toNat → s.admits .write (s.args.outAddr + BitVec.ofNat 32 j) = true) ∧
        (cap = 9#32 → (fullText true (s.bytesFrom s.args.inAddr s.args.inLen.toNat)).length < s.args.outCap.toNat) ∧
        (cap = 8#32 → s.args.outCap.toNat ≤ (fullText true (s.bytesFrom s.args.inAddr s.args.inLen.toNat)).length) := by
  intro cap h
  have hc : cap = 9#32 ∨ cap = 8#32 := by simpa using h
  refine ⟨rfl, rfl, rfl, rfl, show (1#32 : Word).toNat < 2 ^ 28 by decide, ?_, encodeJob_apart cap (by rcases hc with rfl | rfl <;> decide), fun i _ _ => State.admits_of_no_hole _ _ _ rfl, fun j _ => State.admits_of_no_hole _ _ _ rfl, ?_, ?_⟩
  · rcases hc with rfl | rfl <;> decide
  · rintro rfl; decide
  · rintro rfl; decide

/-- `MY=` at 0x100. -/
def decodeJob (cap : Word) : State := idle ⟨0x100#32, 3#32, 0x200#32, cap⟩ [(0x100, 0x4D#8), (0x101, 0x59#8), (0x102, 0x3D#8)]

/-- `MY======MY` at 0x100: data after a completed padding run (R119). -/
def decodePieces (cap : Word) : State :=
  idle ⟨0x100#32, 10#32, 0x200#32, cap⟩ [(0x100, 0x4D#8), (0x101, 0x59#8), (0x102, 0x3D#8), (0x103, 0x3D#8), (0x104, 0x3D#8), (0x105, 0x3D#8),
    (0x106, 0x3D#8), (0x107, 0x3D#8), (0x108, 0x4D#8), (0x109, 0x59#8)]

theorem decodePieces_text (cap : Word) : (decodePieces cap).bytesFrom 0x100#32 10 =
    [TextPiece.mk [0x4D#8, 0x59#8] 6].flatMap TextPiece.text ++ (TextPiece.mk [0x4D#8, 0x59#8] 0).text := rfl

/-- With room for the sentinel, with room for one byte of the two, and with a negative capacity. -/
theorem witness_DecodeWritesTheBytes :
    ∀ cap ∈ [(3#32 : Word), 1#32, 0xFFFFFFFF#32], let s := decodePieces cap
      let n := if s32 s.args.outCap ≤ 0 then 0 else s.args.outCap.toNat
      s.busy = false ∧ s.stuck = false ∧ s.schedule = [] ∧ Memory.wf s.mem = true ∧ s.args.buffersApart n ∧
        s.bytesFrom s.args.inAddr s.args.inLen.toNat =
          [TextPiece.mk [0x4D#8, 0x59#8] 6].flatMap TextPiece.text ++ (TextPiece.mk [0x4D#8, 0x59#8] 0).text ∧
        [TextPiece.mk [0x4D#8, 0x59#8] 6].all TextPiece.whole = true ∧ plainText (TextPiece.mk [0x4D#8, 0x59#8] 0).body = true ∧
        (∀ i, i < s.args.inLen.toNat → s.admits .read (s.args.inAddr + BitVec.ofNat 32 i) = true) ∧
        (∀ j, j < n → s.admits .write (s.args.outAddr + BitVec.ofNat 32 j) = true) := by
  intro cap h
  refine ⟨rfl, rfl, rfl, rfl, ?_, decodePieces_text cap, by decide, by decide, fun i _ => State.admits_of_no_hole _ _ _ rfl,
    fun j _ => State.admits_of_no_hole _ _ _ rfl⟩
  simp only [List.mem_cons, List.not_mem_nil, or_false] at h
  rcases h with rfl | rfl | rfl <;> exact Region.apart_of_below _ _ (by decide) (by decide)

theorem witness_EncodeThenDecodeRoundTrip :
    let s := encodeJob 9#32
    s.busy = false ∧ s.stuck = false ∧ s.schedule = [] ∧ s.denied = [] ∧ Memory.wf s.mem = true ∧ s.args.inLen.toNat < 2 ^ 28 ∧ 0 < s32 s.args.outCap ∧
      s.args.buffersApart s.args.outCap.toNat ∧ (fullText true (s.bytesFrom s.args.inAddr s.args.inLen.toNat)).length < s.args.outCap.toNat ∧
      (s.args.inLen.toNat : Int) ≤ s32 1#32 ∧
      Region.apart ⟨s.args.outAddr, (fullText true (s.bytesFrom s.args.inAddr s.args.inLen.toNat)).length⟩ ⟨0x300#32, (1#32 : Word).toNat⟩ :=
  ⟨rfl, rfl, rfl, rfl, rfl, by decide, by decide, encodeJob_apart 9#32 (by decide), by decide, by decide, Region.apart_of_below _ _ (by decide) (by decide)⟩

/-- A DECODE that succeeds, and one of `9A`, which does not. -/
theorem witness_DecodeEndsInItsStepCount :
    ∀ s ∈ [decodeJob 2#32, idle ⟨0x100#32, 2#32, 0x200#32, 0#32⟩ [(0x100, 0x39#8), (0x101, 0x41#8)]],
      s.busy = false ∧ s.stuck = false ∧ s.schedule = [] ∧ (∀ i, i < s.args.inLen.toNat → s.admits .read (s.args.inAddr + BitVec.ofNat 32 i) = true) ∧
        ∀ j, j < (if s32 s.args.outCap ≤ 0 then 0 else s.args.outCap.toNat) → s.admits .write (s.args.outAddr + BitVec.ofNat 32 j) = true := by decide

theorem witness_DecodeVerdictIgnoresCapacity :
    let s := decodeJob 2#32
    s.busy = false ∧ s.stuck = false ∧ s.schedule = [] ∧ s.denied = [] ∧ s.args.buffersApart (decodeCapacity s.args.outCap).toNat ∧
      s.args.buffersApart (decodeCapacity 0x80000000#32).toNat :=
  ⟨rfl, rfl, rfl, rfl, Region.apart_of_below _ _ (by decide) (by decide), Region.apart_of_below _ _ (by decide) (by decide)⟩

theorem witness_TextSplitsAtGroups : [0x66#8, 0x6F#8, 0x6F#8, 0x62#8, (0x61#8 : Byte)].length % 5 = 0 := by decide

/-- The host's write to the byte the block is stuck at, and a reset. -/
theorem witness_OnlyResetFreesAStuckBlock :
    ∀ e ∈ [Event.memWrite 0x101#32 0x20#8, .block, .reset],
      let s := upcoming [e] (without .write (busyAt .decScan 0#13 3#4 0#32 1#32 2#32 9#32 [(0x101, 0x59#8)])).getStuck
      s.busy = true ∧ s.stuck = true ∧ (outcomeState (step s)).isSome = true := by decide

/-- An idle block about to accept, with bytes of an earlier command still to be seen at the first output byte and past the last. -/
def afterEarlier (events : List Event) : State :=
  upcoming events { encodeJob 9#32 with vis := { Visibility.quiet with stale := [(0x200#32, .value 0x22#8), (0x209#32, .value 0x33#8)] } }

/-- What an earlier command left to be seen is not seen in the output region of the running one (R74 second bullet); past that
region, and before the acceptance, it is. -/
theorem test_earlier_value_not_seen :
    (match exec .enc (afterEarlier []) with
      | .next t => (t.olderAt 0x200#32, t.olderAt 0x209#32, (t.hostSees 0x200#32).1)
      | _       => ([.any], [], 0xFF#8)) = ([], [.value 0x33#8], 0x00#8) ∧
    (afterEarlier []).olderAt 0x200#32 = [.value 0x22#8] := by decide

/-- The states of an ENCODE, from its acceptance on. -/
def encodeStates (s : State) : Nat → State
  | 0     => (outcomeState (exec .enc s)).getD State.reset
  | k + 1 => (outcomeState (step (encodeStates s k))).getD State.reset

/-- The host reads the first output byte after the block has written it. -/
theorem witness_HostReadReturnsAValueOfTheRunningCommand :
    let s := afterEarlier [.block, .block, .memRead 0x200#32]
    let run := encodeStates s
    s.busy = false ∧ exec .enc s = .next (run 0) ∧ (∀ k, k < 2 → step (run k) = .next (run (k + 1))) ∧ (∀ k, k ≤ 2 → (run k).busy = true) ∧
      (run 2).work.outputRegion.contains 0x200#32 = true ∧ (∀ r ∈ s.vis.abandoned, r.contains 0x200#32 = false) ∧
      (run 2).schedule = .memRead 0x200#32 :: [] ∧ (run 2).olderAt 0x200#32 ≠ [] :=
  ⟨rfl, rfl, fun | 0, _ => rfl | 1, _ => rfl, by decide, by decide, by decide, by decide, by decide⟩

end Sys2Proof.Tests
end

section
/-! Every step keeps the invariant, and under it none faults (10_state.md R23, R24, R41; 60_exceptions.md R203). -/

namespace Sys2Proof.Machine

variable {s t : State}

/-! ### What a step takes -/

/-- A step takes the next event of the interleaving (R214). -/
theorem step_of_event {e : Event} {rest : List Event} (h : s.schedule = e :: rest) : step s = eventStep e { s with schedule := rest } := by
  simp only [step, h]

/-- With no event left the block takes its turn (R215). -/
theorem step_of_nil (h : s.schedule = []) : step s = blockStep s := by
  simp only [step, h]

/-! ### The block's turn -/

/-- The rule FSM chooses keeps the invariant, the races of a command it ends settled. -/
theorem blockRule_keeps (h : s.Inv) (hst : s.stuck = false) (hne : s.work.fsm ≠ .idle) (hs : blockRule s = some t) : t.afterStep.Inv := by
  unfold blockRule at hs
  split at hs
  case h_1 hf => exact absurd hf hne
  case h_2 hf => exact encInit_keeps h hf hs
  case h_3 hf => exact encData_keeps h hf hs
  case h_4 hf => exact encPad_keeps h hf hs
  case h_5 => exact encFin_keeps h hst hs
  case h_6 hf => exact decScan_keeps h hst hf hs
  case h_7 => exact decFin_keeps h hst hs

theorem blockStep_keeps (h : s.Inv) (hs : blockStep s = .next t) : t.Inv := by
  cases hst : s.stuck with
  | true => rw [blockStep_of_stuck hst] at hs; cases hs; exact h
  | false =>
    rcases blockStep_cases s with ⟨-, e⟩ | ⟨-, -, e⟩ | ⟨hne, -, -, e⟩ | ⟨u, hne, -, hu, e⟩ <;> rw [e] at hs <;> cases hs
    · exact h
    · exact getStuck_keeps h ((State.busy_iff s).mpr hne)
    · exact blockRule_keeps h hst hne hu

/-- Under the invariant CUR is at most W_LEN in DEC_SCAN (R41), so the block's turn does not fault. -/
theorem blockStep_ne_fault (h : s.Inv) (f : Fault) : blockStep s ≠ .fault f := by
  rcases blockStep_cases s with ⟨-, e⟩ | ⟨hf, hlt, -⟩ | ⟨-, -, -, e⟩ | ⟨u, -, -, -, e⟩
  case inr.inl =>
    obtain ⟨-, -, -, hcur, -⟩ := (Work.inv_decScan hf).mp h.2.1
    exact absurd hlt (BitVec.not_lt.mpr hcur)
  all_goals rw [e]; nofun

/-! ### The commands -/

theorem whenIdle_keeps {f : State → State} (h : s.Inv) (hf : s.busy = false → (f s).Inv) (hs : whenIdle f s = .next t) : t.Inv := by
  cases hb : s.busy with
  | true => rw [whenIdle_of_busy f hb] at hs; cases hs; exact h
  | false => rw [whenIdle_of_idle f hb] at hs; cases hs; exact hf hb

theorem exec_keeps (i : Instr) (h : s.Inv) (hs : exec i s = .next t) : t.Inv := by
  cases i with
  | clr => exact whenIdle_keeps h (clearResult_keeps h) hs
  | enc => exact whenIdle_keeps h (acceptEncode_keeps false h) hs
  | encPad => exact whenIdle_keeps h (acceptEncode_keeps true h) hs
  | dec => exact whenIdle_keeps h (fun _ => acceptDecode_keeps h) hs

theorem commandWrite_keeps {w : Word} (h : s.Inv) (hs : commandWrite w s = .next t) : t.Inv := by
  unfold commandWrite at hs
  split at hs
  · exact exec_keeps _ h hs
  · exact whenIdle_keeps h (illegal_keeps h) hs

/-- A command goes on with a next state: the block's errors are no faults (R186). -/
theorem commandWrite_next (w : Word) (s : State) : ∃ t, commandWrite w s = .next t := by
  unfold commandWrite
  split
  next i _ => cases i <;> exact ⟨_, rfl⟩
  next => exact ⟨_, rfl⟩

/-! ### Every move -/

theorem hostRegWrite_keeps {off : Nat} {size : AccessSize} {v : Word} (h : s.Inv) (hs : hostRegWrite off size v s = .next t) : t.Inv := by
  unfold hostRegWrite at hs
  split at hs
  · cases hs
  · exact commandWrite_keeps h hs
  · cases hs; exact writeReg_keeps _ v h

theorem hostRegRead_keeps {off : Nat} {size : AccessSize} (h : s.Inv) (hs : hostRegRead off size s = .next t) : t.Inv := by
  unfold hostRegRead at hs
  split at hs <;> cases hs
  exact hostReadReg_keeps off _ h

theorem hostWait_keeps (h : s.Inv) : (hostWait s).Inv := by
  unfold hostWait
  split
  · exact (hostReadReg_keeps 0x04 .status h).with_schedule _
  · exact hostReadReg_keeps 0x04 .status h

theorem eventStep_keeps (e : Event) (h : s.Inv) (hs : eventStep e s = .next t) : t.Inv := by
  cases e with
  | block => exact blockStep_keeps h hs
  | regWrite => exact hostRegWrite_keeps h hs
  | regRead => exact hostRegRead_keeps h hs
  | wait => cases hs; exact hostWait_keeps h
  | memWrite a v => cases hs; exact hostWrite_keeps a v h
  | memRead a => cases hs; exact hostRead_keeps a h
  | reset => cases hs; exact platformReset_keeps h

/-- Only the block's turn can fault. -/
theorem eventStep_ne_fault {e : Event} (he : e ≠ .block) (s : State) (f : Fault) : eventStep e s ≠ .fault f := by
  cases e with
  | block => exact absurd rfl he
  | regWrite off size v =>
    simp only [eventStep, hostRegWrite]
    split
    · nofun
    · obtain ⟨t, ht⟩ := commandWrite_next v s
      rw [ht]; nofun
    · nofun
  | regRead off size =>
    simp only [eventStep, hostRegRead]
    split <;> nofun
  | wait | memWrite | memRead | reset => nofun

/-- Settles O40: the rule of each state of FSM and every move of the host and the platform keep the invariant. -/
theorem stepKeepsTheInvariant : Obligations.StepKeepsTheInvariant := by
  unfold Obligations.StepKeepsTheInvariant
  intro s t h hs
  cases hsch : s.schedule with
  | nil => exact blockStep_keeps h (step_of_nil hsch ▸ hs)
  | cons e rest => exact eventStep_keeps e (h.with_schedule rest) (step_of_event hsch ▸ hs)

/-- Settles O41: the one fault needs CUR above W_LEN in DEC_SCAN, which the invariant excludes. -/
theorem noStepFaults : Obligations.NoStepFaults := by
  unfold Obligations.NoStepFaults
  intro s f h
  cases hsch : s.schedule with
  | nil => rw [step_of_nil hsch]; exact blockStep_ne_fault h f
  | cons e rest =>
    rw [step_of_event hsch]
    by_cases he : e = .block
    · subst he; exact blockStep_ne_fault (h.with_schedule rest) f
    · exact eventStep_ne_fault he _ f

end Sys2Proof.Machine
end

section
/-! The latched arguments change only at acceptance or reset (10_state.md R27, R28). -/

namespace Sys2Proof

/-- A word that decodes is the encoding of what it decodes to (R90). -/
theorem encode_of_decode {w : Word} {i : Instr} (h : decode w = .ok i) : w = encode i := by
  unfold decode at h
  split at h
  · cases h
  · have hf := (CommandFields.instr_iff _ i).mp ⟨‹_›, h⟩
    rw [encode, ← hf, CommandFields.toWord_ofWord]

namespace Machine

variable {s t : State}

/-- W_IN, W_LEN, W_OUT, W_CAP and PADREQ are as they were (R28). -/
abbrev KeepsLatched (s t : State) : Prop :=
  t.work.wIn = s.work.wIn ∧ t.work.wLen = s.work.wLen ∧ t.work.wOut = s.work.wOut ∧ t.work.wCap = s.work.wCap ∧
    t.work.padReq = s.work.padReq

theorem KeepsLatched.refl (s : State) : KeepsLatched s s := ⟨rfl, rfl, rfl, rfl, rfl⟩

theorem KeepsLatched.of_work_eq (h : t.work = s.work) : KeepsLatched s t := by
  rw [KeepsLatched, h]; exact KeepsLatched.refl s

theorem SameFixed.keepsLatched (h : SameFixed s t) : KeepsLatched s t := ⟨h.wIn, h.wLen, h.wOut, h.wCap, h.padReq⟩

@[simp] theorem State.afterStep_work (s : State) : s.afterStep.work = s.work := by
  unfold State.afterStep; split <;> rfl

theorem blockStep_keepsLatched (h : blockStep s = .next t) : KeepsLatched s t := by
  rcases blockStep_cases s with ⟨-, e⟩ | ⟨-, -, e⟩ | ⟨-, -, -, e⟩ | ⟨u, -, -, hu, e⟩ <;> rw [e] at h <;> cases h
  · exact KeepsLatched.refl s
  · exact KeepsLatched.refl s
  · rw [KeepsLatched, State.afterStep_work]; exact (blockRule_fixed hu).keepsLatched

/-- A CMD write that latches an argument is an ENCODE or a DECODE word, and the block is idle (R161, R162, R164). -/
theorem commandWrite_keepsLatched {w : Word} (h : commandWrite w s = .next t) :
    KeepsLatched s t ∨ s.busy = false ∧ w ∈ [0x00000001#32, 0x00000005#32, 0x00000002#32] := by
  cases hb : s.busy with
  | true => exact .inl (commandWrite_of_busy hb h ▸ KeepsLatched.refl s)
  | false =>
    unfold commandWrite at h
    split at h
    next i hd =>
      have hw := encode_of_decode hd
      cases i with
      | clr => cases (whenIdle_of_idle _ hb).symm.trans h; exact .inl (KeepsLatched.refl s)
      | enc | encPad | dec => exact .inr ⟨rfl, hw ▸ by decide⟩
    next => cases (whenIdle_of_idle _ hb).symm.trans h; exact .inl (KeepsLatched.refl s)

/-- Settles O44: the block's rules and the host's other moves keep the latched arguments, and so does a CMD write that starts no command. -/
theorem latchedArgumentsChangeOnlyAtAcceptance : Obligations.LatchedArgumentsChangeOnlyAtAcceptance := by
  unfold Obligations.LatchedArgumentsChangeOnlyAtAcceptance
  intro s t h
  cases hsch : s.schedule with
  | nil => exact .inl (blockStep_keepsLatched (step_of_nil hsch ▸ h))
  | cons e rest =>
    rw [step_of_event hsch] at h
    by_cases hblock : e = .block
    · subst hblock; exact .inl (blockStep_keepsLatched (s := { s with schedule := rest }) h)
    by_cases hreset : e = .reset
    · subst hreset; exact .inr (.inl ⟨rest, rfl⟩)
    rcases hostEvent_frame h hblock hreset with ⟨hw, -, -⟩ | ⟨w, rfl, hc⟩
    · exact .inl (KeepsLatched.of_work_eq (s := s) hw)
    · rcases commandWrite_keepsLatched hc with hk | ⟨hb, hm⟩
      · exact .inl hk
      · exact .inr (.inr ⟨hb, w, rest, rfl, hm⟩)

end Machine
end Sys2Proof
end

section
/-! The register window: which register an offset names, what a read records and what a write leaves (10_state.md R30 to R40). -/

namespace Sys2Proof.Machine

/-- A 32-bit access at a word-aligned offset of the window reaches the register there (R67). -/
theorem accessedReg_word {off : Nat} (ha : off % 4 = 0) (hw : off < 64) : accessedReg off .word = some (regAt off) := by
  simp [accessedReg, Config.windowBytes, ha, hw]

/-- The offsets from 0x1C on are reserved (R38). -/
theorem regAt_reserved {off : Nat} (h : 0x1C ≤ off) : regAt off = .reserved := by
  unfold regAt
  simp only [show off ≠ 0x00 by omega, show off ≠ 0x04 by omega, show off ≠ 0x08 by omega, show off ≠ 0x0C by omega,
    show off ≠ 0x10 by omega, show off ≠ 0x14 by omega, show off ≠ 0x18 by omega, if_false]

/-- A register that ignores the host's writes (R32, R37, R38). -/
def HostReg.readOnly (r : HostReg) : Prop := r = .status ∨ r = .count ∨ r = .reserved

theorem hostRegWrite_readOnly {off : Nat} {r : HostReg} (h : accessedReg off .word = some r) (hr : r.readOnly) (v : Word) (s : State) :
    hostRegWrite off .word v s = .next s := by
  unfold hostRegWrite
  rw [h]
  rcases hr with rfl | rfl | rfl <;> rfl

/-- Settles O25: the offset names a register whose writes are ignored. -/
theorem readOnlyRegistersIgnoreWrites : Obligations.ReadOnlyRegistersIgnoreWrites := by
  unfold Obligations.ReadOnlyRegistersIgnoreWrites
  intro s off v rest hoff hsch
  have hro : (regAt off).readOnly := by
    rcases hoff with rfl | rfl | ⟨-, hlo, -⟩
    · exact .inl rfl
    · exact .inr (.inl rfl)
    · exact .inr (.inr (regAt_reserved hlo))
  rw [step_of_event hsch]
  exact hostRegWrite_readOnly (accessedReg_word (by omega) (by omega)) hro v _

/-- What a register read leaves alone: everything but the visibility, and the record gains the value read (R39). -/
theorem hostReadReg_eq (s : State) (off : Nat) (r : HostReg) :
    ∃ v, s.hostReadReg off r = { s with vis := v, replies := .reg off (s.readReg r) :: s.replies } := by
  unfold State.hostReadReg State.seenDone
  split
  · split <;> exact ⟨_, rfl⟩
  · exact ⟨_, rfl⟩

/-- The value of the register at an offset, by the table of R30. -/
theorem readReg_regAt (s : State) (off : Nat) : s.readReg (regAt off) =
    if off = 0x04 then s.statusWord else if off = 0x08 then s.args.inAddr else if off = 0x0C then s.args.inLen
    else if off = 0x10 then s.args.outAddr else if off = 0x14 then s.args.outCap else if off = 0x18 then s.result.count
    else 0#32 := by
  unfold regAt
  by_cases h : off = 0x00
  · subst h; rfl
  · simp only [h, if_false]
    split_ifs <;> rfl

/-- Settles O26: the read changes the visibility and the record alone. -/
theorem registerReadReturnsTheValue : Obligations.RegisterReadReturnsTheValue := by
  unfold Obligations.RegisterReadReturnsTheValue
  intro s off rest ha hw hsch
  obtain ⟨v, hv⟩ := hostReadReg_eq { s with schedule := rest } off (regAt off)
  have hs : step s = .next { s with schedule := rest, vis := v, replies := .reg off (s.readReg (regAt off)) :: s.replies } := by
    rw [step_of_event hsch, eventStep, hostRegRead, accessedReg_word ha hw]
    exact congrArg _ hv
  exact ⟨_, hs, rfl, rfl, rfl, rfl, rfl, rfl, rfl, by rw [readReg_regAt]⟩

/-! ### STATUS -/

/-- STATUS bit by bit (R32). -/
theorem State.statusWord_getLsbD (s : State) (k : Nat) : s.statusWord.getLsbD k =
    match k with
    | 0 => s.busy
    | 1 => s.result.done
    | 2 => s.result.err
    | 3 => false
    | j + 4 => s.result.errField.getLsbD j := by
  show (0#24 ++ s.result.errField ++ 0#1 ++ BitVec.ofBool s.result.err ++ BitVec.ofBool s.result.done ++
    BitVec.ofBool s.busy).getLsbD k = _
  simp only [BitVec.getLsbD_append]
  match k with
  | 0 | 1 | 2 | 3 => simp
  | j + 4 => simpa using BitVec.lt_of_getLsbD

theorem State.busy_eq_decide (s : State) : s.busy = decide (s.work.fsm ≠ .idle) := by
  rw [Bool.eq_iff_iff, decide_eq_true_iff, State.busy_iff]

/-- Bits [7:4] of STATUS are the error field (R32). -/
theorem State.statusWord_errField (s : State) : s.statusWord.extractLsb' 4 4 = s.result.errField := by
  ext k hk
  simp [Nat.add_comm 4 k, s.statusWord_getLsbD (k + 4), BitVec.getLsbD_eq_getElem hk]

/-- Bits [31:8] of STATUS are 0 (R32). -/
theorem State.statusWord_reserved (s : State) : s.statusWord.extractLsb' 8 24 = 0#24 := by
  ext k hk
  simp [Nat.add_comm 8 k, s.statusWord_getLsbD (k + 4 + 4)]

/-- Settles O27: the single bits one by one, ERRCODE and the reserved bits as slices. -/
theorem statusWordHasItsFields : Obligations.StatusWordHasItsFields := by
  unfold Obligations.StatusWordHasItsFields
  intro s
  refine ⟨?_, s.statusWord_getLsbD 1, s.statusWord_getLsbD 2, s.statusWord_getLsbD 3, ?_, s.statusWord_reserved⟩
  · rw [s.statusWord_getLsbD, ← s.busy_eq_decide]
  · rw [s.statusWord_errField, Result.errField]
    cases s.result.errCode with
    | none => rfl
    | some c => cases c <;> rfl

end Sys2Proof.Machine
end

section
/-! Accesses the platform does not admit: a rule that needs one has no step, and the block is stuck from then on (20_memory.md R69;
70_reset_and_hazards.md R225). -/

namespace Sys2Proof.Machine

variable {s u : State} {c : Byte}

/-! ### The port and the rules that use it -/

theorem State.blockRead_refused {a : Addr} (h : s.admits .read a = false) : s.blockRead a = none := by
  simp [State.blockRead, h]

theorem State.blockWrite_refused {a : Addr} (v : Byte) (h : s.admits .write a = false) : s.blockWrite a v = none := by
  simp [State.blockWrite, h]

theorem encInit_refused (h : s.admits .read (s.work.inByte 0#32) = false) : encInit s = none := by
  rw [encInit, State.blockRead_refused h]; rfl

/-- The refill needs its read (R137). -/
theorem encRefill_refused (hb : s.work.bits.toNat < 5) (hc : s.work.cur.toNat < s.work.wLen.toNat)
    (h : s.admits .read (s.work.inByte s.work.cur) = false) : encRefill s = none := by
  have h5 : ¬ 5#4 ≤ s.work.bits := by simpa [BitVec.le_def] using hb
  rw [encRefill, if_neg h5, if_pos ((Work.moreInput_iff _).mpr hc), State.blockRead_refused h]; rfl

theorem encEmit_refused (h : s.admits .write (s.work.outSlot s.work.cnt) = false) : encEmit s = none := by
  rw [encEmit, State.blockWrite_refused _ h]; rfl

/-- The refill moves neither the output slot nor what the platform admits. -/
theorem encRefill_slot (h : encRefill s = some u) :
    u.denied = s.denied ∧ u.work.outSlot u.work.cnt = s.work.outSlot s.work.cnt := by
  rcases encRefill_some h with ⟨-, rfl⟩ | ⟨-, -, c, v, hr, rfl⟩ | ⟨-, -, rfl⟩
  · exact ⟨rfl, rfl⟩
  · obtain ⟨-, ⟨n, rfl⟩, -⟩ := State.blockRead_some hr
    exact ⟨rfl, rfl⟩
  · exact ⟨rfl, rfl⟩

theorem encData_read_refused (hroom : s.work.cnt.toNat < s.work.wCap.toNat) (hb : s.work.bits.toNat < 5)
    (hc : s.work.cur.toNat < s.work.wLen.toNat) (h : s.admits .read (s.work.inByte s.work.cur) = false) : encData s = none := by
  rw [encData, if_pos ((Work.dataLoop_iff _).mpr ⟨hroom, .inr hc⟩), encRefill_refused hb hc h]; rfl

/-- The iteration does not happen if its write is refused, whether or not it has a read (R12; log 6). -/
theorem encData_write_refused (hl : s.work.dataLoop = true) (h : s.admits .write (s.work.outSlot s.work.cnt) = false) :
    encData s = none := by
  rw [encData, if_pos hl, Option.bind_eq_none_iff]
  intro u hu
  obtain ⟨hd, hslot⟩ := encRefill_slot hu
  exact encEmit_refused (by rw [State.admits_congr hd, hslot, h])

theorem encPad_refused (hl : s.work.padLoop = true) (h : s.admits .write (s.work.outSlot s.work.cnt) = false) : encPad s = none := by
  rw [encPad, if_pos hl, State.blockWrite_refused _ h]; rfl

/-- ENC_FIN writes in either case, the sentinel's slot chosen by completeness and room (R142). -/
theorem encFin_refused (h : s.admits .write (s.work.outSlot
    (if s.work.complete = true ∧ s.work.cnt.toNat < s.work.wCap.toNat then s.work.cnt else s.work.wCap - 1#32)) = false) :
    encFin s = none := by
  simp only [← Work.roomLeft_iff, ← Bool.and_eq_true] at h
  unfold encFin
  split at h
  next hc => rw [if_pos hc, State.blockWrite_refused _ h]; rfl
  next hc => rw [if_neg hc, State.blockWrite_refused _ h]; rfl

theorem decScan_read_refused (hc : s.work.cur.toNat < s.work.wLen.toNat) (h : s.admits .read (s.work.inByte s.work.cur) = false) :
    decScan s = none := by
  rw [decScan, if_pos ((Work.moreInput_iff _).mpr hc), State.blockRead_refused h]; rfl

theorem decEmit_refused (hb : 8 ≤ s.work.bits.toNat) (hroom : s.work.cnt.toNat < s.work.wCap.toNat)
    (h : s.admits .write (s.work.outSlot s.work.cnt) = false) : decEmit s = none := by
  have h8 : 8#4 ≤ s.work.bits := by simpa [BitVec.le_def] using hb
  rw [decEmit, if_pos h8, if_pos ((Work.roomLeft_iff _).mpr hroom), State.blockWrite_refused _ h]; rfl

/-- A symbol that completes a byte needs that byte's write (R113). -/
theorem decByte_refused {v : Symbol} (hp : s.work.padStart = false) (hc : classify c = .sym v) (hlo : 3 ≤ s.work.bits.toNat)
    (hhi : s.work.bits.toNat ≤ 7) (hroom : s.work.cnt.toNat < s.work.wCap.toNat)
    (h : s.admits .write (s.work.outSlot s.work.cnt) = false) : decByte s c = none := by
  obtain ⟨hne, hsep, hv⟩ := classify_eq_sym.mp hc
  rw [decByte_symbol hne hp hsep hv]
  refine decEmit_refused ?_ hroom h
  simp only [Work.shiftInSymbol_bits, BitVec.toNat_add, BitVec.toNat_ofNat]
  omega

/-- The byte is not consumed if the write it calls for is refused (R12; log 6). -/
theorem decScan_write_refused {v : Symbol} (hcur : s.work.cur.toNat < s.work.wLen.toNat) (hr : s.readsPlainly (s.work.inByte s.work.cur))
    (hp : s.work.padStart = false) (hc : classify (s.byteAt (s.work.inByte s.work.cur)) = .sym v) (hlo : 3 ≤ s.work.bits.toNat)
    (hhi : s.work.bits.toNat ≤ 7) (hroom : s.work.cnt.toNat < s.work.wCap.toNat)
    (h : s.admits .write (s.work.outSlot s.work.cnt) = false) : decScan s = none := by
  rw [decScan, if_pos ((Work.moreInput_iff _).mpr hcur), State.blockRead_plain _ _ hr.1 hr.2]
  exact decByte_refused (s := s.consumed) hp hc hlo hhi hroom h

theorem decFin_refused (hroom : s.work.cnt.toNat < s.work.wCap.toNat) (h : s.admits .write (s.work.outSlot s.work.cnt) = false) :
    decFin s = none := by
  rw [decFin, if_pos ((Work.roomLeft_iff _).mpr hroom), State.blockWrite_refused _ h]; rfl

/-! ### The stuck block -/

/-- A busy block whose rule has no step becomes stuck, and stays so through its own turns and every command (R164, R166). -/
theorem stuck_of_no_rule {f : Fsm} (hf : s.work.fsm = f) (hi : f ≠ .idle) (hd : f = .decScan → s.work.cur.toNat < s.work.wLen.toNat)
    (hb : blockRule s = none) :
    ∃ t : State, t = { s with stuck := true } ∧ blockStep s = .next t ∧ blockStep t = .next t ∧ t.busy = true ∧
      ∀ i : Instr, exec i t = .next t := by
  have hpast : ¬ (s.work.fsm = .decScan ∧ s.work.wLen < s.work.cur) := by
    rintro ⟨hscan, hlt⟩
    exact Nat.lt_asymm (hd (hf.symm.trans hscan)) (BitVec.lt_def.mp hlt)
  have hbusy : s.getStuck.busy = true := State.busy_of_fsm hf hi
  exact ⟨s.getStuck, rfl, blockStep_of_none (hf ▸ hi) hpast hb, blockStep_of_stuck rfl, hbusy, fun i => exec_of_busy i hbusy⟩

/-- Settles O23: each of the eight accesses is one its rule cannot do without. -/
theorem unadmittedAccessLeavesTheBlockStuck : Obligations.UnadmittedAccessLeavesTheBlockStuck := by
  unfold Obligations.UnadmittedAccessLeavesTheBlockStuck
  rintro s (⟨hf, h⟩ | ⟨hf, hroom, hb, hc, h⟩ | ⟨hf, hroom, hmore, h⟩ | ⟨hf, hpad, hgroup, hroom, h⟩ | ⟨hf, h⟩ | ⟨hf, hc, h⟩ |
    ⟨hf, hc, hr, hp, ⟨v, hv⟩, hlo, hhi, hroom, h⟩ | ⟨hf, hroom, h⟩)
  · exact stuck_of_no_rule hf nofun nofun (by
      rw [blockRule, hf]; exact encInit_refused (by rw [Work.inByte, BitVec.add_zero, h]))
  · exact stuck_of_no_rule hf nofun nofun (by rw [blockRule, hf]; exact encData_read_refused hroom hb hc h)
  · exact stuck_of_no_rule hf nofun nofun (by
      rw [blockRule, hf]; exact encData_write_refused ((Work.dataLoop_iff _).mpr ⟨hroom, hmore⟩) h)
  · exact stuck_of_no_rule hf nofun nofun (by
      rw [blockRule, hf]; exact encPad_refused ((Work.padLoop_iff _).mpr ⟨hpad, hgroup, hroom⟩) h)
  · exact stuck_of_no_rule hf nofun nofun (by rw [blockRule, hf]; exact encFin_refused h)
  · exact stuck_of_no_rule hf nofun (fun _ => hc) (by rw [blockRule, hf]; exact decScan_read_refused hc h)
  · exact stuck_of_no_rule hf nofun (fun _ => hc) (by
      rw [blockRule, hf]; exact decScan_write_refused hc hr hp hv hlo hhi hroom h)
  · exact stuck_of_no_rule hf nofun nofun (by rw [blockRule, hf]; exact decFin_refused hroom h)

end Sys2Proof.Machine
end

section
/-! The block's turn writes inside its output region alone (20_memory.md R65; 10_state.md R28). -/

namespace Sys2Proof.Machine

variable {s t : State}

/-- The end of a command changes no byte outside its output region: the bytes the host clobbered lie in it (R74 third bullet). -/
theorem byteAt_afterStep_outside (hcl : t.vis.clobbered.all s.work.outputRegion.contains = true) {b : Addr}
    (hb : s.work.outputRegion.contains b = false) : t.afterStep.byteAt b = t.byteAt b := by
  cases hbusy : t.busy with
  | true => rw [State.afterStep_of_busy hbusy]
  | false =>
    refine byteAt_of_ended t t rfl hbusy b fun hmem => ?_
    rw [List.all_eq_true.mp hcl b hmem] at hb
    cases hb

/-- The end of a command settles memory and the races alone (R74). -/
theorem State.afterStep_eq (s : State) : ∃ m v, s.afterStep = { s with mem := m, vis := v } := by
  unfold State.afterStep
  split
  · exact ⟨s.mem, s.vis, rfl⟩
  · exact ⟨_, _, rfl⟩

/-- Settles O43: the step rule's frame, and the clobbered bytes of the invariant where the turn ends the command. -/
theorem blockTurnWritesOnlyItsOutputRegion : Obligations.BlockTurnWritesOnlyItsOutputRegion := by
  unfold Obligations.BlockTurnWritesOnlyItsOutputRegion
  intro s t hinv h
  rcases blockStep_cases s with ⟨-, e⟩ | ⟨-, -, e⟩ | ⟨-, -, -, e⟩ | ⟨u, hne, -, hu, e⟩ <;> rw [e] at h <;> cases h
  · exact ⟨fun _ _ => rfl, rfl, rfl, rfl, rfl, rfl, rfl, rfl, rfl, rfl, fun _ => rfl⟩
  · exact ⟨fun _ _ => rfl, rfl, rfl, rfl, rfl, rfl, rfl, rfl, rfl, rfl, fun _ => rfl⟩
  · obtain ⟨hfix, hbytes, hclob, hres⟩ := blockRule_frame hinv.2.1 hne hu
    obtain ⟨-, -, hcl⟩ := hinv.running ((State.busy_iff s).mpr hne)
    have hout : ∀ b : Addr, s.work.outputRegion.contains b = false → u.afterStep.byteAt b = s.byteAt b := fun b hb =>
      (byteAt_afterStep_outside (hclob ▸ hcl) hb).trans (hbytes b hb)
    refine ⟨hout, ?_⟩
    obtain ⟨m, v, hafter⟩ := u.afterStep_eq
    rw [hafter]
    exact ⟨hfix.args, hfix.denied, hfix.schedule, hfix.replies, hfix.wIn, hfix.wLen, hfix.wOut, hfix.wCap, hfix.padReq, hres⟩

end Sys2Proof.Machine
end

section
/-! Host accesses to the register window that have no meaning are refused, and every other one goes on (20_memory.md R67; 10_state.md R38). -/

namespace Sys2Proof.Machine

variable {off : Nat} {size : AccessSize}

/-- Only a 32-bit access at a word-aligned offset of the window reaches a register (R67). -/
theorem accessedReg_eq_none (h : ¬ (size = .word ∧ off % 4 = 0 ∧ off < 64)) : accessedReg off size = none := if_neg h

theorem hostRegWrite_refused (h : accessedReg off size = none) (v : Word) (s : State) :
    hostRegWrite off size v s = .refused (.registerAccess off size) := by
  rw [hostRegWrite, h]

theorem hostRegRead_refused (h : accessedReg off size = none) (s : State) :
    hostRegRead off size s = .refused (.registerAccess off size) := by
  rw [hostRegRead, h]

/-- A write that reaches a register has a next state, a command's among them. -/
theorem hostRegWrite_next {r : HostReg} (h : accessedReg off size = some r) (v : Word) (s : State) :
    ∃ t, hostRegWrite off size v s = .next t := by
  rw [hostRegWrite, h]
  cases r with
  | cmd => exact commandWrite_next v s
  | status | inAddr | inLen | outAddr | outCap | count | reserved => exact ⟨_, rfl⟩

theorem hostRegRead_next {r : HostReg} (h : accessedReg off size = some r) (s : State) : ∃ t, hostRegRead off size s = .next t := by
  rw [hostRegRead, h]
  exact ⟨_, rfl⟩

/-- Settles O28: the access is refused exactly where it reaches no register. -/
theorem badRegisterAccessIsRefused : Obligations.BadRegisterAccessIsRefused := by
  unfold Obligations.BadRegisterAccessIsRefused
  intro s off size v rest
  refine ⟨fun hbad => ⟨fun hsch => ?_, fun hsch => ?_⟩, fun hsize ha hw => ⟨fun hsch => ?_, fun hsch => ?_⟩⟩ <;>
    rw [step_of_event hsch]
  · exact hostRegWrite_refused (accessedReg_eq_none hbad) v _
  · exact hostRegRead_refused (accessedReg_eq_none hbad) _
  · subst hsize; exact hostRegWrite_next (accessedReg_word ha hw) v _
  · subst hsize; exact hostRegRead_next (accessedReg_word ha hw) _

end Sys2Proof.Machine
end

section
/-! What a host read of memory returns: the host's own byte, what the block left, and during a command a value the byte held in it
(20_memory.md R61, R73, R74; 70_reset_and_hazards.md R212). -/

namespace Sys2Proof.Machine

variable {s t : State} {a : Addr} {v : Byte}

/-! ### A byte that reads as memory holds it -/

/-- With nothing older left to be seen, the host sees the byte there is (R73). -/
theorem State.hostSees_of_settled (h : s.seenAt a = .value v) (ho : s.olderAt a = []) : s.hostSees a = (v, s.vis) := by
  unfold State.hostSees
  rw [h, ho]

/-- An address that has been written is in no abandoned region (R212; log 10). -/
theorem dropAbandoned_self (l : List Region) (a : Addr) : ∀ r ∈ dropAbandoned l a, r.contains a = false := by
  intro q hq
  obtain ⟨r, -, hq⟩ := List.mem_flatMap.mp hq
  exact Region.without_self r a q hq

theorem State.byteAt_hostWrite_self (a : Addr) (v : Byte) (h : Memory.wf s.mem = true) : (s.hostWrite a v).byteAt a = v :=
  Memory.read_write_self s.mem a.toNat v h

theorem State.byteAt_hostWrite_other {b : Addr} (v : Byte) (h : b ≠ a) : (s.hostWrite a v).byteAt b = s.byteAt b :=
  s.byteAt_putByte_other a b v h

/-- What the host wrote while idle is what it reads there: an own write forgets every older value (R61; log 9). -/
theorem State.hostSees_hostWrite (hb : s.busy = false) (hm : Memory.wf s.mem = true) :
    (s.hostWrite a v).hostSees a = (v, (s.hostWrite a v).vis) := by
  refine State.hostSees_of_settled ?_ ?_
  · rw [State.seenAt_of_kept _ _ (dropAbandoned_self _ a), State.byteAt_hostWrite_self a v hm]
  · rw [State.olderAt_of_idle _ _ (State.hostWrite_busy s a v ▸ hb)]
    simp [State.hostWrite, hb, valuesAt_forget_self]

/-- A host read of memory as the next event (R39). -/
theorem step_memRead {rest : List Event} (h : s.schedule = .memRead a :: rest) :
    step s = .next (State.hostRead { s with schedule := rest } a) := step_of_event h

/-- Settles O31: the write leaves its byte alone to be seen at the address. -/
theorem hostMemoryReadsBackWhileIdle : Obligations.HostMemoryReadsBackWhileIdle := by
  unfold Obligations.HostMemoryReadsBackWhileIdle
  intro s a v rest hb hm hsch
  refine ⟨_, _, step_of_event hsch, step_memRead rfl, ?_, rfl, rfl, rfl, rfl, ?_, fun b hne => ?_⟩
  · have hsees := State.hostSees_hostWrite (s := { s with schedule := rest }) (a := a) (v := v) hb hm
    exact congrArg (fun p => Reply.mem a p.1 :: s.replies) hsees
  · exact State.byteAt_hostWrite_self (s := { s with schedule := rest }) a v hm
  · exact State.byteAt_hostWrite_other (s := { s with schedule := rest }) v hne

/-- The state with no older value left to be seen (R73, completion). -/
def State.forgetOlder (s : State) : State := { s with vis := { s.vis with stale := [], older := [] } }

/-- A STATUS read with BUSY = 0 and DONE = 1 makes the block's writes visible (R73, R219). -/
theorem State.seenDone_of_done (hb : s.busy = false) (hd : s.result.done = true) : s.seenDone = s.forgetOlder := by
  rw [State.seenDone, if_pos (by simp [hb, hd])]; rfl

/-- A STATUS read with BUSY = 0 and DONE = 1 as the next event (R39). -/
theorem step_statusRead_done {rest : List Event} (hb : s.busy = false) (hd : s.result.done = true)
    (h : s.schedule = .regRead 0x04 .word :: rest) :
    step s = .next { s.forgetOlder with schedule := rest, replies := .reg 0x04 s.statusWord :: s.replies } := by
  rw [step_of_event h, eventStep, hostRegRead, accessedReg_word (by decide) (by decide)]
  have hdone := State.seenDone_of_done (s := { s with schedule := rest }) hb hd
  exact congrArg (fun u : State => Host.Outcome.next { u with replies := .reg 0x04 s.statusWord :: u.replies }) hdone

/-- Settles O34: the STATUS read is the completion point, after which nothing older is to be seen. -/
theorem completionMakesWritesVisible : Obligations.CompletionMakesWritesVisible := by
  unfold Obligations.CompletionMakesWritesVisible
  intro s a rest hb hd hab hsch
  refine ⟨_, _, step_statusRead_done hb hd hsch, step_memRead rfl, ?_⟩
  have hsees := State.hostSees_of_settled (State.seenAt_of_kept s.forgetOlder a hab) (State.olderAt_of_idle s.forgetOlder a hb)
  exact congrArg (fun p => Reply.mem a p.1 :: .reg 0x04 s.statusWord :: s.replies) hsees

/-! ### Races -/

/-- The first host write of an input byte during the command leaves two values to choose from (R74 first bullet). -/
theorem valuesAt_racing_hostWrite (hb : s.busy = true) (hin : s.work.inputRegion.contains a = true) (h : valuesAt s.vis.racing a = []) :
    valuesAt (s.hostWrite a v).vis.racing a = [v, s.byteAt a] := by
  simp [State.hostWrite, hb, hin, valuesAt_cons, h]

/-- Settles O32: a block read of a raced byte draws one of the racing values. -/
theorem racingReadReturnsOldOrNew : Obligations.RacingReadReturnsOldOrNew := by
  unfold Obligations.RacingReadReturnsOldOrNew
  intro s t a v c hb hin hnone h
  have hrace := valuesAt_racing_hostWrite (v := v) hb hin hnone
  obtain ⟨-, -, ⟨hempty, -⟩ | hmem⟩ := State.blockRead_some h
  · rw [hrace] at hempty; cases hempty
  · simpa [hrace] using hmem

/-- A block write adds to the older values what the host could see of the byte (R73). -/
theorem State.olderAt_blockPut_self (s : State) (a : Addr) (v : Byte) : (s.blockPut a v).olderAt a = s.seenAt a :: s.olderAt a := by
  simp only [State.olderAt, State.blockPut_busy, State.blockPut_work, State.blockPut_vis, Visibility.blockWrote_stale,
    Visibility.blockWrote_older, valuesAt_cons, if_true]
  split <;> rfl

/-- Settles O33: the read draws from the byte written, the one before, and the older values. -/
theorem hostReadDuringCommandSeesAValueHeld : Obligations.HostReadDuringCommandSeesAValueHeld := by
  unfold Obligations.HostReadDuringCommandSeesAValueHeld
  intro s a v hm hab hany
  have hnow : (s.blockPut a v).seenAt a = .value v := by
    rw [State.seenAt_of_kept _ _ (dropAbandoned_self _ a), State.byteAt_blockPut_self s a v hm]
  have holder : (s.blockPut a v).olderAt a = .value (s.byteAt a) :: s.olderAt a := by
    rw [State.olderAt_blockPut_self, State.seenAt_of_kept s a hab]
  rcases State.hostSees_of_kept _ a v hnow (by simp [holder, hany]) with h | h
  · exact .inl h
  · rw [holder, List.mem_cons] at h
    exact .inr (h.imp StaleValue.value.inj id)

/-! ### The values a byte has held since the acceptance -/

/-- What the host may see of the byte in state `n` of a run is what memory held there in a state up to `n`. -/
structure SeenHeld (run : Nat → State) (a : Addr) (n : Nat) : Prop where
  stale : ∀ x, (a, x) ∈ (run n).vis.stale → ∃ k, k ≤ n ∧ x = .value ((run k).byteAt a)
  keeps : (run n).vis.keeps a

/-- A command that starts sets apart what earlier commands left to be seen, and abandons no region (R74; log 9). -/
theorem exec_starts {i : Instr} (hb : s.busy = false) (h : exec i s = .next t) (ht : t.busy = true) :
    t.vis.stale = [] ∧ t.vis.abandoned = s.vis.abandoned := by
  have hencode : ∀ pad, t = s.acceptEncode pad → t.vis.stale = [] ∧ t.vis.abandoned = s.vis.abandoned := by
    rintro pad rfl
    rcases acceptEncode_cases s pad with ⟨-, e⟩ | ⟨-, -, e⟩ | ⟨-, -, e⟩ <;> rw [e] <;> exact ⟨rfl, rfl⟩
  cases i with
  | clr => cases (whenIdle_of_idle _ hb).symm.trans h; rw [State.clearResult_busy, hb] at ht; cases ht
  | enc => cases (exec_encode_of_idle false hb).symm.trans h; exact hencode false rfl
  | encPad => cases (exec_encode_of_idle true hb).symm.trans h; exact hencode true rfl
  | dec => cases (exec_dec_of_idle hb).symm.trans h; exact ⟨rfl, rfl⟩

/-- A step of the running command adds at most what the host could see of the byte before it, which memory held then. -/
theorem SeenHeld.succ {run : Nat → State} {n : Nat} (h : SeenHeld run a n) (hf : SeenFrame (run n) (run (n + 1))) :
    SeenHeld run a (n + 1) := by
  refine ⟨fun x hx => ?_, hf.keeps a h.keeps⟩
  rcases hf.stale _ hx with hold | hnow
  · obtain ⟨k, hk, e⟩ := h.stale x hold
    exact ⟨k, Nat.le_succ_of_le hk, e⟩
  · exact ⟨n, Nat.le_succ n, hnow.trans (State.seenAt_of_kept _ a h.keeps)⟩

/-- Along a running command the host sees values of that command alone (R74 second bullet). -/
theorem SeenHeld.along {run : Nat → State} (h : SeenHeld run a 0) {n : Nat} (hs : ∀ k, k < n → step (run k) = .next (run (k + 1)))
    (hb : ∀ k, k ≤ n → (run k).busy = true) : SeenHeld run a n := by
  induction n with
  | zero => exact h
  | succ n ih =>
    have hn := ih (fun k hk => hs k (Nat.lt_succ_of_lt hk)) (fun k hk => hb k (Nat.le_succ_of_le hk))
    exact hn.succ (step_seen (hs n (Nat.lt_succ_self n)) (hb n (Nat.le_succ n)) (hb (n + 1) (Nat.le_refl _)))

/-- A host read in the output region returns one of those values. -/
theorem SeenHeld.read {run : Nat → State} {n : Nat} (h : SeenHeld run a n) (hb : (run n).busy = true)
    (hout : (run n).work.outputRegion.contains a = true) : ∃ k, k ≤ n ∧ ((run n).hostSees a).1 = (run k).byteAt a := by
  have holder : ∀ x ∈ (run n).olderAt a, ∃ k, k ≤ n ∧ x = .value ((run k).byteAt a) := fun x hx => by
    rw [State.olderAt_of_output _ a hb hout, mem_valuesAt] at hx
    exact h.stale x hx
  have hany : .any ∉ (run n).olderAt a := fun hx => by
    obtain ⟨k, -, e⟩ := holder _ hx
    cases e
  rcases State.hostSees_of_kept _ a _ (State.seenAt_of_kept _ a h.keeps) hany with e | hx
  · exact ⟨n, Nat.le_refl n, e⟩
  · obtain ⟨k, hk, e⟩ := holder _ hx
    exact ⟨k, hk, StaleValue.value.inj e⟩

/-- Settles O56, by induction on the states since the acceptance. -/
theorem hostReadReturnsAValueOfTheRunningCommand : Obligations.HostReadReturnsAValueOfTheRunningCommand := by
  unfold Obligations.HostReadReturnsAValueOfTheRunningCommand
  intro i s run n a rest hidle hexec hsteps hbusy hout hab hsch
  obtain ⟨hstale, hkept⟩ := exec_starts hidle hexec (hbusy 0 (Nat.zero_le n))
  have hstart : SeenHeld run a 0 := ⟨fun x hx => absurd hx (by simp [hstale]), fun r hr => hab r (hkept ▸ hr)⟩
  obtain ⟨k, hk, e⟩ := (hstart.along hsteps hbusy).read (hbusy n (Nat.le_refl n)) hout
  exact ⟨_, k, step_memRead hsch, hk, congrArg (fun c => Reply.mem a c :: (run n).replies) e⟩

end Sys2Proof.Machine
end

section
/-! The command words both ways, the illegal ones, and what those do to an idle block (30_encoding.md R87 to R90; 42_control.md R162). -/

namespace Sys2Proof

/-! ### The words that decode -/

theorem decode_encode (i : Instr) : decode (encode i) = .ok i := by
  cases i with
  | clr => exact Laws.Encoding.clr.2
  | enc => exact Laws.Encoding.enc.2
  | encPad => exact Laws.Encoding.encPad.2
  | dec => exact Laws.Encoding.dec.2

theorem decode_eq_ok_iff {w : Word} {i : Instr} : decode w = .ok i ↔ w = encode i :=
  ⟨encode_of_decode, fun h => h ▸ decode_encode i⟩

/-! ### The words that do not -/

/-- Fields are at fault on any of R90's three conditions, whichever the model tests first. -/
theorem CommandFields.fault_ne_none_iff (f : CommandFields) :
    f.fault ≠ none ↔ f.op = 0b11#2 ∨ (f.pad = 1#1 ∧ f.op ≠ 0b01#2) ∨ f.rsv ≠ 0#29 := by
  unfold CommandFields.fault
  split_ifs <;> simp_all

/-- Each OP but 0b11 has a command (R88). -/
theorem CommandFields.instr_of_op {f : CommandFields} (h : f.op ≠ 0b11#2) : ∃ i, f.instr = .ok i := by
  have hop : f.op = 0b00#2 ∨ f.op = 0b01#2 ∨ f.op = 0b10#2 := by bv_omega
  unfold CommandFields.instr
  rcases hop with e | e | e <;> rw [e] <;> exact ⟨_, rfl⟩

/-- The decoder refuses a word only for a fault of its fields: without one, OP has a command. -/
theorem exists_decode_eq_error_iff (w : Word) : (∃ e, decode w = .error e) ↔ (CommandFields.ofWord w).fault ≠ none := by
  unfold decode
  cases hf : (CommandFields.ofWord w).fault with
  | some e => simp
  | none =>
    have hop : (CommandFields.ofWord w).op ≠ 0b11#2 := fun h => (CommandFields.fault_ne_none_iff _).mpr (.inl h) hf
    obtain ⟨i, hi⟩ := CommandFields.instr_of_op hop
    simp [hi]

namespace Machine

/-- An idle block raises ILLEGAL_COMMAND with COUNT 0, and nothing but the result changes (R162, R187). -/
theorem illegalCommand_of_idle {s : State} (h : s.busy = false) :
    illegalCommand s = .next { s with result := ⟨true, true, some .illegalCommand, 0#32⟩ } := by
  have hwork : { s.work with fsm := .idle } = s.work := by rw [← (State.not_busy_iff s).mp h]
  rw [illegalCommand, whenIdle_of_idle _ h]
  simp only [State.raiseError, hwork, if_true]

theorem commandWrite_of_error {w : Word} {e : DecodeError} (h : decode w = .error e) (s : State) :
    commandWrite w s = illegalCommand s := by
  simp only [commandWrite, h]

/-- Settles O1: decode and encode agree both ways, a fault of the fields is one of R90's three conditions, and an illegal word
goes to `illegalCommand`. -/
theorem legalWordsAreTheFourEncodings : Obligations.LegalWordsAreTheFourEncodings := by
  unfold Obligations.LegalWordsAreTheFourEncodings
  refine ⟨by decide, fun w i => decode_eq_ok_iff, fun w => ?_, fun w e s he hidle => ?_⟩
  · exact (exists_decode_eq_error_iff w).trans (CommandFields.ofWord w).fault_ne_none_iff
  · rw [commandWrite_of_error he, illegalCommand_of_idle hidle]

end Machine
end Sys2Proof
end

section
/-! The tables ALPHABET and LOOKUP and the sizes of the byte classes (30_encoding.md R81, R84, R86). -/

namespace Sys2Proof.Machine

/-! ### ALPHABET and LOOKUP -/

/-- Settles O35, entry by entry. -/
theorem alphabetIsTheTable : Obligations.AlphabetIsTheTable := by
  unfold Obligations.AlphabetIsTheTable
  decide

/-- The letters start at `A` = 0x41, and index 26 is `2` = 0x18 + 26 (R81). -/
theorem alphabet_toNat (i : Symbol) :
    (i.toNat ≤ 25 ∧ (alphabet i).toNat = 0x41 + i.toNat) ∨ (26 ≤ i.toNat ∧ (alphabet i).toNat = 0x18 + i.toNat) := by
  have hi := i.isLt
  unfold alphabet
  split <;> rw [BitVec.toNat_ofNat] <;> omega

theorem some_ofNat_eq_symbol {n : Nat} (h : n < 32) (i : Symbol) : some (BitVec.ofNat 5 n) = some i ↔ n = i.toNat := by
  rw [Option.some.injEq, ← BitVec.toNat_inj, BitVec.toNat_ofNat, Nat.mod_eq_of_lt h]

/-- The bytes of an index are its character and, for a letter, the lower-case one (R84). -/
theorem lookup_eq_some_iff (c : Byte) (i : Symbol) :
    lookup c = some i ↔ c = alphabet i ∨ (c.toNat = (alphabet i).toNat + 0x20 ∧ i.toNat ≤ 25) := by
  have hi := i.isLt
  have halphabet := alphabet_toNat i
  rw [← BitVec.toNat_inj]
  unfold lookup
  split_ifs with hupper hlower hdigit
  case neg => rw [iff_false_left nofun]; omega
  all_goals rw [some_ofNat_eq_symbol (by omega)]; omega

/-- Settles O36: the first half is `lookup_alphabet`, the second is R84 read backwards. -/
theorem lookupUndoesAlphabet : Obligations.LookupUndoesAlphabet := by
  unfold Obligations.LookupUndoesAlphabet
  exact ⟨lookup_alphabet, lookup_eq_some_iff⟩

/-! ### The byte classes -/

/-- Every byte is in exactly one class, and SYM is the class whose bytes `symbolsOf` keeps (R86). -/
theorem length_eq_sum_of_classes (l : List Byte) :
    l.length = (l.filter fun c => classify c == .pad).length + (l.filter fun c => classify c == .sep).length +
      (l.filter fun c => (symbolsOf [c]).length == 1).length + (l.filter fun c => classify c == .bad).length := by
  simp only [symbolsOf_singleton]
  induction l with
  | nil => rfl
  | cons c l ih =>
    simp only [List.filter_cons, List.length_cons]
    cases classify c <;> simp <;> omega

/-- Settles O37: PAD, SEP and SYM are counted, and BAD is the rest of the 256 bytes. -/
theorem byteClassesHaveTheirSizes : Obligations.ByteClassesHaveTheirSizes := by
  unfold Obligations.ByteClassesHaveTheirSizes
  intro bytes
  have hpad : (bytes.filter fun c => classify c == .pad).length = 1 := by decide
  have hsep : (bytes.filter fun c => classify c == .sep).length = 5 := by decide
  have hsym : (bytes.filter fun c => (symbolsOf [c]).length == 1).length = 61 := by decide
  have hlen : bytes.length = 256 := by simp [bytes]
  have hsum := length_eq_sum_of_classes bytes
  exact ⟨hpad, hsep, hsym, by omega⟩

end Sys2Proof.Machine
end

section
/-! The decoder by the class of a byte, and the acceptance of `dec` (30_encoding.md R84 to R86; 40_decode.md R101, R105, R121). -/

namespace Sys2Proof.Machine

variable {s : State} {c d : Byte}

/-- The decoder looks at the class of a byte alone (R105). -/
theorem decByte_congr (h : classify c = classify d) : decByte s c = decByte s d := by
  cases hd : classify d with
  | pad => rw [classify_eq_pad.mp (h.trans hd), classify_eq_pad.mp hd]
  | sep =>
    obtain ⟨hc, hcs⟩ := classify_eq_sep.mp (h.trans hd)
    obtain ⟨hd, hds⟩ := classify_eq_sep.mp hd
    simp only [decByte, hc, hd, hcs, hds, if_true, if_false]
  | sym v =>
    obtain ⟨hc, hcs, hcl⟩ := classify_eq_sym.mp (h.trans hd)
    obtain ⟨hd, hds, hdl⟩ := classify_eq_sym.mp hd
    simp only [decByte, decSymbol, hc, hd, hcs, hds, hcl, hdl, if_false]
  | bad =>
    obtain ⟨hc, hcs, hcl⟩ := classify_eq_bad.mp (h.trans hd)
    obtain ⟨hd, hds, hdl⟩ := classify_eq_bad.mp hd
    simp only [decByte, decSymbol, hc, hd, hcs, hds, hcl, hdl, if_false]

/-- The first 26 indices have a lower-case letter too (R84). -/
theorem classify_alphabet_lowerCase {i : Symbol} (h : i.toNat ≤ 25) : classify (alphabet i + 0x20#8) = .sym i := by
  revert i; decide

/-- The upper-case letters are the characters of the first 26 indices (R81). -/
theorem exists_alphabet_eq_of_letter (hlo : 0x41 ≤ c.toNat) (hhi : c.toNat ≤ 0x5A) : ∃ i : Symbol, i.toNat ≤ 25 ∧ alphabet i = c := by
  have hi : (BitVec.ofNat 5 (c.toNat - 0x41)).toNat = c.toNat - 0x41 := by rw [BitVec.toNat_ofNat]; omega
  refine ⟨BitVec.ofNat 5 (c.toNat - 0x41), by omega, BitVec.eq_of_toNat_eq ?_⟩
  have := alphabet_toNat (BitVec.ofNat 5 (c.toNat - 0x41))
  omega

/-- Settles O38: each pair of bytes has one class. -/
theorem typosAndCaseMakeNoDifference : Obligations.TyposAndCaseMakeNoDifference := by
  unfold Obligations.TyposAndCaseMakeNoDifference
  intro s
  refine ⟨decByte_congr (by decide), decByte_congr (by decide), decByte_congr (by decide), fun c hlo hhi => decByte_congr ?_⟩
  obtain ⟨i, hi, rfl⟩ := exists_alphabet_eq_of_letter hlo hhi
  rw [classify_alphabet_lowerCase hi, classify_alphabet]

/-- Settles O10: while idle `dec` is its acceptance, field by field that of R101. -/
theorem decodeAcceptanceLatchesAndStarts : Obligations.DecodeAcceptanceLatchesAndStarts := by
  unfold Obligations.DecodeAcceptanceLatchesAndStarts
  exact ⟨by decide, fun s hidle => exec_dec_of_idle hidle⟩

end Sys2Proof.Machine
end

section
/-! One turn of DEC_SCAN in each of its cases, and the turn of DEC_FIN (40_decode.md R103 to R115). -/

namespace Sys2Proof.Machine

variable {s u t : State} {c : Byte}

/-- The end of a command changes no byte that the host left alone (R74 third bullet). -/
theorem byteAt_ended (hb : u.busy = false) {b : Addr} (h : b ∉ u.vis.clobbered) : u.afterStep.byteAt b = u.byteAt b :=
  byteAt_of_ended u u rfl hb b h

/-! ### DEC_SCAN -/

/-- At the end of the input (R103). -/
theorem decScan_of_end (h : s.work.cur = s.work.wLen) : decScan s = some (s.goto .decFin) := by
  rw [decScan, if_neg]
  rw [Work.moreInput_iff, h]
  exact Nat.lt_irrefl _

/-- Settles O17: the rule is `goto`, and the command goes on. -/
theorem decScanEndsTheInput : Obligations.DecScanEndsTheInput := by
  unfold Obligations.DecScanEndsTheInput
  intro s hf hst hend
  have hrule : blockRule s = some (s.goto .decFin) := by rw [blockRule, hf]; exact decScan_of_end hend
  rw [blockStep_at s hf nofun hst (.inr (by rw [hend])) hrule, State.afterStep_of_busy rfl]
  rfl

/-- A turn that reads a byte and goes on scanning (R104). -/
theorem decScan_turn_on (hf : s.work.fsm = .decScan) (hst : s.stuck = false) (hm : s.work.cur.toNat < s.work.wLen.toNat)
    (hr : s.readsPlainly (s.work.wIn + s.work.cur)) (ht : decByte s.consumed (s.byteAt (s.work.wIn + s.work.cur)) = some t)
    (hft : t.work.fsm = .decScan) : blockStep s = .next t := by
  rw [decScan_turn hf hst hm hr ht, State.afterStep_of_busy (State.busy_of_fsm hft nofun)]

/-- BITS advanced by 5, in numbers (R106, R112). -/
theorem toNat_add_five {b : BitCount} (h : b.toNat ≤ 7) : (b + 5#4).toNat = b.toNat + 5 := by
  rw [BitVec.toNat_add, BitVec.toNat_ofNat]; omega

/-- BITS after a symbol or a `=`, in numbers (R106, R114). -/
theorem dropByte_add_five {b : BitCount} (h : b.toNat ≤ 7) :
    dropByte (b + 5#4) = BitVec.ofNat 4 (if 8 ≤ b.toNat + 5 then b.toNat + 5 - 8 else b.toNat + 5) := by
  apply BitVec.eq_of_toNat_eq
  rw [dropByte_toNat, toNat_add_five h, BitVec.toNat_ofNat]
  split <;> omega

/-- Settles O18: `=` takes the first branch of the dispatch. -/
theorem decScanCountsPadding : Obligations.DecScanCountsPadding := by
  unfold Obligations.DecScanCountsPadding
  intro s hf hst hcur hfew hr hc bits
  have hdrop : dropByte (s.work.bits + 5#4) = BitVec.ofNat 4 bits := dropByte_add_five hfew
  have hlt : bits < 2 ^ 4 := by
    show (if 8 ≤ s.work.bits.toNat + 5 then _ else _) < _
    split <;> omega
  have hzero : BitVec.ofNat 4 bits ≠ 0#4 ↔ bits ≠ 0 := by
    rw [ne_eq, ← BitVec.toNat_inj, BitVec.toNat_ofNat, BitVec.toNat_ofNat, Nat.mod_eq_of_lt hlt]
  have hbyte : decByte s.consumed (s.byteAt (s.work.wIn + s.work.cur)) =
      some { s.consumed with work := s.consumed.work.padStep } := by rw [hc]; exact decByte_pad s.consumed
  rw [decScan_turn_on hf hst hcur hr hbyte hf]
  simp only [State.consumed, Work.padStep, hdrop, hzero]

/-- Settles O20: a separator leaves the state as the read left it. -/
theorem decScanSkipsSeparators : Obligations.DecScanSkipsSeparators := by
  unfold Obligations.DecScanSkipsSeparators
  intro s hf hst hcur hr hpad hsep
  exact decScan_turn_on hf hst hcur hr (decByte_separator (u := s.consumed) hpad ((isSeparator_iff _).mpr hsep)) hf

/-- The two ways a byte raises INVALID_CHARACTER (R107, R111). -/
theorem decByte_raises (hne : c ≠ padByte) (h : u.work.padStart = true ∨ (isSeparator c = false ∧ lookup (typo c) = none)) :
    decByte u c = some (u.raiseError .invalidCharacter) := by
  cases hp : u.work.padStart with
  | true => exact decByte_inPadding hne hp
  | false =>
    rw [hp] at h
    obtain ⟨hsep, hnone⟩ := h.resolve_left nofun
    exact decByte_bad hne hp hsep hnone

/-- Settles O19: the error entry leaves memory alone, and the end of the command all but the clobbered bytes. -/
theorem decScanRaisesInvalidCharacter : Obligations.DecScanRaisesInvalidCharacter := by
  unfold Obligations.DecScanRaisesInvalidCharacter
  intro s c hf hst hcur hr hc hne hbad
  have hraise : decByte s.consumed c = some (s.consumed.raiseError .invalidCharacter) := by
    refine decByte_raises hne (hbad.imp id fun ⟨hsep, hnone⟩ => ⟨?_, hnone⟩)
    rwa [← Bool.not_eq_true, isSeparator_iff]
  refine ⟨_, decScan_turn hf hst hcur hr (hc ▸ hraise), ?_⟩
  refine ⟨?_, rfl, rfl, fun b hb => byteAt_ended rfl hb, rfl, rfl, rfl, rfl, rfl⟩
  exact (statusWord_error (c := .invalidCharacter) (n := s.work.cnt) rfl rfl).trans (by decide)

/-- Everything an emission does if its write is admitted: whether a byte is written, BITS falls below 8 (R113, R114). -/
theorem decEmit_admitted (hwf : Memory.wf u.mem = true)
    (ha : u.work.cnt.toNat < u.work.wCap.toNat → u.admits .write (u.work.outSlot u.work.cnt) = true) :
    let emits := 8 ≤ u.work.bits.toNat ∧ u.work.cnt.toNat < u.work.wCap.toNat
    ∃ t : State, decEmit u = some t ∧
      t.work = { u.work with bits := dropByte u.work.bits, cnt := if emits then u.work.cnt + 1#32 else u.work.cnt } ∧
      (emits → t.byteAt (u.work.outSlot u.work.cnt) = u.work.topByte) ∧
      (∀ b : Addr, (emits → b ≠ u.work.outSlot u.work.cnt) → t.byteAt b = u.byteAt b) ∧ t.result = u.result ∧ KeepsTheRest u t := by
  intro emits
  by_cases h8 : 8 ≤ u.work.bits.toNat
  · have hdrop : dropByte u.work.bits = u.work.bits - 8#4 := if_pos (by simpa [BitVec.le_def] using h8)
    rw [hdrop]
    cases hroom : u.work.roomLeft with
    | true =>
      have hlt := (Work.roomLeft_iff _).mp hroom
      have hemits : emits := ⟨h8, hlt⟩
      refine ⟨_, decEmit_put h8 hroom (ha hlt), ?_, fun _ => State.byteAt_blockPut_self u _ _ hwf,
        fun b hb => State.byteAt_blockPut_other u _ b _ (hb hemits), rfl, rfl, rfl, rfl, rfl, rfl⟩
      rw [if_pos hemits]
    | false =>
      have hemits : ¬ emits := fun h => by rw [(Work.roomLeft_iff _).mpr h.2] at hroom; cases hroom
      refine ⟨_, decEmit_full h8 hroom, ?_, fun h => absurd h hemits, fun _ _ => rfl, rfl, rfl, rfl, rfl, rfl, rfl⟩
      rw [if_neg hemits]
  · have hdrop : dropByte u.work.bits = u.work.bits := if_neg (by simpa [BitVec.le_def] using h8)
    have hemits : ¬ emits := fun h => h8 h.1
    refine ⟨u, decEmit_few (Nat.lt_of_not_le h8), ?_, fun h => absurd h hemits, fun _ _ => rfl, rfl, rfl, rfl, rfl, rfl, rfl⟩
    rw [hdrop, if_neg hemits]

/-- Settles O21: the turn is the emission from the state with the symbol shifted in. -/
theorem decScanShiftsInSymbols : Obligations.DecScanShiftsInSymbols := by
  unfold Obligations.DecScanShiftsInSymbols
  intro s c v hf hst hwf hcur hfew hr hc hclass hpad hadm acc bits emits
  obtain ⟨hne, hsep, hlook⟩ := classify_eq_sym.mp hclass
  have hbits : (s.work.bits + 5#4).toNat = bits := toNat_add_five hfew
  obtain ⟨t, hemit, hwork, hput, hkeep, hres, hrest⟩ :=
    decEmit_admitted (u := { s.consumed with work := s.consumed.work.shiftInSymbol v }) hwf hadm
  have hbyte : decByte s.consumed (s.byteAt (s.work.wIn + s.work.cur)) = some t := by
    rw [hc, decByte_symbol (u := s.consumed) hne hpad hsep hlook]; exact hemit
  simp only [Work.shiftInSymbol_bits, Work.shiftInSymbol_cnt, Work.shiftInSymbol_wCap, State.consumed, hbits, dropByte_add_five hfew]
    at hwork hput hkeep
  refine ⟨t, decScan_turn_on hf hst hcur hr hbyte (by rw [hwork]; exact hf), hwork, fun h => ?_, hkeep, hres, hrest⟩
  exact (hput h).trans (Work.topByte_eq _ bits hbits)

/-! ### DEC_FIN -/

theorem blockRule_decFin (hf : s.work.fsm = .decFin) : blockRule s = decFin s := by rw [blockRule, hf]

/-- The sentinel fits (R115). -/
theorem decFin_of_room (hroom : s.work.roomLeft = true) (ha : s.admits .write (s.work.outSlot s.work.cnt) = true) :
    decFin s = some ((s.blockPut (s.work.outSlot s.work.cnt) nul).finish s.work.cnt) := by
  rw [decFin, if_pos hroom, State.blockWrite_admitted s _ nul ha]; rfl

/-- No room for the sentinel (R115). -/
theorem decFin_of_full (hroom : ¬ s.work.roomLeft = true) : decFin s = some (s.finish s.work.cnt) := by
  rw [decFin, if_neg hroom]

/-- A command that has finished with success (R185). -/
theorem statusWord_afterStep_finish (u : State) (n : Word) : (u.finish n).afterStep.statusWord = 0x00000002#32 := by
  rw [State.afterStep_of_idle rfl]
  exact statusWord_success (n := n) rfl rfl

/-- Settles O22: the two cases of DEC_FIN, and then the end of the command. -/
theorem decFinTerminatesTheOutput : Obligations.DecFinTerminatesTheOutput := by
  unfold Obligations.DecFinTerminatesTheOutput
  intro s hf hst hwf hadm
  by_cases hroom : s.work.roomLeft = true
  · have hlt := (Work.roomLeft_iff _).mp hroom
    have hrule := (blockRule_decFin hf).trans (decFin_of_room hroom (hadm hlt))
    refine ⟨_, blockStep_at s hf nofun hst (.inl nofun) hrule, statusWord_afterStep_finish _ _, rfl, rfl, ⟨rfl, rfl, rfl, rfl, rfl⟩,
      fun _ => ⟨fun hb => ?_, fun b hne hb => ?_⟩, fun hle => absurd hlt (Nat.not_lt.mpr hle)⟩
    · exact (byteAt_ended (u := (s.blockPut _ nul).finish _) rfl hb).trans (State.byteAt_blockPut_self s _ nul hwf)
    · exact (byteAt_ended (u := (s.blockPut _ nul).finish _) rfl hb).trans (State.byteAt_blockPut_other s _ b nul hne)
  · have hrule := (blockRule_decFin hf).trans (decFin_of_full hroom)
    exact ⟨_, blockStep_at s hf nofun hst (.inl nofun) hrule, statusWord_afterStep_finish _ _, rfl, rfl, ⟨rfl, rfl, rfl, rfl, rfl⟩,
      fun hlt => absurd ((Work.roomLeft_iff _).mpr hlt) hroom, fun _ b hb => byteAt_ended rfl hb⟩

end Sys2Proof.Machine
end

section
/-! A whole DECODE: it ends in its step count, its verdict does not depend on the capacity, and it writes the bytes its text stands for
(40_decode.md R102, R114 to R122). -/

namespace Sys2Proof.Machine

variable {s a b u v : State} {cur : Nat}

/-! ### The start of the scan -/

/-- The effective capacity, in numbers (R101). -/
theorem decodeCapacity_toNat (cap : Word) : (decodeCapacity cap).toNat = if s32 cap ≤ 0 then 0 else cap.toNat := by
  unfold decodeCapacity
  split <;> rfl

/-- The accepted DECODE is at the start of its scan (R101). -/
theorem scanPoint_acceptDecode (hst : s.stuck = false) (hsch : s.schedule = []) : ScanPoint s.acceptDecode 0 s.acceptDecode where
  calm := ⟨SameFixed.refl _, hsch, hst, rfl, rfl⟩
  fsm := rfl
  curEq := rfl
  read := Nat.zero_le _
  few := Nat.zero_le _
  room := Nat.zero_le _

theorem ScanPoint.busy (h : ScanPoint a cur u) : u.busy = true := State.busy_of_fsm h.fsm nofun

/-! ### The step count -/

/-- The platform admits what a DECODE accepted in `a` may need (R69). -/
structure Admitted (a : State) : Prop where
  reads  : ∀ i, i < a.work.wLen.toNat → a.admits .read (a.work.wIn + BitVec.ofNat 32 i) = true
  writes : ∀ j, j < a.work.wCap.toNat → a.admits .write (a.work.wOut + BitVec.ofNat 32 j) = true

/-- With `k` bytes left to read, a scan ends with success after `k + 2` turns or with INVALID_CHARACTER at one of those bytes. -/
theorem ScanPoint.ends (hadm : Admitted a) (k : Nat) : ∀ {u : State} {cur : Nat}, cur + k = a.work.wLen.toNat → ScanPoint a cur u →
    ∃ (t : State) (l : Nat), EndsIn u l t ∧ (t.statusWord = 0x00000002#32 ∧ l = k + 2 ∨
      t.statusWord = 0x00000016#32 ∧ cur + l = t.work.cur.toNat ∧ 0 < l ∧ l ≤ k) := by
  induction k with
  | zero =>
    intro u cur hlen h
    obtain rfl : cur = a.work.wLen.toNat := hlen
    obtain ⟨t, hruns, hidle, hstatus, -⟩ := h.finish hadm.writes
    exact ⟨t, 2, EndsIn_iff.mpr ⟨hruns, hidle⟩, .inl ⟨hstatus, rfl⟩⟩
  | succ k ih =>
    intro u cur hlen h
    have hlt : cur < a.work.wLen.toNat := by omega
    obtain ⟨v, hstep, hv⟩ := h.next hlt (hadm.reads cur hlt) hadm.writes
    split at hv
    · obtain ⟨hidle, hstatus, hcur, -⟩ := hv
      have hcurN : v.work.cur.toNat = cur + 1 := by
        have := a.work.wLen.isLt
        rw [hcur, BitVec.toNat_ofNat]; omega
      exact ⟨v, 1, EndsIn_iff.mpr ⟨Runs.cons h.busy hstep (Runs.zero v), hidle⟩, .inr ⟨hstatus, hcurN.symm, by omega, by omega⟩⟩
    · obtain ⟨t, l, hends, hend⟩ := ih (by omega) hv.1
      obtain ⟨hruns, hidle⟩ := EndsIn_iff.mp hends
      refine ⟨t, l + 1, EndsIn_iff.mpr ⟨Runs.cons h.busy hstep hruns, hidle⟩, hend.imp ?_ ?_⟩
      · exact fun ⟨hstatus, hl⟩ => ⟨hstatus, by omega⟩
      · exact fun ⟨hstatus, hl, _, _⟩ => ⟨hstatus, by omega, by omega, by omega⟩

/-- Settles O51: a scan from its start, with the whole input left to read. -/
theorem decodeEndsInItsStepCount : Obligations.DecodeEndsInItsStepCount := by
  unfold Obligations.DecodeEndsInItsStepCount
  intro s n cap hidle hst hsch hreads hwrites
  have hcap : s.acceptDecode.work.wCap.toNat = cap := decodeCapacity_toNat s.args.outCap
  have hadm : Admitted s.acceptDecode := ⟨hreads, fun j hj => hwrites j (hcap ▸ hj)⟩
  obtain ⟨t, k, hends, hend⟩ := ScanPoint.ends hadm n (Nat.zero_add n) (scanPoint_acceptDecode hst hsch)
  refine ⟨s.acceptDecode, t, k, exec_dec_of_idle hidle, hends, hend.imp id ?_⟩
  exact fun ⟨hstatus, hcur, hpos, hle⟩ => ⟨hstatus, by omega, hpos, hle⟩

/-! ### Two capacities -/

/-- Commands accepted in `a` and in `b` read one input, which lies in neither output region, and the platform admits everything. -/
structure SameInput (a b : State) : Prop where
  wIn  : b.work.wIn = a.work.wIn
  wLen : b.work.wLen = a.work.wLen
  left  : Admitted a
  right : Admitted b
  apartLeft  : ∀ i, i < a.work.wLen.toNat → a.work.outputRegion.contains (a.work.wIn + BitVec.ofNat 32 i) = false
  apartRight : ∀ i, i < a.work.wLen.toNat → b.work.outputRegion.contains (a.work.wIn + BitVec.ofNat 32 i) = false

/-- Two scans at the same byte, which agree in the control and in the input. -/
structure InStep (a b : State) (cur : Nat) (u v : State) : Prop where
  left  : ScanPoint a cur u
  right : ScanPoint b cur v
  bits  : v.work.bits = u.work.bits
  padStart : v.work.padStart = u.work.padStart
  input : ∀ i, i < a.work.wLen.toNat → v.byteAt (a.work.wIn + BitVec.ofNat 32 i) = u.byteAt (a.work.wIn + BitVec.ofNat 32 i)

/-- Two commands ended alike, as far as the capacity has no say in it (R114). -/
structure SameVerdict (t w : State) : Prop where
  status : t.statusWord = w.statusWord
  cur    : t.work.cur = w.work.cur
  bits   : t.work.bits = w.work.bits
  padStart : t.work.padStart = w.work.padStart

/-- One turn of both scans: both go on, or both end with INVALID_CHARACTER, since `scanControl` says which. -/
theorem InStep.next (hin : SameInput a b) (h : InStep a b cur u v) (hlt : cur < a.work.wLen.toNat) :
    ∃ t w : State, step u = .next t ∧ step v = .next w ∧
      (InStep a b (cur + 1) t w ∨ (t.busy = false ∧ w.busy = false ∧ SameVerdict t w)) := by
  have hltb : cur < b.work.wLen.toNat := hin.wLen ▸ hlt
  obtain ⟨t, ht, hleft⟩ := h.left.next hlt (hin.left.reads cur hlt) hin.left.writes
  obtain ⟨w, hw, hright⟩ := h.right.next hltb (hin.right.reads cur hltb) hin.right.writes
  rw [h.bits, h.padStart, hin.wIn, h.input cur hlt] at hright
  refine ⟨t, w, ht, hw, ?_⟩
  cases hc : scanControl u.work.bits u.work.padStart (u.byteAt (a.work.wIn + BitVec.ofNat 32 cur)) with
  | none =>
    rw [hc] at hleft hright
    obtain ⟨hidle, hstatus, hcur, hbits, hpad⟩ := hleft
    obtain ⟨hidle', hstatus', hcur', hbits', hpad'⟩ := hright
    exact .inr ⟨hidle, hidle', hstatus.trans hstatus'.symm, hcur.trans hcur'.symm, hbits.trans hbits'.symm, hpad.trans hpad'.symm⟩
  | some p =>
    rw [hc] at hleft hright
    obtain ⟨hscan, hbits, hpad, hkeep⟩ := hleft
    obtain ⟨hscan', hbits', hpad', hkeep'⟩ := hright
    refine .inl ⟨hscan, hscan', hbits'.trans hbits.symm, hpad'.trans hpad.symm, fun i hi => ?_⟩
    rw [hkeep' _ (hin.apartRight i hi), h.input i hi, hkeep _ (hin.apartLeft i hi)]

/-- Two scans in step end after the same number of turns, with the same verdict. -/
theorem InStep.ends (hin : SameInput a b) (k : Nat) : ∀ {u v : State} {cur : Nat}, cur + k = a.work.wLen.toNat → InStep a b cur u v →
    ∃ (t w : State) (l : Nat), EndsIn u l t ∧ EndsIn v l w ∧ SameVerdict t w := by
  simp only [EndsIn_iff]
  induction k with
  | zero =>
    intro u v cur hlen h
    obtain rfl : cur = a.work.wLen.toNat := hlen
    obtain ⟨t, hruns, hidle, hstatus, -, hwork, -⟩ := h.left.finish hin.left.writes
    obtain ⟨w, hruns', hidle', hstatus', -, hwork', -⟩ := ScanPoint.finish (hin.wLen ▸ h.right) hin.right.writes
    refine ⟨t, w, 2, ⟨hruns, hidle⟩, ⟨hruns', hidle'⟩, hstatus.trans hstatus'.symm, ?_, ?_, ?_⟩ <;> rw [hwork, hwork']
    · exact h.left.curEq.trans h.right.curEq.symm
    · exact h.bits.symm
    · exact h.padStart.symm
  | succ k ih =>
    intro u v cur hlen h
    obtain ⟨t, w, ht, hw, hon | ⟨hidle, hidle', hsame⟩⟩ := h.next hin (by omega)
    · obtain ⟨t', w', l, ⟨hruns, hidle⟩, ⟨hruns', hidle'⟩, hsame⟩ := ih (by omega) hon
      exact ⟨t', w', l + 1, ⟨Runs.cons h.left.busy ht hruns, hidle⟩, ⟨Runs.cons h.right.busy hw hruns', hidle'⟩, hsame⟩
    · exact ⟨t, w, 1, ⟨Runs.cons h.left.busy ht (Runs.zero t), hidle⟩, ⟨Runs.cons h.right.busy hw (Runs.zero w), hidle'⟩, hsame⟩

theorem admitted_of_no_hole (h : a.denied = []) : Admitted a :=
  ⟨fun _ _ => State.admits_of_no_hole a .read _ h, fun _ _ => State.admits_of_no_hole a .write _ h⟩

/-- The host's other capacity for the same command. -/
def State.withCapacity (s : State) (cap : Word) : State := { s with args := { s.args with outCap := cap } }

/-- Two DECODEs of one input start in step, whatever their capacities (R101). -/
theorem inStep_acceptDecode (hst : s.stuck = false) (hsch : s.schedule = []) (cap : Word) :
    InStep s.acceptDecode (s.withCapacity cap).acceptDecode 0 s.acceptDecode (s.withCapacity cap).acceptDecode where
  left := scanPoint_acceptDecode hst hsch
  right := scanPoint_acceptDecode hst hsch
  bits := by simp
  padStart := by simp
  input := fun _ _ => (State.byteAt_congr (State.acceptDecode_mem _) _).trans (State.byteAt_congr (State.acceptDecode_mem s) _).symm

/-- Settles O52: the two commands start in step. -/
theorem decodeVerdictIgnoresCapacity : Obligations.DecodeVerdictIgnoresCapacity := by
  unfold Obligations.DecodeVerdictIgnoresCapacity
  intro s cap2 hidle hst hsch hden hapart hapart2
  have hlen : s.args.inLen.toNat ≤ 2 ^ 32 := Nat.le_of_lt s.args.inLen.isLt
  have hin : SameInput s.acceptDecode (s.withCapacity cap2).acceptDecode :=
    ⟨by simp [State.withCapacity], by simp [State.withCapacity], admitted_of_no_hole hden, admitted_of_no_hole hden,
      Region.apart_at hapart hlen, Region.apart_at hapart2 hlen⟩
  obtain ⟨t, w, l, hends, hends2, hsame⟩ := InStep.ends hin s.args.inLen.toNat (Nat.zero_add _) (inStep_acceptDecode hst hsch cap2)
  exact ⟨_, _, t, w, l, l, exec_dec_of_idle hidle, exec_dec_of_idle hidle, hends, hends2, rfl, hsame.status, hsame.cur, hsame.bits,
    hsame.padStart⟩

/-! ### The bytes written -/

/-- A command whose input lies apart from its output reads the text that memory held there at its acceptance. -/
theorem readsText_of_apart {text : List Byte} (hadm : Admitted a)
    (hapart : Region.apart a.work.inputRegion a.work.outputRegion) (htext : s.bytesFrom a.work.wIn a.work.wLen.toNat = text) :
    ReadsText s a 0 text := by
  have hlen : text.length = a.work.wLen.toNat := by rw [← htext, State.bytesFrom_length]
  refine ⟨by omega, fun i hi => ?_, fun u out c hc hw i hi => ?_⟩ <;> rw [Nat.zero_add]
  · exact hadm.reads i (hlen ▸ hi)
  · have hout := Region.apart_at hapart (Nat.le_of_lt a.work.wLen.isLt) i (hlen ▸ hi)
    rw [hw.kept _ (Region.contains_mono hc hout), ← htext, List.getD_eq_getElem?_getD, State.bytesFrom_getElem? _ _ _ _ (hlen ▸ hi)]
    rfl

/-- The accepted DECODE has written nothing, and is at the start of whatever piece comes first. -/
theorem decPoint_acceptDecode (hst : s.stuck = false) (hsch : s.schedule = []) (hwf : Memory.wf s.mem = true) (body : List Byte) :
    DecPoint s s.acceptDecode 0 [] body 0 s.acceptDecode where
  scan := scanPoint_acceptDecode hst hsch
  cntEq := by simp
  bitsEq := rfl
  acc := fun _ hi => absurd hi (Nat.not_lt_zero _)
  unpadded := rfl
  written := by simpa using Written.start s.args.outAddr (decodedBytes (symbolsOf body)) s.acceptDecode_mem hwf

/-- The slots written hold the output as far as it fits. -/
theorem Written.bytesFrom {base : Addr} {out : List Byte} {cap : Nat} (h : Written s base out (min cap out.length) u) :
    u.bytesFrom base (min cap out.length) = out.take cap := by
  refine State.bytesFrom_eq _ _ _ _ List.length_take fun i hi => ?_
  rw [h.done i hi, List.getD_eq_getElem?_getD, List.getD_eq_getElem?_getD, List.getElem?_take_of_lt (by omega)]

/-- The end of a text: the scan succeeds, and the sentinel stands after the bytes if it fits (R115). -/
theorem PaddingPoint.finish {out : List Byte} {k : Nat} (h : PaddingPoint s a out k a.work.wLen.toNat u) (hadm : Admitted a) :
    ∃ t : State, Runs u 2 t ∧ t.busy = false ∧ t.statusWord = 0x00000002#32 ∧ KeepsTheRest u t ∧
      t.result.count.toNat = min a.work.wCap.toNat out.length ∧
      Written s a.work.wOut (out ++ [nul]) (min a.work.wCap.toNat (out ++ [nul]).length) t := by
  have hlt := a.work.wCap.isLt
  have hcntN : u.work.cnt.toNat = min a.work.wCap.toNat out.length := by rw [h.cntEq, BitVec.toNat_ofNat]; omega
  obtain ⟨t, hruns, hidle, hstatus, hcount, -, hkeep, hput, hfull⟩ := h.scan.finish hadm.writes
  refine ⟨t, hruns, hidle, hstatus, hkeep, by rw [hcount, hcntN], ?_⟩
  rw [List.length_append, List.length_singleton]
  have hext := h.written.extend [nul] (Nat.min_le_right _ _)
  by_cases hroom : out.length < a.work.wCap.toNat
  · rw [Nat.min_eq_right (by omega)] at hext hcntN
    rw [Nat.min_eq_right (by omega)]
    refine hext.put (by omega) (c := nul) (by simp) ?_
    rw [hput (by omega), h.cntEq, Nat.min_eq_right (by omega)]
  · rw [Nat.min_eq_left (by omega)] at hext hcntN
    rw [Nat.min_eq_left (by omega)]
    exact hext.congr (hfull (by omega))

/-- Settles O48: the scan of the whole pieces, of the last one, and the end. -/
theorem decodeWritesTheBytes : Obligations.DecodeWritesTheBytes := by
  unfold Obligations.DecodeWritesTheBytes
  intro s pieces last n cap bytes hidle hst hsch hwf hapart htext hwhole hplain hreads hwrites
  have hcap : s.acceptDecode.work.wCap.toNat = cap := decodeCapacity_toNat s.args.outCap
  have hlt : s.acceptDecode.work.wCap.toNat < 2 ^ 31 := decodeCapacity_lt s.args.outCap
  have hadm : Admitted s.acceptDecode := ⟨hreads, fun j hj => hwrites j (hcap ▸ hj)⟩
  have hin : ReadsText s s.acceptDecode 0 (pieces.flatMap TextPiece.text ++ last.text) :=
    readsText_of_apart hadm (by rw [Work.outputRegion, hcap]; exact hapart) htext
  have hlen : (pieces.flatMap TextPiece.text).length + last.text.length = n := by
    rw [← List.length_append, ← htext, State.bytesFrom_length]
  obtain ⟨u, hruns, hu⟩ := DecPoint.pieces hlt hadm.writes last.body pieces hin.left hwhole (decPoint_acceptDecode hst hsch hwf)
  obtain ⟨v, hruns', hv⟩ := hu.piece hin.right hplain hlt hadm.writes
  rw [List.nil_append, Nat.zero_add, hlen] at hv
  obtain ⟨t, hruns'', hend, hstatus, hkeep, hcount, hwritten⟩ := hv.finish hadm
  rw [hcap] at hcount hwritten
  have hlenNul : (bytes ++ [nul]).length = bytes.length + 1 := List.length_append
  refine ⟨s.acceptDecode, t, exec_dec_of_idle hidle, EndsIn_iff.mpr ⟨?_, hend⟩, hkeep.1.trans hv.scan.calm.fixed.args, hstatus, hcount, ?_, ?_⟩
  · rw [← hlen]; exact (hruns.trans hruns').trans hruns''
  · rw [← hlenNul]; exact hwritten.bytesFrom
  · rw [← hlenNul]; exact hwritten.kept

end Sys2Proof.Machine
end

section
/-! The acceptance of `enc` and `enc.pad`, and one turn of ENC_INIT, ENC_DATA, ENC_PAD and ENC_FIN in each of its cases (41_encode.md R131 to
R142). -/

namespace Sys2Proof.Machine

variable {s t u : State}

/-! ### Acceptance -/

/-- Settles O8: the three ways an acceptance goes, each field by field that of R131. -/
theorem encodeAcceptanceLatchesChecksAndStarts : Obligations.EncodeAcceptanceLatchesChecksAndStarts := by
  unfold Obligations.EncodeAcceptanceLatchesChecksAndStarts
  refine ⟨by decide, by decide, fun s pad hidle => ?_⟩
  intro accepted
  rw [exec_encode_of_idle pad hidle]
  rcases acceptEncode_cases s pad with ⟨hlong, e⟩ | ⟨hlen, hcap, e⟩ | ⟨hlen, hcap, e⟩
  · rw [if_pos hlong, e]; rfl
  · rw [if_neg (Nat.not_le.mpr hlen), if_pos hcap, e]; rfl
  · rw [if_neg (Nat.not_le.mpr hlen), if_neg (not_le.mpr hcap), e]
    by_cases h0 : s.args.inLen = 0#32
    · rw [if_pos h0, if_neg (by rw [h0]; decide)]; rfl
    · have hpos : 0 < s.args.inLen.toNat := Nat.pos_of_ne_zero fun h => h0 (BitVec.eq_of_toNat_eq h)
      rw [if_neg h0, if_pos hpos]; rfl

/-! ### Turns that go on -/

/-- A turn after which the command still runs. -/
theorem blockStep_on {f : Fsm} (hf : s.work.fsm = f) (hi : f ≠ .idle) (hd : f ≠ .decScan) (hst : s.stuck = false)
    (hrule : blockRule s = some t) (hft : t.work.fsm ≠ .idle) : blockStep s = .next t := by
  rw [blockStep_at s hf hi hst (.inl hd) hrule, State.afterStep_of_busy ((State.busy_iff t).mpr hft)]

/-- Settles O12: the rule's read returns the byte that memory holds. -/
theorem encInitLoadsTheFirstByte : Obligations.EncInitLoadsTheFirstByte := by
  unfold Obligations.EncInitLoadsTheFirstByte
  intro s hf hst hr
  refine blockStep_on hf nofun nofun hst ?_ nofun
  rw [blockRule, hf]
  simp only [encInit, Work.inByte, BitVec.add_zero, State.blockRead_plain s _ hr.1 hr.2]
  rfl

/-- The loop is left when its condition fails (R136). -/
theorem encData_leaves (hf : s.work.fsm = .encData) (hst : s.stuck = false) (hl : ¬ s.work.dataLoop = true) :
    blockStep s = .next (s.goto .encPad) := by
  refine blockStep_on hf nofun nofun hst ?_ nofun
  rw [blockRule, hf]
  exact if_neg hl

/-- Settles O13: the loop's condition, in numbers. -/
theorem encDataLeavesTheLoop : Obligations.EncDataLeavesTheLoop := by
  unfold Obligations.EncDataLeavesTheLoop
  exact fun s hf hst hl => encData_leaves hf hst (mt (Work.dataLoop_iff _).mp hl)

/-- An iteration whose refill leaves the working registers `w`: the character of `w`'s top bits is emitted (R139, R140). -/
theorem encData_emits {w : Work} (hf : s.work.fsm = .encData) (hst : s.stuck = false) (hwf : Memory.wf s.mem = true)
    (hl : s.work.dataLoop = true) (ha : s.admits .write (s.work.wOut + s.work.cnt) = true)
    (hr : encRefill s = some { s with work := w }) (hfsm : w.fsm = .encData) (hout : w.wOut = s.work.wOut) (hcnt : w.cnt = s.work.cnt) :
    ∃ t : State, blockStep s = .next t ∧ t.work = { w with bits := w.bits - 5#4, cnt := s.work.cnt + 1#32 } ∧
      t.byteAt (s.work.wOut + s.work.cnt) = alphabet w.topSymbol ∧
      (∀ b : Addr, b ≠ s.work.wOut + s.work.cnt → t.byteAt b = s.byteAt b) ∧ t.result = s.result ∧ KeepsTheRest s t :=
  ⟨_, encData_turn hf hst hl hr hfsm hout hcnt ha, rfl, State.byteAt_blockPut_self s _ _ hwf,
    fun b hb => State.byteAt_blockPut_other s _ b _ hb, rfl, rfl, rfl, rfl, rfl, rfl⟩

/-- BITS after an emission, in numbers (R140). -/
theorem bits_sub_five {b : BitCount} {n : Nat} (hb : b.toNat = n) (h5 : 5 ≤ n) : b - 5#4 = BitVec.ofNat 4 (n - 5) := by
  have := b.isLt
  apply BitVec.eq_of_toNat_eq
  rw [BitVec.toNat_sub, BitVec.toNat_ofNat, BitVec.toNat_ofNat]
  omega

/-- Settles O14: the refill, the zero-fill or neither, and then the emission. -/
theorem encDataEmitsOneCharacter : Obligations.EncDataEmitsOneCharacter := by
  unfold Obligations.EncDataEmitsOneCharacter
  intro s hf hst hwf hroom hmore ha hread refill acc bits index
  have hl : s.work.dataLoop = true := (Work.dataLoop_iff _).mpr ⟨hroom, hmore⟩
  by_cases h5 : s.work.bits.toNat < 5
  · by_cases hcur : s.work.cur.toNat < s.work.wLen.toNat
    · have hbits : (s.work.bits + 8#4).toNat = s.work.bits.toNat + 8 := by
        rw [BitVec.toNat_add, BitVec.toNat_ofNat]; omega
      obtain ⟨t, hstep, hwork, hput, hrest⟩ :=
        encData_emits hf hst hwf hl ha (encRefill_few h5 hcur (hread h5 hcur)) hf rfl rfl
      simp only [index, acc, bits, refill, h5, hcur, and_self, if_true]
      refine ⟨t, hstep, ?_, ?_, hrest⟩
      · rw [hwork, ← bits_sub_five hbits (by omega)]; rfl
      · rw [hput, Work.topSymbol_eq _ _ hbits]; rfl
    · obtain ⟨t, hstep, hwork, hput, hrest⟩ :=
        encData_emits hf hst hwf hl ha (encRefill_end h5 (Nat.le_of_not_lt hcur)) hf rfl rfl
      simp only [index, acc, bits, refill, h5, hcur, and_false, if_true, if_false]
      refine ⟨t, hstep, ?_, ?_, hrest⟩
      · rw [hwork, bits_sub_five (n := 5) rfl (Nat.le_refl 5)]; rfl
      · rw [hput, Work.topSymbol_eq _ 5 rfl]; rfl
  · obtain ⟨t, hstep, hwork, hput, hrest⟩ :=
      encData_emits hf hst hwf hl ha (encRefill_enough (Nat.le_of_not_lt h5)) hf rfl rfl
    simp only [index, acc, bits, refill, h5, false_and, if_false]
    refine ⟨t, hstep, ?_, ?_, hrest⟩
    · rw [hwork, ← bits_sub_five rfl (Nat.le_of_not_lt h5)]
    · rw [hput, Work.topSymbol_eq _ _ rfl]

/-- The padding loop is left when its condition fails (R141). -/
theorem encPad_leaves (hf : s.work.fsm = .encPad) (hst : s.stuck = false) (hl : ¬ s.work.padLoop = true) :
    blockStep s = .next (s.goto .encFin) := by
  refine blockStep_on hf nofun nofun hst ?_ nofun
  rw [blockRule, hf]
  exact if_neg hl

/-- One `=` appended (R141). -/
theorem encPad_appends (hf : s.work.fsm = .encPad) (hst : s.stuck = false) (hl : s.work.padLoop = true)
    (ha : s.admits .write (s.work.wOut + s.work.cnt) = true) :
    blockStep s = .next { s.blockPut (s.work.wOut + s.work.cnt) padByte with work := { s.work with cnt := s.work.cnt + 1#32 } } := by
  refine blockStep_on hf nofun nofun hst ?_ (by rw [hf]; nofun)
  rw [blockRule, hf]
  simp only [encPad, hl, if_true, Work.outSlot, State.blockWrite_admitted s _ _ ha, Option.map_some, State.blockPut_work]

/-- Settles O15: the loop's condition, in numbers, and its two turns. -/
theorem encPadAppendsOrLeaves : Obligations.EncPadAppendsOrLeaves := by
  unfold Obligations.EncPadAppendsOrLeaves
  intro s hf hst hwf more
  refine ⟨fun hmore ha => ⟨_, encPad_appends hf hst ((Work.padLoop_iff _).mpr hmore) ha, rfl, State.byteAt_blockPut_self s _ _ hwf,
    fun b hb => State.byteAt_blockPut_other s _ b _ hb, rfl, rfl, rfl, rfl, rfl, rfl⟩, fun hmore => ?_⟩
  exact encPad_leaves hf hst (mt (Work.padLoop_iff _).mp hmore)

/-! ### ENC_FIN -/

/-- The sentinel written at `a`, and the command ended with result `r` (R142). -/
def State.terminated (s : State) (a : Addr) (r : Result) : State :=
  { s.blockPut a nul with result := r, work := { s.work with fsm := .idle } }

/-- ENC_FIN where the text is complete and its sentinel fits (R142). -/
theorem encFin_succeeds (hf : s.work.fsm = .encFin) (hst : s.stuck = false) (hc : s.work.complete = true ∧ s.work.cnt.toNat < s.work.wCap.toNat)
    (ha : s.admits .write (s.work.wOut + s.work.cnt) = true) :
    blockStep s = .next (s.terminated (s.work.wOut + s.work.cnt) ⟨true, false, none, s.work.cnt⟩).afterStep := by
  refine blockStep_at s hf nofun hst (.inl nofun) ?_
  rw [← Work.roomLeft_iff, ← Bool.and_eq_true] at hc
  rw [blockRule, hf]
  simp only [encFin, hc, if_true, Work.outSlot, State.blockWrite_admitted s _ _ ha]
  rfl

/-- ENC_FIN where the text is cut short or its sentinel does not fit (R142). -/
theorem encFin_fails (hf : s.work.fsm = .encFin) (hst : s.stuck = false) (hc : ¬ (s.work.complete = true ∧ s.work.cnt.toNat < s.work.wCap.toNat))
    (ha : s.admits .write (s.work.wOut + (s.work.wCap - 1#32)) = true) :
    blockStep s =
      .next (s.terminated (s.work.wOut + (s.work.wCap - 1#32)) ⟨true, true, some .bufferTooSmall, s.work.cnt⟩).afterStep := by
  refine blockStep_at s hf nofun hst (.inl nofun) ?_
  rw [← Work.roomLeft_iff, ← Bool.and_eq_true] at hc
  rw [blockRule, hf]
  simp only [encFin, hc, Work.outSlot, State.blockWrite_admitted s _ _ ha]
  rfl

/-- The end of a command writes its sentinel alone (R74 third bullet, R142). -/
theorem terminated_writes (hwf : Memory.wf s.mem = true) (a : Addr) (r : Result) : WritesOneByte s (s.terminated a r).afterStep a nul :=
  ⟨fun ha => (byteAt_ended (u := s.terminated a r) rfl ha).trans (State.byteAt_blockPut_self s a nul hwf),
    fun b hne hb => (byteAt_ended (u := s.terminated a r) rfl hb).trans (State.byteAt_blockPut_other s a b nul hne)⟩

/-- STATUS after a complete text (R185). -/
theorem statusWord_terminated_success (s : State) (a : Addr) (n : Word) :
    (s.terminated a ⟨true, false, none, n⟩).afterStep.statusWord = 0x00000002#32 := by
  rw [State.afterStep_of_idle rfl]
  exact statusWord_success (n := n) rfl rfl

/-- STATUS after a text that is not complete (R186). -/
theorem statusWord_terminated_tooSmall (s : State) (a : Addr) (n : Word) :
    (s.terminated a ⟨true, true, some .bufferTooSmall, n⟩).afterStep.statusWord = 0x00000046#32 := by
  rw [State.afterStep_of_idle rfl]
  exact (statusWord_error (c := .bufferTooSmall) (n := n) rfl rfl).trans (by decide)

/-- Settles O16: the two ends of a command, told apart by completeness and room. -/
theorem encFinTerminatesTheText : Obligations.EncFinTerminatesTheText := by
  unfold Obligations.EncFinTerminatesTheText
  intro s hf hst hwf complete slot ha
  have hiff : complete ↔ s.work.complete = true := (Work.complete_iff s.work).symm
  by_cases hc : complete ∧ s.work.cnt.toNat < s.work.wCap.toNat
  · have hslot : slot = s.work.wOut + s.work.cnt := if_pos hc
    rw [hslot] at ha ⊢
    exact ⟨_, encFin_succeeds hf hst ((and_congr_left' hiff).mp hc) ha, rfl, terminated_writes hwf _ _, ⟨rfl, rfl, rfl, rfl, rfl⟩, rfl,
      fun _ => statusWord_terminated_success s _ _, fun h => absurd hc h⟩
  · have hslot : slot = s.work.wOut + (s.work.wCap - 1#32) := if_neg hc
    rw [hslot] at ha ⊢
    exact ⟨_, encFin_fails hf hst (mt (and_congr_left' hiff).mpr hc) ha, rfl, terminated_writes hwf _ _, ⟨rfl, rfl, rfl, rfl, rfl⟩, rfl,
      fun h => absurd h hc, fun _ => statusWord_terminated_tooSmall s _ _⟩

end Sys2Proof.Machine
end

section
/-! The text of data: its length, and that it decodes to the data (41_encode.md R144, R147). -/

namespace Sys2Proof.Machine

variable {d : List Byte}

/-- The text is the characters and then, for `enc.pad`, a run of `=` (R132, R133). -/
theorem fullText_eq (pad : Bool) (d : List Byte) :
    fullText pad d = encText d ++ List.replicate (if pad then padCount (encText d).length else 0) padByte := by
  cases pad
  · simp [fullText]
  · rfl

/-- `=` fills the last group of 8 characters (R141, R144). -/
theorem add_padCount (n : Nat) : n + padCount n = 8 * ((n + 7) / 8) := by
  unfold padCount
  omega

/-- The lengths of the two texts (R144). -/
theorem fullText_length (pad : Bool) (d : List Byte) :
    (fullText pad d).length = if pad then 8 * ((textLength d.length + 7) / 8) else textLength d.length := by
  cases pad
  · exact encText_length d
  · simp only [fullText, if_true, List.length_append, List.length_replicate, add_padCount, encText_length, textLength]

/-- The number of `=` by the bytes of the last group of 5 (R144). -/
theorem padCount_textLength (n : Nat) : padCount (textLength n) = (match n % 5 with
    | 0 => 0
    | 1 => 6
    | 2 => 4
    | 3 => 3
    | _ => 1) := by
  have hmod : n % 5 = 0 ∨ n % 5 = 1 ∨ n % 5 = 2 ∨ n % 5 = 3 ∨ n % 5 = 4 := by omega
  unfold padCount textLength
  rcases hmod with h | h | h | h | h <;> simp only [h] <;> omega

/-- Settles O53: the two lengths, and the padding of a last group. -/
theorem textHasItsLength : Obligations.TextHasItsLength := by
  unfold Obligations.TextHasItsLength
  intro d
  refine ⟨fullText_length false d, fullText_length true d, ?_⟩
  rw [fullText_length]
  exact padCount_textLength d.length

/-- A text has the bits of its data (R147). -/
theorem decodedBytes_symbolsOf_encText (d : List Byte) : decodedBytes (symbolsOf (encText d)) = d := by
  have hlen : (symbolsOf (encText d)).length = textLength d.length := by rw [symbolsOf_encText]; simp
  have hbytes : (decodedBytes (symbolsOf (encText d))).length = d.length := by
    rw [decodedBytes_length, hlen, textLength]; omega
  refine List.ext_getElem hbytes fun j hj hjd => ?_
  have hbits : 8 * d.length ≤ 5 * textLength d.length := by unfold textLength; omega
  rw [← List.getD_eq_getElem _ 0#8, decodedBytes_getD _ _ _ (by rwa [decodedBytes_length] at hj)]
  refine (decodedByte_eq fun r hr => ?_).symm
  rw [symbolBit_encText d _ (by omega), streamBit_at _ _ _ hr, List.getD_eq_getElem _ _ hjd]

/-- Settles O49: the body is the characters, and the rest is `=`. -/
theorem decodingTheTextGivesTheData : Obligations.DecodingTheTextGivesTheData := by
  unfold Obligations.DecodingTheTextGivesTheData
  exact fun pad d => ⟨encText d, _, fullText_eq pad d, plainText_encText d, decodedBytes_symbolsOf_encText d⟩

end Sys2Proof.Machine
end

section
/-! A whole ENCODE, and the DECODE of its text (41_encode.md R131 to R147). -/

namespace Sys2Proof.Machine

variable {s a t u : State} {d out text : List Byte} {base : Addr} {pad : Bool} {cnt m n : Nat}

/-! ### Buffers written -/

/-- The slots written hold the output (R64). -/
theorem Written.bytesFrom_take (h : Written s base out n u) (hm : m ≤ n) (hout : m ≤ out.length) : u.bytesFrom base m = out.take m := by
  refine State.bytesFrom_eq _ _ _ _ (List.length_take_of_le hout) fun i hi => ?_
  rw [h.done i (by omega), List.getD_eq_getElem?_getD, List.getD_eq_getElem?_getD, List.getElem?_take_of_lt hi]

/-- A sentinel put after the first `m` bytes, in a slot that is the next one or the last one written. -/
theorem Written.terminate {v : State} {c : Byte} (h : Written s base out n u) (hmn : m ≤ n) (hnm : n ≤ m + 1) (hm : m < 2 ^ 32)
    (hout : m ≤ out.length) (hmem : v.mem = (u.blockPut (base + BitVec.ofNat 32 m) c).mem) :
    Written s base (out.take m ++ [c]) (m + 1) v := by
  have hlen : (out.take m).length = m := List.length_take_of_le hout
  refine ⟨hmem ▸ State.wf_blockPut u _ c h.wf, fun j hj => ?_, fun b hb => ?_⟩ <;> rw [State.byteAt_congr hmem]
  · rcases Nat.lt_succ_iff_lt_or_eq.mp hj with hlt | rfl
    · rw [State.byteAt_blockPut_other u _ _ c (slot_ne (by omega) hm (Nat.ne_of_lt hlt)), h.done j (by omega),
        List.getD_append _ _ _ _ (hlen.symm ▸ hlt), List.getD_eq_getElem?_getD, List.getD_eq_getElem?_getD, List.getElem?_take_of_lt hlt]
    · rw [State.byteAt_blockPut_self u _ c h.wf, List.getD_append_right _ _ _ _ (Nat.le_of_eq hlen), hlen, Nat.sub_self]
      rfl
  · rw [State.byteAt_blockPut_other u _ b c, h.kept b (Region.contains_mono hnm hb)]
    rintro rfl
    rw [Region.contains_add, decide_eq_false_iff_not, BitVec.toNat_ofNat] at hb
    omega

/-- The beginning of a buffer. -/
theorem State.take_bytesFrom (s : State) (base : Addr) (h : m ≤ n) : (s.bytesFrom base n).take m = s.bytesFrom base m := by
  rw [State.bytesFrom, ← List.map_take, List.take_range, Nat.min_eq_left h]
  rfl

/-- A region apart from a buffer is apart from the buffer's beginning. -/
theorem Region.apart_beginning {r : Region} (h : Region.apart r ⟨base, n⟩) (hm : m ≤ n) : Region.apart r ⟨base, m⟩ := by
  refine fun x ⟨hr, hx⟩ => h x ⟨hr, ?_⟩
  simp only [Region.contains, decide_eq_true_eq] at hx ⊢
  omega

/-! ### The start -/

/-- An idle block at which an ENCODE passes acceptance, its buffers apart and the accesses it makes admitted; the host makes no
move (R131, R224; log 1). -/
structure EncodeReady (s : State) : Prop where
  awake  : s.stuck = false
  alone  : s.schedule = []
  wf     : Memory.wf s.mem = true
  len    : s.args.inLen.toNat < 2 ^ 28
  cap    : 0 < s32 s.args.outCap
  apart  : s.args.buffersApart s.args.outCap.toNat
  reads  : ∀ i, i < s.args.inLen.toNat → 8 * i / 5 < s.args.outCap.toNat → s.admits .read (s.args.inAddr + BitVec.ofNat 32 i) = true
  writes : ∀ j, j < s.args.outCap.toNat → s.admits .write (s.args.outAddr + BitVec.ofNat 32 j) = true

/-- The data that an ENCODE would read. -/
def State.inputData (s : State) : List Byte := s.bytesFrom s.args.inAddr s.args.inLen.toNat

theorem State.inputData_length (s : State) : s.inputData.length = s.args.inLen.toNat := State.bytesFrom_length ..

theorem State.inputData_getD (s : State) {i : Nat} (h : i < s.args.inLen.toNat) (c : Byte) :
    s.inputData.getD i c = s.byteAt (s.args.inAddr + BitVec.ofNat 32 i) := by
  rw [State.inputData, List.getD_eq_getElem?_getD, State.bytesFrom_getElem? _ _ _ _ h]
  rfl

theorem EncodeReady.cap_bounds (h : EncodeReady s) : 0 < s.args.outCap.toNat ∧ s.args.outCap.toNat < 2 ^ 31 :=
  s32_pos_bounds (not_le.mpr h.cap)

/-- An acceptance that passes its checks (R131). -/
theorem EncodeReady.accepted (h : EncodeReady s) (pad : Bool) :
    s.acceptEncode pad = (s.encodeLatch pad).goto (if s.args.inLen = 0#32 then .encData else .encInit) := by
  rcases acceptEncode_cases s pad with ⟨hlong, -⟩ | ⟨-, hcap, -⟩ | ⟨-, -, e⟩
  · exact absurd h.len (Nat.not_lt.mpr hlong)
  · exact absurd h.cap (not_lt.mpr hcap)
  · exact e

/-- The characters stand first in the text. -/
theorem fullText_getD {j : Nat} (pad : Bool) (d : List Byte) (h : j < textLength d.length) :
    (fullText pad d).getD j 0#8 = alphabet (textSymbol d j) := by
  rw [fullText_eq, List.getD_append _ _ _ _ (by rwa [encText_length]), encText_getD d j _ h]

/-- What the encoder's loops assume holds of the accepted ENCODE. -/
theorem EncodeReady.ground (h : EncodeReady s) (pad : Bool) :
    EncGround s (s.acceptEncode pad) s.inputData (fullText pad s.inputData) := by
  rw [h.accepted pad]
  refine ⟨s.inputData_length.symm, s.inputData_length ▸ h.len, h.cap_bounds.2, fun j => fullText_getD pad _, fun i hi => ?_,
    fun i hi => ?_, fun i hi => ?_, h.writes⟩ <;> rw [s.inputData_length] at hi
  · exact (s.inputData_getD hi _).symm
  · exact Region.apart_at h.apart (Nat.le_of_lt s.args.inLen.isLt) i hi
  · exact h.reads i hi

/-- The first byte's bits in ACC (R134). -/
theorem holdsBits_first {c : Byte} (hc : c = d.getD 0 0#8) : HoldsBits d 0 (c.setWidth 13) 8 := by
  have h : HoldsBits d 0 0#13 0 := fun _ hi => absurd hi (Nat.not_lt_zero _)
  simpa using h.refill (by decide) rfl hc

/-- Without data the accepted block is in its data loop (R131). -/
theorem EncodeReady.at_once (h : EncodeReady s) (pad : Bool) (out : List Byte) :
    EncPoint s ((s.encodeLatch pad).goto .encData) s.inputData out 0 0 ((s.encodeLatch pad).goto .encData) where
  calm := ⟨SameFixed.refl _, h.alone, h.awake, rfl, rfl⟩
  fsm := rfl
  curEq := rfl
  cntEq := rfl
  read := Nat.zero_le _
  room := Nat.zero_le _
  few := Nat.zero_le _
  pos := .inl rfl
  acc := fun _ hi => absurd hi (Nat.not_lt_zero _)
  written := Written.start _ _ rfl h.wf

/-- The block with its first byte read (R134). -/
def State.firstRead (s : State) : State :=
  { s with work := { s.work with acc := (s.byteAt s.work.wIn).setWidth 13, bits := 8#4, cur := 1#32, fsm := .encData } }

/-- With data the first byte is read before the data loop (R134). -/
theorem EncodeReady.after_first (h : EncodeReady s) (hpos : 0 < s.args.inLen.toNat) (pad : Bool) (out : List Byte) :
    EncPoint s ((s.encodeLatch pad).goto .encInit) s.inputData out 1 0 ((s.encodeLatch pad).goto .encInit).firstRead where
  calm := ⟨⟨rfl, rfl, rfl, rfl, rfl, rfl, rfl, rfl, rfl, rfl⟩, h.alone, h.awake, rfl, rfl⟩
  fsm := rfl
  curEq := rfl
  cntEq := rfl
  read := s.inputData_length.symm ▸ hpos
  room := Nat.zero_le _
  few := Nat.le_refl _
  pos := .inl rfl
  acc := by
    have hbyte : s.byteAt s.args.inAddr = s.inputData.getD 0 0#8 := by
      rw [s.inputData_getD hpos]; exact congrArg s.byteAt (BitVec.add_zero _).symm
    exact holdsBits_first hbyte
  written := Written.start _ _ rfl h.wf

/-- The turn that reads the first byte (R134). -/
theorem EncodeReady.step_first (h : EncodeReady s) (hpos : 0 < s.args.inLen.toNat) (pad : Bool) :
    step ((s.encodeLatch pad).goto .encInit) = .next ((s.encodeLatch pad).goto .encInit).firstRead := by
  have hadm : s.admits .read s.args.inAddr = true :=
    (congrArg (s.admits .read) (BitVec.add_zero _)).symm.trans (h.reads 0 hpos h.cap_bounds.1)
  rw [step_of_nil (by exact h.alone)]
  exact encInitLoadsTheFirstByte _ rfl h.awake ⟨hadm, rfl⟩

/-- The data loop begins at once if there is no data, and else with the first byte read (R131, R134). -/
theorem EncodeReady.start (h : EncodeReady s) (pad : Bool) (out : List Byte) :
    ∃ (u : State) (cur : Nat), Runs (s.acceptEncode pad) (if s.args.inLen.toNat = 0 then 0 else 1) u ∧
      EncPoint s (s.acceptEncode pad) s.inputData out cur 0 u := by
  rw [h.accepted pad]
  by_cases h0 : s.args.inLen.toNat = 0
  · rw [if_pos h0, if_pos (BitVec.eq_of_toNat_eq h0)]
    exact ⟨_, 0, Runs.zero _, h.at_once pad out⟩
  · have hpos : 0 < s.args.inLen.toNat := Nat.pos_of_ne_zero h0
    rw [if_neg h0, if_neg fun e => h0 (congrArg BitVec.toNat e)]
    exact ⟨_, 1, Runs.cons rfl (h.step_first hpos pad) (Runs.zero _), h.after_first hpos pad out⟩

/-! ### The end -/

/-- The block about to end a text: as much of it as fits is written, and it is complete if there is room for the sentinel (R142). -/
structure FinPoint (s a : State) (text : List Byte) (u : State) : Prop where
  calm     : Calm a u
  fsm      : u.work.fsm = .encFin
  cntEq    : u.work.cnt = BitVec.ofNat 32 (min a.work.wCap.toNat text.length)
  complete : text.length < a.work.wCap.toNat → u.work.complete = true
  written  : Written s a.work.wOut text (min a.work.wCap.toNat text.length) u

/-- What an ENCODE with its output at `base` leaves: as much of the text as lets the sentinel fit, the sentinel, and the result
(R142 to R146). -/
structure TextEnd (s : State) (base : Addr) (cap : Nat) (text : List Byte) (t : State) : Prop where
  idle     : t.busy = false
  count    : t.result.count.toNat = min cap text.length
  success  : text.length < cap → t.statusWord = 0x00000002#32
  tooSmall : cap ≤ text.length → t.statusWord = 0x00000046#32
  written  : Written s base (text.take (min (cap - 1) text.length) ++ [nul]) (min (cap - 1) text.length + 1) t

theorem textLength_le_fullText (pad : Bool) (d : List Byte) : textLength d.length ≤ (fullText pad d).length := by
  rw [fullText_length]; split <;> omega

/-- Characters that are all there, in whole groups for `enc.pad`, are complete (R142). -/
theorem PadPoint.complete (h : PadPoint s a d (fullText pad d) (min a.work.wCap.toNat (fullText pad d).length) u) (hp : a.work.padReq = pad)
    (hroom : (fullText pad d).length < a.work.wCap.toNat) : u.work.complete = true := by
  have hlt := a.work.wCap.isLt
  have hle := textLength_le_fullText pad d
  have hcnt : u.work.cnt.toNat = (fullText pad d).length := by rw [h.cntEq, BitVec.toNat_ofNat]; omega
  obtain ⟨hbits, hcur⟩ := h.all (by omega)
  refine (Work.complete_iff _).mpr ⟨hbits, by rw [hcur], ?_⟩
  rw [h.calm.fixed.padReq, hp, hcnt, fullText_length]
  cases pad
  · exact .inl rfl
  · exact .inr (Nat.mul_mod_right 8 _)

/-- The step that leaves the padding loop (R141). -/
theorem PadPoint.leave (h : PadPoint s a d (fullText pad d) (min a.work.wCap.toNat (fullText pad d).length) u) (hp : a.work.padReq = pad)
    (hcap : a.work.wCap.toNat < 2 ^ 31) : ∃ v : State, step u = .next v ∧ FinPoint s a (fullText pad d) v := by
  have hloop : ¬ u.work.padLoop = true := by
    rw [padLoop_at h hcap hp (.inl (Nat.min_le_right _ _))]; omega
  have hfixed : SameFixed u (u.goto .encFin) := ⟨rfl, rfl, rfl, rfl, rfl, rfl, rfl, rfl, rfl, rfl⟩
  exact ⟨u.goto .encFin, h.calm.step.trans (encPad_leaves h.fsm h.calm.awake hloop),
    { calm := ⟨h.calm.fixed.trans hfixed, h.calm.idleBus, h.calm.free, h.calm.racing, h.calm.clobbered⟩
      fsm := rfl
      cntEq := h.cntEq
      complete := h.complete hp
      written := h.written.congr rfl }⟩

/-- Where the host left the output alone the end of a command writes the sentinel alone (R142). -/
theorem terminated_mem (hcl : u.vis.clobbered = []) (x : Addr) (r : Result) :
    (u.terminated x r).afterStep.mem = (u.blockPut x nul).mem := by
  rw [State.afterStep_of_idle rfl]
  show clobber _ u.vis.clobbered _ = _
  rw [hcl]
  rfl

/-- The sentinel stands after the text, or after as much of it as leaves a slot (R142). -/
theorem FinPoint.finish (h : FinPoint s a text u) (hcap : a.work.wCap.toNat < 2 ^ 31) (hpos : 0 < a.work.wCap.toNat)
    (hwrites : ∀ j, j < a.work.wCap.toNat → a.admits .write (a.work.wOut + BitVec.ofNat 32 j) = true) :
    ∃ t : State, step u = .next t ∧ KeepsTheRest a t ∧ TextEnd s a.work.wOut a.work.wCap.toNat text t := by
  have f := h.calm.fixed
  have hrest : KeepsTheRest a u := ⟨f.args, f.denied, f.stuck, f.schedule, f.replies⟩
  have hcnt : u.work.cnt.toNat = min a.work.wCap.toNat text.length := by rw [h.cntEq, BitVec.toNat_ofNat]; omega
  have hadm : ∀ j, j < a.work.wCap.toNat → u.admits .write (a.work.wOut + BitVec.ofNat 32 j) = true := fun j hj => by
    rw [State.admits_congr f.denied]; exact hwrites j hj
  by_cases hroom : text.length < a.work.wCap.toNat
  · have hslot : u.work.wOut + u.work.cnt = a.work.wOut + BitVec.ofNat 32 text.length := by
      rw [f.wOut, h.cntEq, Nat.min_eq_right (Nat.le_of_lt hroom)]
    have hlt : u.work.cnt.toNat < u.work.wCap.toNat := by rw [hcnt, f.wCap]; omega
    refine ⟨_, h.calm.step.trans (encFin_succeeds h.fsm h.calm.awake ⟨h.complete hroom, hlt⟩ (hslot ▸ hadm _ hroom)), hrest, rfl, hcnt,
      fun _ => statusWord_terminated_success _ _ _, fun hle => absurd hroom (Nat.not_lt.mpr hle), ?_⟩
    rw [Nat.min_eq_right (by omega)]
    refine h.written.terminate (by omega) (by omega) (by omega) (Nat.le_refl _) ?_
    rw [terminated_mem h.calm.clobbered, hslot]
  · have hslot : u.work.wOut + (u.work.wCap - 1#32) = a.work.wOut + BitVec.ofNat 32 (a.work.wCap.toNat - 1) := by
      rw [f.wOut, f.wCap]
      congr 1
      apply BitVec.eq_of_toNat_eq
      rw [BitVec.toNat_sub, BitVec.toNat_ofNat, BitVec.toNat_ofNat]
      omega
    have hge : ¬ u.work.cnt.toNat < u.work.wCap.toNat := by rw [hcnt, f.wCap]; omega
    refine ⟨_, h.calm.step.trans (encFin_fails h.fsm h.calm.awake (fun hc => hge hc.2) (hslot ▸ hadm _ (by omega))), hrest, rfl, hcnt,
      fun hlt => absurd hlt hroom, fun _ => statusWord_terminated_tooSmall _ _ _, ?_⟩
    rw [Nat.min_eq_left (by omega)]
    refine h.written.terminate (by omega) (by omega) (by omega) (by omega) ?_
    rw [terminated_mem h.calm.clobbered, hslot]

/-! ### The whole command -/

/-- The turns of an ENCODE: the first byte's, one for each byte written, the two that leave the loops, and the last (R134 to R142). -/
theorem EncodeReady.ends (h : EncodeReady s) (pad : Bool) :
    ∃ t : State, EndsIn (s.acceptEncode pad)
        ((if s.args.inLen.toNat = 0 then 0 else 1) + min s.args.outCap.toNat (fullText pad s.inputData).length + 3) t ∧
      KeepsTheRest s t ∧ TextEnd s s.args.outAddr s.args.outCap.toNat (fullText pad s.inputData) t := by
  have hcap : (s.acceptEncode pad).work.wCap = s.args.outCap := by rw [h.accepted pad]; rfl
  have hout : (s.acceptEncode pad).work.wOut = s.args.outAddr := by rw [h.accepted pad]; rfl
  have hp : (s.acceptEncode pad).work.padReq = pad := by rw [h.accepted pad]; rfl
  have g := h.ground pad
  have hle := textLength_le_fullText pad s.inputData
  obtain ⟨u, cur, hstart, hu⟩ := h.start pad (fullText pad s.inputData)
  obtain ⟨v, cur', hdata, hv⟩ := hu.run g _ (Nat.zero_add _)
  rw [Nat.zero_add] at hv
  obtain ⟨w, hleave, hw⟩ := hv.leave g rfl
  obtain ⟨x, hpad, hx⟩ := hw.run g hp (min (s.acceptEncode pad).work.wCap.toNat (fullText pad s.inputData).length -
    min (s.acceptEncode pad).work.wCap.toNat (textLength s.inputData.length)) (by omega)
  rw [Nat.add_sub_of_le (by omega)] at hx
  obtain ⟨y, hleave', hy⟩ := hx.leave hp g.cap
  obtain ⟨t, hfin, hrest, ht⟩ := hy.finish g.cap (hcap ▸ h.cap_bounds.1) g.writes
  rw [hcap, hout] at ht
  refine ⟨t, EndsIn_iff.mpr ⟨?_, ht.idle⟩, ?_, ht⟩
  · have hend := Runs.cons (State.busy_of_fsm hx.fsm nofun) hleave' (Runs.cons (State.busy_of_fsm hy.fsm nofun) hfin (Runs.zero t))
    have hall := (hstart.trans hdata).trans ((Runs.cons (State.busy_of_fsm hv.fsm nofun) hleave hpad).trans hend)
    rw [hcap] at hall
    convert hall using 1
    omega
  · rw [h.accepted pad] at hrest; exact hrest

/-- The bytes an ENCODE leaves in its output buffer (R142). -/
theorem TextEnd.bytesFrom {cap : Nat} (h : TextEnd s base cap text t) :
    t.bytesFrom base (min (cap - 1) text.length + 1) = text.take (min (cap - 1) text.length) ++ [nul] := by
  have hlen : (text.take (min (cap - 1) text.length) ++ [nul]).length = min (cap - 1) text.length + 1 := by
    rw [List.length_append, List.length_take_of_le (Nat.min_le_right _ _)]; rfl
  exact (h.written.bytesFrom_take (Nat.le_refl _) (Nat.le_of_eq hlen.symm)).trans (List.take_of_length_le (Nat.le_of_eq hlen))

/-- The whole text, where it fits with its sentinel (R143). -/
theorem TextEnd.bytesFrom_of_room {cap : Nat} (h : TextEnd s base cap text t) (hroom : text.length < cap) :
    t.bytesFrom base (text.length + 1) = text ++ [nul] := by
  have hbytes := h.bytesFrom
  rwa [Nat.min_eq_right (by omega), List.take_length] at hbytes

/-- Settles O47: the end of an ENCODE, where the text fits and where it does not. -/
theorem encodeWritesTheText : Obligations.EncodeWritesTheText := by
  unfold Obligations.EncodeWritesTheText
  intro s pad n cap text hidle hst hsch hwf hlen hcap hapart hreads hwrites
  have h : EncodeReady s := ⟨hst, hsch, hwf, hlen, hcap, hapart, hreads, hwrites⟩
  have hpos : 0 < cap := h.cap_bounds.1
  obtain ⟨t, hends, ⟨hargs, -⟩, ht⟩ : ∃ t : State, EndsIn (s.acceptEncode pad) ((if n = 0 then 0 else 1) + min cap text.length + 3) t ∧
    KeepsTheRest s t ∧ TextEnd s s.args.outAddr cap text t := h.ends pad
  refine ⟨s.acceptEncode pad, t, _, exec_encode_of_idle pad hidle, hends, hargs,
    fun hroom => ⟨?_, ht.success hroom, ?_, ht.bytesFrom_of_room hroom⟩, fun hfull => ⟨ht.tooSmall hfull, ?_, ?_⟩,
    fun b hb => ht.written.kept b (Region.contains_mono (by omega) hb)⟩
  · rw [Nat.min_eq_right (Nat.le_of_lt hroom)]
  · rw [ht.count, Nat.min_eq_right (Nat.le_of_lt hroom)]
  · rw [ht.count, Nat.min_eq_left hfull]
  · have hbytes := ht.bytesFrom
    rwa [Nat.min_eq_left (by omega), Nat.sub_add_cancel hpos] at hbytes

/-! ### The round trip -/

/-- A capacity that is at least a length, as DECODE takes it (R101). -/
theorem le_decodeCapacity {cap : Word} (h : (n : Int) ≤ s32 cap) : n ≤ if s32 cap ≤ 0 then 0 else cap.toNat := by
  split
  · omega
  · rw [s32, BitVec.toInt_eq_toNat_cond] at h
    split at h <;> omega

/-- DECODE takes a capacity as no more than it is (R101). -/
theorem decodeCapacity_le (cap : Word) : (if s32 cap ≤ 0 then 0 else cap.toNat) ≤ cap.toNat := by
  split <;> omega

/-- Settles O50: the memory after the ENCODE holds one piece of text, which decodes to the data. -/
theorem encodeThenDecodeRoundTrip : Obligations.EncodeThenDecodeRoundTrip := by
  unfold Obligations.EncodeThenDecodeRoundTrip
  intro s pad dst cap2 n cap data hidle hst hsch hden hwf hlen hcap hapart hroom hcap2 hapart2
  have h : EncodeReady s := ⟨hst, hsch, hwf, hlen, hcap, hapart, fun _ _ _ => State.admits_of_no_hole s _ _ hden,
    fun _ _ => State.admits_of_no_hole s _ _ hden⟩
  obtain ⟨t, hends, ⟨-, hden', hst', hsch', -⟩, ht⟩ : ∃ t : State, EndsIn (s.acceptEncode pad) _ t ∧ KeepsTheRest s t ∧
    TextEnd s s.args.outAddr cap (fullText pad data) t := h.ends pad
  have hcount : t.result.count.toNat = (fullText pad data).length := ht.count.trans (Nat.min_eq_right (Nat.le_of_lt hroom))
  have hfits := le_decodeCapacity hcap2
  have htext : t.bytesFrom s.args.outAddr t.result.count.toNat = fullText pad data := by
    rw [hcount, ← State.take_bytesFrom _ _ (Nat.le_succ _), ht.bytesFrom_of_room hroom, List.take_left]
  have hdata : decodedBytes (symbolsOf (encText data)) = data := decodedBytes_symbolsOf_encText data
  obtain ⟨b, u, hdec, hends2, -, hstatus, hcount2, hbytes, -⟩ := decodeWritesTheBytes
    { t with args := ⟨s.args.outAddr, t.result.count, dst, cap2⟩ } [] ⟨encText data, if pad then padCount (encText data).length else 0⟩
    ht.idle (hst'.trans hst) (hsch'.trans hsch) ht.written.wf
    (Region.apart_beginning (hcount ▸ hapart2) (decodeCapacity_le cap2))
    (htext.trans (fullText_eq pad data)) rfl (plainText_encText data)
    (fun _ _ => State.admits_of_no_hole _ _ _ (hden'.trans hden)) (fun _ _ => State.admits_of_no_hole _ _ _ (hden'.trans hden))
  simp only [List.flatMap_nil, List.nil_append, TextPiece.bytes, hdata] at hcount2 hbytes
  have hlenData : data.length = n := s.inputData_length
  refine ⟨_, t, b, u, _, _, exec_encode_of_idle pad hidle, hends, hdec, hends2, hstatus, BitVec.eq_of_toNat_eq ?_, ?_⟩
  · rw [hcount2, hlenData]; exact Nat.min_eq_right hfits
  · have hbegin := congrArg (List.take n) hbytes
    rwa [State.take_bytesFrom _ _ (Nat.le_min.mpr ⟨hfits, by omega⟩), List.take_take, Nat.min_eq_left hfits, List.take_left' hlenData]
      at hbegin

end Sys2Proof.Machine
end

section
/-! What a host write to CMD does: the step runs the command of a legal word, and a command changes no more than its acceptance says
(42_control.md R160 to R164; 60_exceptions.md R187). -/

namespace Sys2Proof.Machine

variable {s t : State} {w : Word} {i : Instr}

/-! ### The word at the head of the schedule -/

theorem commandWrite_of_ok (h : decode w = .ok i) (s : State) : commandWrite w s = exec i s := by
  simp only [commandWrite, h]

/-- Settles O3: the step is `eventStep` of the head of the schedule, and a CMD write hands its word to the dispatch. -/
theorem stepRunsTheDecodedCommand : Obligations.StepRunsTheDecodedCommand := by
  unfold Obligations.StepRunsTheDecodedCommand
  intro s
  refine ⟨fun e rest hsch => step_of_event hsch, fun w i rest hsch hdec => ?_, fun rest hsch => step_of_event hsch, step_of_nil⟩
  rw [step_commandWrite hsch, commandWrite_of_ok hdec]

/-- Placing a word of 32 bits is a host write of that word to CMD, before the events already there (log 2). -/
theorem State.withFetchWord_word (s : State) (w : Word) :
    s.withFetchWord 32 w.toNat = { s with schedule := .regWrite 0x00 .word w :: s.schedule } := by
  rw [State.withFetchWord, Nat.mod_eq_of_lt w.isLt, BitVec.ofNat_toNat, BitVec.setWidth_eq]

/-- Settles O4: the placed word decodes to its instruction, which runs on the state it was placed in. -/
theorem fetchedWordIsTheNextCommand : Obligations.FetchedWordIsTheNextCommand := by
  unfold Obligations.FetchedWordIsTheNextCommand
  intro s i
  rw [State.withFetchWord_word, step_commandWrite rfl, commandWrite_of_ok (decode_encode i)]

/-- Settles O5: a busy block ignores the commands and the illegal words alike. -/
theorem commandWriteWhileBusyIsIgnored : Obligations.CommandWriteWhileBusyIsIgnored := by
  unfold Obligations.CommandWriteWhileBusyIsIgnored
  intro s w rest hbusy hsch
  obtain ⟨t, ht⟩ := commandWrite_next w { s with schedule := rest }
  cases commandWrite_of_busy (s := { s with schedule := rest }) hbusy ht
  exact (step_commandWrite hsch).trans ht

/-- Settles O6: a word that encodes no instruction does not decode, and goes to `illegalCommand`. -/
theorem illegalWordRecordsIllegalCommand : Obligations.IllegalWordRecordsIllegalCommand := by
  unfold Obligations.IllegalWordRecordsIllegalCommand
  intro s w rest hidle hsch hillegal
  cases hdec : decode w with
  | ok i => exact absurd (decode_eq_ok_iff.mp hdec) (hillegal i)
  | error e =>
    have hstep : step s = .next { s with schedule := rest, result := ⟨true, true, some .illegalCommand, 0#32⟩ } := by
      rw [step_commandWrite hsch, commandWrite_of_error hdec]; exact illegalCommand_of_idle hidle
    refine ⟨_, hstep, ?_, rfl, rfl⟩
    exact statusWord_error (s := { s with schedule := rest, result := ⟨true, true, some .illegalCommand, 0#32⟩ }) hidle rfl

/-! ### Acceptance -/

/-- Settles O7: while idle `clr` is `clearResult`, which is R161. -/
theorem clearClearsTheResultAlone : Obligations.ClearClearsTheResultAlone := by
  unfold Obligations.ClearClearsTheResultAlone
  exact ⟨by decide, fun s hidle => ⟨whenIdle_of_idle _ hidle, statusWord_cleared hidle rfl⟩, fun s hbusy => exec_of_busy .clr hbusy⟩

/-- Whichever way its checks go, an ENCODE's acceptance changes the working registers, the result and the races alone (R131). -/
theorem acceptEncode_eq (s : State) (pad : Bool) : ∃ w r, s.acceptEncode pad = { s.clearRaces with work := w, result := r } := by
  rcases acceptEncode_cases s pad with ⟨-, e⟩ | ⟨-, -, e⟩ | ⟨-, -, e⟩ <;> rw [e] <;> exact ⟨_, _, rfl⟩

/-- Everything the acceptance of a command can do: nothing while busy (R164), and while idle CLEAR (R161), or a new command, which takes
over the working registers and the result and clears the races (R101, R131). -/
theorem exec_cases (h : exec i s = .next t) :
    t = s ∨
    (s.busy = false ∧ i = .clr ∧ t = s.clearResult) ∨
    (s.busy = false ∧ i ≠ .clr ∧ ∃ w r, t = { s.clearRaces with work := w, result := r } ∧ (i = .dec → w.padReq = s.work.padReq)) := by
  cases hb : s.busy with
  | true => cases (exec_of_busy i hb).symm.trans h; exact .inl rfl
  | false =>
    refine .inr ?_
    have hencode : ∀ pad, exec i s = .next (s.acceptEncode pad) → i ≠ .dec →
        ∃ w r, t = { s.clearRaces with work := w, result := r } ∧ (i = .dec → w.padReq = s.work.padReq) := fun pad hacc hdec => by
      cases hacc.symm.trans h
      obtain ⟨w, r, e⟩ := acceptEncode_eq s pad
      exact ⟨w, r, e, fun hi => absurd hi hdec⟩
    cases i with
    | clr => cases (whenIdle_of_idle _ hb).symm.trans h; exact .inl ⟨rfl, rfl, rfl⟩
    | enc => exact .inr ⟨rfl, nofun, hencode false (exec_encode_of_idle false hb) nofun⟩
    | encPad => exact .inr ⟨rfl, nofun, hencode true (exec_encode_of_idle true hb) nofun⟩
    | dec => cases (exec_dec_of_idle hb).symm.trans h; exact .inr ⟨rfl, nofun, _, _, rfl, fun _ => rfl⟩

/-- Settles O11: in each of the cases of `exec_cases`, every part named is as it was. -/
theorem acceptanceFrame : Obligations.AcceptanceFrame := by
  unfold Obligations.AcceptanceFrame
  intro i s t h
  rcases exec_cases h with rfl | ⟨hidle, rfl, rfl⟩ | ⟨hidle, hclr, w, r, rfl, hpad⟩
  · exact ⟨rfl, fun _ => rfl, rfl, rfl, rfl, rfl, rfl, rfl, rfl, rfl, fun _ => ⟨rfl, rfl⟩, fun _ => rfl, fun _ => rfl⟩
  · exact ⟨rfl, fun _ => rfl, rfl, rfl, rfl, rfl, rfl, rfl, rfl, rfl, fun _ => ⟨rfl, rfl⟩, nofun, fun hbusy => nomatch hidle.symm.trans hbusy⟩
  · exact ⟨rfl, fun _ => rfl, rfl, rfl, rfl, rfl, rfl, rfl, rfl, rfl, fun e => absurd e hclr, hpad, fun hbusy => nomatch hidle.symm.trans hbusy⟩

end Sys2Proof.Machine
end

section
/-! Nothing but its own turns and a reset touches a running command, and nothing but a reset frees a stuck block (42_control.md R166;
70_reset_and_hazards.md R225). -/

namespace Sys2Proof.Machine

variable {s t : State} {e : Event}

/-- A host event leaves the registers of a busy block alone: the one that could change them is a CMD write, which is ignored (R164). -/
theorem hostEvent_frame_of_busy (hb : s.busy = true) (h : eventStep e s = .next t) (hblock : e ≠ .block) (hreset : e ≠ .reset) :
    t.work = s.work ∧ t.result = s.result ∧ t.stuck = s.stuck := by
  rcases hostEvent_frame h hblock hreset with hkeep | ⟨w, -, hc⟩
  · exact hkeep
  · rw [commandWrite_of_busy hb hc]; exact ⟨rfl, rfl, rfl⟩

/-- Settles O46: what a host event leaves alone, on the state past the event. -/
theorem nothingCancelsACommand : Obligations.NothingCancelsACommand := by
  unfold Obligations.NothingCancelsACommand
  intro s t e rest hbusy hsch hblock hreset h
  rw [step_of_event hsch] at h
  exact hostEvent_frame_of_busy (s := { s with schedule := rest }) hbusy h hblock hreset

/-- STATUS.BUSY depends on the working registers alone (R40). -/
theorem State.busy_congr (h : t.work = s.work) : t.busy = s.busy := by
  rw [State.busy, State.busy, h]

/-- The block is as stuck and as busy as it was, and its working and result registers are as they were. -/
abbrev StaysStuck (s t : State) : Prop := t.stuck = true ∧ t.busy = true ∧ t.work = s.work ∧ t.result = s.result

theorem blockStep_staysStuck (hb : s.busy = true) (hst : s.stuck = true) (h : blockStep s = .next t) : StaysStuck s t := by
  cases (blockStep_of_stuck hst).symm.trans h
  exact ⟨hst, hb, rfl, rfl⟩

theorem hostEvent_staysStuck (hb : s.busy = true) (hst : s.stuck = true) (h : eventStep e s = .next t) (hblock : e ≠ .block)
    (hreset : e ≠ .reset) : StaysStuck s t := by
  obtain ⟨hwork, hresult, hstuck⟩ := hostEvent_frame_of_busy hb h hblock hreset
  exact ⟨hstuck.trans hst, (State.busy_congr hwork).trans hb, hwork, hresult⟩

/-- Settles O55: the block's own turn, a reset, or any event of the host. -/
theorem onlyResetFreesAStuckBlock : Obligations.OnlyResetFreesAStuckBlock := by
  unfold Obligations.OnlyResetFreesAStuckBlock
  intro s t hbusy hstuck h
  cases hsch : s.schedule with
  | nil => exact .inl (blockStep_staysStuck hbusy hstuck (step_of_nil hsch ▸ h))
  | cons e rest =>
    rw [step_of_event hsch] at h
    by_cases hblock : e = .block
    · subst hblock; exact .inl (blockStep_staysStuck (s := { s with schedule := rest }) hbusy hstuck h)
    by_cases hreset : e = .reset
    · subst hreset; cases h; exact .inr ⟨rfl, rfl, rest, rfl⟩
    · exact .inl (hostEvent_staysStuck (s := { s with schedule := rest }) hbusy hstuck h hblock hreset)

end Sys2Proof.Machine
end

section
/-! The argument registers: each reads back as written (42_control.md R163; 10_state.md R33 to R36). -/

namespace Sys2Proof.Machine

/-- The argument registers with the one at an offset of the window replaced (R33 to R36). -/
def Args.written (g : Args) (off : Nat) (v : Word) : Args where
  inAddr  := if off = 0x08 then v else g.inAddr
  inLen   := if off = 0x0C then v else g.inLen
  outAddr := if off = 0x10 then v else g.outAddr
  outCap  := if off = 0x14 then v else g.outCap

variable {off : Nat}

/-- The offsets of IN_ADDR, IN_LEN, OUT_ADDR and OUT_CAP (R30). -/
theorem argumentOffset_cases (h : off ∈ [0x08, 0x0C, 0x10, 0x14]) : off = 0x08 ∨ off = 0x0C ∨ off = 0x10 ∨ off = 0x14 := by
  simpa only [List.mem_cons, List.not_mem_nil, or_false] using h

/-- A host write at an argument register's offset changes that register alone (R163). -/
theorem hostRegWrite_argument (hoff : off ∈ [0x08, 0x0C, 0x10, 0x14]) (v : Word) (s : State) :
    hostRegWrite off .word v s = .next { s with args := s.args.written off v } := by
  rcases argumentOffset_cases hoff with rfl | rfl | rfl | rfl <;> rfl

/-- A host read there records the register's value, and is no completion point (R39, R73). -/
theorem hostRegRead_argument (hoff : off ∈ [0x08, 0x0C, 0x10, 0x14]) (s : State) :
    hostRegRead off .word s = .next { s with replies := .reg off (s.readReg (regAt off)) :: s.replies } := by
  rcases argumentOffset_cases hoff with rfl | rfl | rfl | rfl <;> rfl

theorem readReg_written (hoff : off ∈ [0x08, 0x0C, 0x10, 0x14]) {g : Args} {v : Word} {s : State} (h : s.args = g.written off v) :
    s.readReg (regAt off) = v := by
  rw [readReg_regAt, h]
  rcases argumentOffset_cases hoff with rfl | rfl | rfl | rfl <;> rfl

/-- Settles O24: the write and then the read, whose value is the one written. -/
theorem argumentRegisterReadsBackAsWritten : Obligations.ArgumentRegisterReadsBackAsWritten := by
  unfold Obligations.ArgumentRegisterReadsBackAsWritten
  intro s off v rest hoff hsch
  have hwrite : step s = .next { s with schedule := .regRead off .word :: rest, args := s.args.written off v } :=
    (step_of_event hsch).trans (hostRegWrite_argument hoff v _)
  have hread : step { s with schedule := .regRead off .word :: rest, args := s.args.written off v } =
      .next { s with schedule := rest, args := s.args.written off v, replies := .reg off v :: s.replies } := by
    rw [step_of_event rfl, eventStep, hostRegRead_argument hoff, readReg_written hoff (g := s.args) (v := v) rfl]
  exact ⟨_, _, hwrite, hread, rfl, rfl, rfl, rfl, rfl, rfl, rfl, rfl, rfl, rfl, rfl, rfl⟩

end Sys2Proof.Machine
end

section
/-! The values STATUS takes, the commands that wake an idle block, and the errors an ENCODE raises at acceptance (60_exceptions.md R182, R183,
R188, R202, R203). -/

namespace Sys2Proof.Machine

variable {s t : State} {w : Word} {i : Instr} {e : Event}

/-! ### ENCODE refused at acceptance -/

/-- COUNT takes CNT when an error is raised, and acceptance has just cleared CNT, so it is 0 whatever the code (R131, R186). -/
theorem encodeLatch_raiseError_result (s : State) (pad : Bool) (c : ErrorCode) :
    ((s.encodeLatch pad).raiseError c).result = ⟨true, true, some c, 0#32⟩ :=
  congrArg (Result.mk true true (some c)) (ite_self 0#32)

/-- Settles O9: of the three ways an acceptance goes, the third passes both checks, and the first two name the error. -/
theorem encodePreconditionErrors : Obligations.EncodePreconditionErrors := by
  unfold Obligations.EncodePreconditionErrors
  intro s pad hidle hbad
  rw [exec_encode_of_idle pad hidle]
  refine ⟨_, rfl, ?_⟩
  rcases acceptEncode_cases s pad with ⟨hlong, e⟩ | ⟨hlen, -, e⟩ | ⟨hlen, hcap, -⟩
  · have hresult := encodeLatch_raiseError_result s pad .invalidLength
    rw [e]
    exact ⟨rfl, congrArg Result.count hresult, rfl, rfl, fun _ => statusWord_error rfl hresult, fun hlen => absurd hlong (Nat.not_le.mpr hlen)⟩
  · have hresult := encodeLatch_raiseError_result s pad .invalidCapacity
    rw [e]
    exact ⟨rfl, congrArg Result.count hresult, rfl, rfl, fun hlong => absurd hlong (Nat.not_le.mpr hlen), fun _ => statusWord_error rfl hresult⟩
  · exact absurd hbad (not_or.mpr ⟨Nat.not_le.mpr hlen, not_le.mpr hcap⟩)

/-! ### The values of STATUS -/

/-- The three shapes of a coherent record: nothing, a success, and an error with its code (R161, R185, R186). -/
theorem Result.inv_cases {r : Result} (h : r.inv = true) :
    r = Result.cleared ∨ (∃ n, r = ⟨true, false, none, n⟩) ∨ ∃ c n, r = ⟨true, true, some c, n⟩ := by
  obtain ⟨done, err, code, n⟩ := r
  cases done with
  | false => exact .inl (of_decide_eq_true h)
  | true =>
    have herr : err = code.isSome := eq_of_beq h
    subst herr
    cases code with
    | none => exact .inr (.inl ⟨n, rfl⟩)
    | some c => exact .inr (.inr ⟨c, n, rfl⟩)

/-- Settles O42: BUSY alone while a command runs, and while none runs one value for each shape of the record and each error code. -/
theorem statusTakesEightValues : Obligations.StatusTakesEightValues := by
  unfold Obligations.StatusTakesEightValues
  intro s h
  cases hb : s.busy with
  | true =>
    obtain ⟨hresult, -, -⟩ := h.running hb
    rw [statusWord_running hb hresult]; decide
  | false =>
    obtain ⟨-, -, hrecord, -⟩ := h
    rcases Result.inv_cases hrecord with hr | ⟨n, hr⟩ | ⟨c, n, hr⟩
    · rw [statusWord_cleared hb hr]; decide
    · rw [statusWord_success hb hr]; decide
    · rw [statusWord_error hb hr]; cases c <;> decide

/-! ### What wakes an idle block -/

/-- Every command but CLEAR is one of ENCODE's two words or DECODE's (R90). -/
theorem encode_mem_of_ne_clr (h : i ≠ .clr) : encode i ∈ [0x00000001#32, 0x00000005#32, 0x00000002#32] := by
  cases i with
  | clr => exact absurd rfl h
  | enc | encPad | dec => decide

/-- A CMD write that wakes the block starts a command: CLEAR and an illegal word leave it idle (R161, R162). -/
theorem commandWrite_wakes (hb : s.busy = false) (h : commandWrite w s = .next t) (ht : t.busy = true) :
    w ∈ [0x00000001#32, 0x00000005#32, 0x00000002#32] := by
  cases hdec : decode w with
  | ok i =>
    rw [commandWrite_of_ok hdec] at h
    rcases exec_cases h with rfl | ⟨-, -, rfl⟩ | ⟨-, hclr, -⟩
    · cases hb.symm.trans ht
    · cases hb.symm.trans ht
    · exact encode_of_decode hdec ▸ encode_mem_of_ne_clr hclr
  | error e =>
    rw [commandWrite_of_error hdec, illegalCommand_of_idle hb] at h
    cases h
    cases hb.symm.trans ht

/-- The turn of an idle block does nothing (R22). -/
theorem blockStep_of_idle (hb : s.busy = false) : blockStep s = .next s :=
  if_pos (.inl ((State.not_busy_iff s).mp hb))

/-- The one event that wakes an idle block is such a CMD write: its own turn does nothing, a reset leaves it idle, and no other event touches FSM. -/
theorem eventStep_wakes (hb : s.busy = false) (h : eventStep e s = .next t) (ht : t.busy = true) :
    ∃ w, e = .regWrite 0x00 .word w ∧ w ∈ [0x00000001#32, 0x00000005#32, 0x00000002#32] := by
  by_cases hblock : e = .block
  · subst hblock; cases (blockStep_of_idle hb).symm.trans h; cases hb.symm.trans ht
  by_cases hreset : e = .reset
  · subst hreset; cases h; cases ht
  rcases hostEvent_frame h hblock hreset with ⟨hwork, -, -⟩ | ⟨w, rfl, hc⟩
  · cases hb.symm.trans ((State.busy_congr hwork).symm.trans ht)
  · exact ⟨w, rfl, commandWrite_wakes hb hc ht⟩

/-- Settles O45: with no event left the block's own turn does nothing, and the event that wakes it is the CMD write. -/
theorem onlyACommandWakesTheBlock : Obligations.OnlyACommandWakesTheBlock := by
  unfold Obligations.OnlyACommandWakesTheBlock
  intro s t hidle h hbusy
  cases hsch : s.schedule with
  | nil =>
    cases (blockStep_of_idle hidle).symm.trans (step_of_nil hsch ▸ h)
    cases hidle.symm.trans hbusy
  | cons e rest =>
    obtain ⟨w, rfl, hw⟩ := eventStep_wakes (s := { s with schedule := rest }) hidle (step_of_event hsch ▸ h) hbusy
    exact ⟨w, rest, rfl, hw⟩

end Sys2Proof.Machine
end

section
/-! Reset, and the state it leaves (70_reset_and_hazards.md R210, R225). -/

namespace Sys2Proof.Machine

variable {s : State} {rest : List Event}

/-- A reset event is one step, from any state: no running command and no stuck block holds it off (R210). -/
theorem step_of_reset (h : s.schedule = .reset :: rest) : step s = .next { s with schedule := rest }.platformReset :=
  step_of_event h

/-- STATUS reads 0 after a reset, whatever was recorded before (R210). -/
@[simp] theorem State.platformReset_statusWord (s : State) : s.platformReset.statusWord = 0#32 :=
  statusWord_cleared rfl rfl

/-- Settles O29: the step is the platform's reset, whose every field is known. -/
theorem resetSetsEveryRegister : Obligations.ResetSetsEveryRegister := by
  unfold Obligations.ResetSetsEveryRegister
  intro s rest h
  exact ⟨_, step_of_reset h, rfl, rfl, rfl, rfl, rfl, rfl, rfl, State.platformReset_statusWord _, rfl⟩

/-- Settles O30: the registers by their definitions, STATUS by the empty record. -/
theorem resetStateHasItsValues : Obligations.ResetStateHasItsValues := by
  unfold Obligations.ResetStateHasItsValues
  exact ⟨rfl, rfl, rfl, statusWord_cleared rfl rfl, rfl⟩

/-- Settles O39: an idle block with an empty record, no race, and no memory listed. -/
theorem invariantHoldsAtReset : Obligations.InvariantHoldsAtReset := by
  unfold Obligations.InvariantHoldsAtReset
  exact State.Inv.of_resting rfl rfl Result.inv_cleared rfl rfl rfl

end Sys2Proof.Machine
end

section
/-! The text of data split after a whole number of 5-byte groups (70_reset_and_hazards.md R223). -/

namespace Sys2Proof.Machine

variable {d : List Byte} {j n : Nat}

/-! ### Whole groups of 5 bytes -/

/-- Whole groups have exactly the bits of their characters: no zero-fill (R138). -/
theorem five_mul_textLength (h : n % 5 = 0) : 5 * textLength n = 8 * n := by
  unfold textLength
  omega

theorem textLength_add (h : n % 5 = 0) (m : Nat) : textLength (n + m) = textLength n + textLength m := by
  unfold textLength
  omega

/-- Whole groups take no `=` (R144). -/
theorem padCount_of_groups (h : n % 5 = 0) : padCount (textLength n) = 0 := by
  unfold padCount textLength
  omega

/-- The `=` of a text are those of what follows its whole groups (R144). -/
theorem padCount_add_groups (h : n % 5 = 0) (m : Nat) : padCount (textLength (n + m)) = padCount (textLength m) := by
  rw [padCount_textLength, padCount_textLength, Nat.add_mod, h, Nat.zero_add, Nat.mod_mod]

/-! ### The characters -/

/-- A character of the whole groups has its five bits in them, so what follows does not change it. -/
theorem textSymbol_append_left (h : d.length % 5 = 0) (e : List Byte) (hj : j < textLength d.length) :
    textSymbol (d ++ e) j = textSymbol d j := by
  have hbits := five_mul_textLength h
  refine textSymbol_eq fun r hr => ?_
  rw [textSymbol_bit _ _ _ hr, streamBit_append_left d e _ (by omega)]

/-- The characters after the whole groups start at the first bit of what follows. -/
theorem textSymbol_append_right (h : d.length % 5 = 0) (e : List Byte) (j : Nat) :
    textSymbol (d ++ e) (textLength d.length + j) = textSymbol e j := by
  refine textSymbol_eq fun r hr => ?_
  have hbit : 5 * (textLength d.length + j) + r = 8 * d.length + (5 * j + r) := by
    rw [Nat.mul_add, five_mul_textLength h, Nat.add_assoc]
  rw [textSymbol_bit _ _ _ hr, hbit, streamBit_append_right]

/-- The text of `enc` splits after whole groups (R223). -/
theorem encText_append (h : d.length % 5 = 0) (e : List Byte) : encText (d ++ e) = encText d ++ encText e := by
  unfold encText
  rw [List.length_append, textLength_add h, List.range_add, List.map_append, List.map_map]
  congr 1
  · exact List.map_congr_left fun j hj => congrArg alphabet (textSymbol_append_left h e (List.mem_range.mp hj))
  · exact List.map_congr_left fun j _ => congrArg alphabet (textSymbol_append_right h e j)

/-! ### The whole text -/

/-- The length of the characters, in the spelling of the facts on `padCount`. -/
theorem encText_length_eq_textLength (d : List Byte) : (encText d).length = textLength d.length := encText_length d

/-- Whole groups end in no `=`: their text is the same padded or not. -/
theorem fullText_of_groups (h : d.length % 5 = 0) (pad : Bool) : fullText pad d = encText d := by
  rw [fullText_eq, encText_length_eq_textLength, padCount_of_groups h, ite_self, List.replicate_zero, List.append_nil]

/-- Settles O54: the characters split, and the `=` are those of the second part. -/
theorem textSplitsAtGroups : Obligations.TextSplitsAtGroups := by
  unfold Obligations.TextSplitsAtGroups
  intro pad d e h
  have hpad : padCount (encText (d ++ e)).length = padCount (encText e).length := by
    rw [encText_length_eq_textLength, encText_length_eq_textLength, List.length_append, padCount_add_groups h]
  rw [fullText_of_groups h, fullText_eq, fullText_eq, hpad, encText_append h, List.append_assoc]

end Sys2Proof.Machine
end

section
/-! The sample command words, legal and illegal (30_encoding.md R90; 95_test_vectors.md V-C-2 to V-C-8). -/

namespace Sys2Proof

/-- A fault of the fields makes the word illegal, for that reason (R90). -/
theorem decode_of_fault {w : Word} {e : DecodeError} (h : (CommandFields.ofWord w).fault = some e) : decode w = .error e := by
  simp only [decode, h]

/-- Settles O2: the legal words are the four encodings, and each of the others has its fault in its fields. -/
theorem sampleWordsDecode : Obligations.SampleWordsDecode := by
  unfold Obligations.SampleWordsDecode
  refine ⟨decode_encode .clr, decode_encode .enc, decode_encode .encPad, decode_encode .dec, ?_, ?_, ?_, ?_, ?_, ?_, ?_⟩
  all_goals exact decode_of_fault (by decide)

end Sys2Proof
end
